-- ==== Sys2Proof/Word.lean ====
section
/-! DEFINITION. The word types: the signal number `Num`, the 128-bit command word and the 32-bit register word. -/

namespace Sys2Proof

/-- A signal value, phase, level, step, frequency, time or parameter: an exact rational, every operation exact
(00_scope.md R7; the one value the spec defines for `NUM`, 93_implementation_defined.md U1). -/
abbrev Num := Rat

/-- One command word `W`, bit 0 the least significant (00_scope.md R11, 30_encoding.md R80). -/
abbrev Word := BitVec 128

/-- A 32-bit register or response value (10_state.md R24 to R27, 30_encoding.md R92). -/
abbrev Reg32 := BitVec 32

end Sys2Proof
end

