-- ==== Sys2Proof/Syntax.lean ====
section
/-! DEFINITION. The commands: one constructor per row of spec/opcode_table.json, with the operand fields of
30_encoding.md R82. -/

namespace Sys2Proof

/-- A command with its operand fields, as they stand in the word (30_encoding.md R82). -/
inductive Instr where
  /-- NOP, op 0x00 (46_commands.md R242) -/
  | nop
  /-- INIT, op 0x01 (46_commands.md R243) -/
  | init (ch : BitVec 8) (poly : BitVec 16) (sr maxblk : BitVec 32)
  /-- SETPOLY, op 0x02 (46_commands.md R245) -/
  | setpoly (n : BitVec 16)
  /-- SETP, op 0x03 (46_commands.md R246) -/
  | setp (r : BitVec 8) (val : BitVec 32)
  /-- RDSR, op 0x04 (46_commands.md R248) -/
  | rdsr (bank : BitVec 8) (idx : BitVec 16)
  /-- NOTE_ON, op 0x10 (46_commands.md R250); `vp` says that a voice id is present -/
  | noteOn (vp : Bool) (note : BitVec 7) (channel : BitVec 4) (vid vel : BitVec 32)
  /-- NOTE_OFF, op 0x11 (46_commands.md R252) -/
  | noteOff (vp : Bool) (note : BitVec 7) (channel : BitVec 4) (vid : BitVec 32)
  /-- RENDER, op 0x20 (46_commands.md R254) -/
  | render (blockStart blockEnd : BitVec 32)
  deriving DecidableEq, Repr

end Sys2Proof
end

