-- ==== Sys2Proof/WellFormed.lean ====
section
/-! DEFINITION. Which commands have a word: the one condition beyond field widths is that of the absent voice id. -/

namespace Sys2Proof

/-- When `vp = 0` the field `a` must be 0 (30_encoding.md R85); every other operand is any value of its field. -/
def Instr.wellFormed : Instr → Bool
  | .nop => true
  | .init _ _ _ _ => true
  | .setpoly _ => true
  | .setp _ _ => true
  | .rdsr _ _ => true
  | .noteOn vp _ _ vid _ => vp || vid == 0
  | .noteOff vp _ _ vid => vp || vid == 0
  | .render _ _ => true

end Sys2Proof
end

