-- ==== Sys2Proof/Decode.lean ====
section
/-! DEFINITION. The command decoder (30_encoding.md R87), total on every 128-bit word, and the encoder. -/

namespace Sys2Proof

/-! ### Fields (30_encoding.md R81) -/

/-- `op = W[127:120]` -/
def fieldOp (w : Word) : BitVec 8 := w.extractLsb' 120 8
/-- `f = W[119:112]` -/
def fieldF (w : Word) : BitVec 8 := w.extractLsb' 112 8
/-- `g = W[111:96]` -/
def fieldG (w : Word) : BitVec 16 := w.extractLsb' 96 16
/-- `a = W[95:64]` -/
def fieldA (w : Word) : BitVec 32 := w.extractLsb' 64 32
/-- `b = W[63:32]` -/
def fieldB (w : Word) : BitVec 32 := w.extractLsb' 32 32
/-- `c = W[31:0]` -/
def fieldC (w : Word) : BitVec 32 := w.extractLsb' 0 32
/-- `f[7]`, the voice-id-present bit of NOTE_ON and NOTE_OFF (30_encoding.md R82). -/
def fieldVp (w : Word) : Bool := w.getLsbD 119
/-- `f[6:0]`, the note number (30_encoding.md R82). -/
def fieldNote (w : Word) : BitVec 7 := w.extractLsb' 112 7
/-- `g[3:0]`, the channel (30_encoding.md R82). -/
def fieldChannel (w : Word) : BitVec 4 := w.extractLsb' 96 4

/-! ### The opcode table (30_encoding.md R86, R87; opcode_table.json) -/

/-- One row of the opcode table: a word is of the row when `W & mask = pattern`. -/
structure Row where
  mnemonic : String
  pattern : Word
  mask : Word
  deriving DecidableEq, Repr

/-- `(W & row.mask) = row.match` (30_encoding.md R87). -/
def Row.hits (r : Row) (w : Word) : Bool := w &&& r.mask == r.pattern

def rowNop : Row := ⟨"NOP", 0x00000000000000000000000000000000#128, 0xFFFFFFFFFFFFFFFFFFFFFFFFFFFFFFFF#128⟩
def rowInit : Row := ⟨"INIT", 0x01000000000000000000000000000000#128, 0xFF0000000000000000000000FFFFFFFF#128⟩
def rowSetpoly : Row := ⟨"SETPOLY", 0x02000000000000000000000000000000#128, 0xFFFF0000FFFFFFFFFFFFFFFFFFFFFFFF#128⟩
def rowSetp : Row := ⟨"SETP", 0x03000000000000000000000000000000#128, 0xFF00FFFF00000000FFFFFFFFFFFFFFFF#128⟩
def rowRdsr : Row := ⟨"RDSR", 0x04000000000000000000000000000000#128, 0xFF000000FFFFFFFFFFFFFFFFFFFFFFFF#128⟩
def rowNoteOn : Row := ⟨"NOTE_ON", 0x10000000000000000000000000000000#128, 0xFF00FFF00000000000000000FFFFFFFF#128⟩
def rowNoteOff : Row := ⟨"NOTE_OFF", 0x11000000000000000000000000000000#128, 0xFF00FFF000000000FFFFFFFFFFFFFFFF#128⟩
def rowRender : Row := ⟨"RENDER", 0x20000000000000000000000000000000#128, 0xFFFFFFFF0000000000000000FFFFFFFF#128⟩

/-- The eight rows, in the table's order. -/
def opcodeTable : List Row :=
  [rowNop, rowInit, rowSetpoly, rowSetp, rowRdsr, rowNoteOn, rowNoteOff, rowRender]

/-- Why a word is illegal (30_encoding.md R88). -/
inductive Illegal where
  /-- the opcode is one of the 248 unassigned values -/
  | unassignedOpcode (op : BitVec 8)
  /-- an assigned opcode with a non-zero reserved field -/
  | reservedField (op : BitVec 8)
  /-- NOTE_ON or NOTE_OFF with `vp = 0` and `a ≠ 0` (30_encoding.md R85) -/
  | voiceIdNotPresent (op : BitVec 8)
  deriving DecidableEq, Repr

/-- The name under which a word that no row matches is refused. -/
def noRow (w : Word) : Illegal :=
  if opcodeTable.any (fun r => r.pattern.extractLsb' 120 8 == fieldOp w) then .reservedField (fieldOp w)
  else .unassignedOpcode (fieldOp w)

/-- 30_encoding.md R85: `vp = 0` requires `a = 0`. -/
def voiceIdOk (w : Word) : Bool := fieldVp w || fieldA w == 0

/-- `decode(W)` of 30_encoding.md R87, with the operands of R83 to R85. -/
def decode (w : Word) : Except Illegal Instr :=
  if rowNop.hits w then .ok .nop
  else if rowInit.hits w then .ok (.init (fieldF w) (fieldG w) (fieldA w) (fieldB w))
  else if rowSetpoly.hits w then .ok (.setpoly (fieldG w))
  else if rowSetp.hits w then .ok (.setp (fieldF w) (fieldA w))
  else if rowRdsr.hits w then .ok (.rdsr (fieldF w) (fieldG w))
  else if rowNoteOn.hits w then
    if voiceIdOk w then .ok (.noteOn (fieldVp w) (fieldNote w) (fieldChannel w) (fieldA w) (fieldB w))
    else .error (.voiceIdNotPresent (fieldOp w))
  else if rowNoteOff.hits w then
    if voiceIdOk w then .ok (.noteOff (fieldVp w) (fieldNote w) (fieldChannel w) (fieldA w))
    else .error (.voiceIdNotPresent (fieldOp w))
  else if rowRender.hits w then .ok (.render (fieldA w) (fieldB w))
  else .error (noRow w)

/-! ### The encoder (30_encoding.md R81, R82) -/

/-- The word with the six fields `op f g a b c` of 30_encoding.md R81. -/
def packWord (op f : BitVec 8) (g : BitVec 16) (a b c : BitVec 32) : Word :=
  op ++ f ++ g ++ a ++ b ++ c

/-- The opcode of a command (30_encoding.md R86). -/
def Instr.opcode : Instr → BitVec 8
  | .nop => 0x00
  | .init _ _ _ _ => 0x01
  | .setpoly _ => 0x02
  | .setp _ _ => 0x03
  | .rdsr _ _ => 0x04
  | .noteOn _ _ _ _ _ => 0x10
  | .noteOff _ _ _ _ => 0x11
  | .render _ _ => 0x20

/-- `f` of NOTE_ON and NOTE_OFF: `vp` in bit 7, the note below it. -/
def packNote (vp : Bool) (note : BitVec 7) : BitVec 8 := BitVec.ofBool vp ++ note

/-- `g` of NOTE_ON and NOTE_OFF: twelve zeros over the channel. -/
def packChannel (channel : BitVec 4) : BitVec 16 := (0 : BitVec 12) ++ channel

/-- The word of a command: each operand in its field, every reserved field 0 (30_encoding.md R82). -/
def encode : Instr → Word
  | .nop => packWord 0x00 0 0 0 0 0
  | .init ch poly sr maxblk => packWord 0x01 ch poly sr maxblk 0
  | .setpoly n => packWord 0x02 0 n 0 0 0
  | .setp r val => packWord 0x03 r 0 val 0 0
  | .rdsr bank idx => packWord 0x04 bank idx 0 0 0
  | .noteOn vp note channel vid vel => packWord 0x10 (packNote vp note) (packChannel channel) vid vel 0
  | .noteOff vp note channel vid => packWord 0x11 (packNote vp note) (packChannel channel) vid 0 0
  | .render blockStart blockEnd => packWord 0x20 0 0 blockStart blockEnd 0

/-- The command word whose bits are the low `nbits` bits of `w`, every higher bit 0. A command is one word, so the
table's bit 0 is bit 0 of `W` (30_encoding.md R80). -/
def tableWord (nbits w : Nat) : Word := BitVec.ofNat 128 (w % 2 ^ nbits)

/-- The instruction the decoder reads from the word with bits `w`; none where it refuses. -/
def decodeTableWord (nbits w : Nat) : Option Instr :=
  match decode (tableWord nbits w) with
  | .ok i => some i
  | .error _ => none

end Sys2Proof
end

