-- ==== Sys2Proof/Config.lean ====
section
/-! DEFINITION. The build configuration `CFG_HW` of 00_scope.md R6, its constraints, and the values the spec leaves free. -/

namespace Sys2Proof

/-- `START_LEVEL`, fixed to 0 (00_scope.md R6, 90_conflicts.md C3). -/
abbrev startLevel : Num := 0

/-- `CFG_HW`: fixed when the hardware is built, never changed at run time (00_scope.md R6). `TABLE_LEN` is the
length of `sine`; `START_LEVEL` is `startLevel`; `NUM` is exact. -/
structure CfgHW where
  /-- `MAX_VOICES` -/
  maxVoices : Nat
  /-- `N_OPS` -/
  nOps : Nat
  /-- `SINE[0 .. TABLE_LEN-1]` -/
  sine : List Num
  /-- `SINE_EPS` -/
  sineEps : Num
  /-- `SHUTDOWN_MS` -/
  shutdownMs : Num
  /-- `NOTE_FREQ[0 .. 127]` -/
  noteFreq : List Num
  /-- `SELF_MOD[0 .. N_OPS-1]` -/
  selfMod : List Bool
  /-- `AGE_RESET_ON_NOTE_ON` -/
  ageResetOnNoteOn : Bool
  /-- `MAXBLK_LIMIT` -/
  maxblkLimit : Nat
  deriving DecidableEq, Repr, Inhabited

/-- `TABLE_LEN`, written `L` in the rules. -/
def CfgHW.tableLen (c : CfgHW) : Nat := c.sine.length

/-- Properties 1 to 3 of the table (41_oscillator.md R120). -/
abbrev CfgHW.SineOk (c : CfgHW) : Prop :=
  1 ≤ c.tableLen ∧ (∀ y ∈ c.sine, -1 ≤ y ∧ y ≤ 1) ∧ c.sine.getD 0 0 = 0 ∧
    (c.tableLen % 4 = 0 →
      c.sine.getD (c.tableLen / 4) 0 = 1 ∧ c.sine.getD (c.tableLen / 2) 0 = 0 ∧
        c.sine.getD (3 * c.tableLen / 4) 0 = -1)

/-- The constraints of 00_scope.md R6 that rational arithmetic can decide, with properties 1 to 3 of
41_oscillator.md R120. Property 4 is `CfgHW.SineClose`. -/
abbrev CfgHW.Wf (c : CfgHW) : Prop :=
  1 ≤ c.maxVoices ∧ 1 ≤ c.nOps ∧ c.nOps ≤ 16 ∧ c.SineOk ∧ 0 ≤ c.sineEps ∧ 0 < c.shutdownMs ∧
    c.noteFreq.length = 128 ∧ (∀ f ∈ c.noteFreq, 0 < f) ∧ c.noteFreq.getD 69 0 = 440 ∧
    c.selfMod.length = c.nOps ∧ 1 ≤ c.maxblkLimit

/-- Property 4 of the table (41_oscillator.md R120): every entry within `SINE_EPS` of the ideal sine. -/
def CfgHW.SineClose (c : CfgHW) : Prop :=
  ∀ i, i < c.tableLen →
    |((c.sine.getD i 0 : ℚ) : ℝ) - Real.sin (2 * Real.pi * i / c.tableLen)| ≤ ((c.sineEps : ℚ) : ℝ)

/-- Every constraint the spec puts on `CFG_HW` (00_scope.md R6), all four properties of the table among them. -/
def CfgHW.Legal (c : CfgHW) : Prop := c.Wf ∧ c.SineClose

/-- A record that meets every constraint. It only shows that one exists, which a free value of a type needs (log 2). -/
def Config.filler : CfgHW :=
  { maxVoices := 1, nOps := 4, sine := [0, 1, 0, -1], sineEps := 0, shutdownMs := 2,
    noteFreq := List.replicate 128 440, selfMod := [false, false, false, false],
    ageResetOnNoteOn := true, maxblkLimit := 1 }

/-- The four-entry table is the ideal sine itself (41_oscillator.md R120). -/
theorem Config.filler_close : Config.filler.SineClose := by
  intro i hi
  have hi4 : i < 4 := hi
  have h1 : Real.sin (2 * Real.pi * 1 / 4) = 1 := by
    rw [show 2 * Real.pi * 1 / 4 = Real.pi / 2 by ring, Real.sin_pi_div_two]
  have h2 : Real.sin (2 * Real.pi * 2 / 4) = 0 := by rw [show 2 * Real.pi * 2 / 4 = Real.pi by ring, Real.sin_pi]
  have h3 : Real.sin (2 * Real.pi * 3 / 4) = -1 := by
    rw [show 2 * Real.pi * 3 / 4 = Real.pi / 2 + Real.pi by ring, Real.sin_add_pi, Real.sin_pi_div_two]
  change |((Config.filler.sine.getD i 0 : ℚ) : ℝ) - Real.sin (2 * Real.pi * (i : ℝ) / ((4 : ℕ) : ℝ))| ≤ ((0 : ℚ) : ℝ)
  interval_cases i
  · simp [Config.filler]
  · push_cast; rw [h1]; simp [Config.filler]
  · push_cast; rw [h2]; simp [Config.filler]
  · push_cast; rw [h3]; simp [Config.filler]

theorem Config.filler_legal : Config.filler.Legal := ⟨by decide +kernel, Config.filler_close⟩

/-- A record together with the proof that it is legal: what hardware can be built with. -/
structure Hardware where
  cfg : CfgHW
  legal : cfg.Legal

/-- Free value: some element of a type that has one. No body: nothing can be proved of which one it is (log 2). -/
opaque Config.free {α : Type} [Inhabited α] : α

/-- Free value: the hardware that was built, any legal record (00_scope.md R6, the OPEN fields; log 2). -/
def Config.built : Hardware := @Config.free Hardware ⟨⟨Config.filler, Config.filler_legal⟩⟩

/-- The hardware's configuration: any record that meets every constraint of 00_scope.md R6, none chosen (log 2). -/
def Config.hw : CfgHW := Config.built.cfg

/-- No table is built that breaks a property of 41_oscillator.md R120, no record that breaks a constraint of
00_scope.md R6. -/
theorem Config.hw_legal : Config.hw.Legal := Config.built.legal

/-- Free value: what the host left in `OUT` before the machine started, as writes at (channel, sample)
(20_memory.md R66, 93_implementation_defined.md U5; log 5). -/
opaque Config.hostOut : List ((Nat × Nat) × Num)

/-- Free value: the 32-bit reading of a number that 32 bits cannot hold (10_state.md R27 states none; log 8). -/
opaque Config.wideRead : Nat → Reg32

end Sys2Proof
end

