-- ==== Sys2Proof/Machine/Space.lean ====
section
/-! DEFINITION. The element-addressed arrays of 20_memory.md: a sparse list of (index, value) in one canonical form,
an unlisted element reading 0, with the read and the write of one element. -/

namespace Sys2Proof.Machine

/-- An index (c, i): channel and sample (20_memory.md R60). `PM` has no channel and uses channel 0. -/
abbrev Idx := Nat × Nat

/-- The order of indices in the list: by channel, then by sample. -/
def Idx.before (a b : Idx) : Bool := a.1 < b.1 || (a.1 == b.1 && a.2 < b.2)

/-- An array of `Num` elements (20_memory.md R60). An element no cell lists is 0, the value every element of `PM`,
`OPOUT` and `VOUT` has at reset (20_memory.md R62 to R64). -/
abbrev Space := List (Idx × Num)

/-- `MemRead(space, index)` (00_scope.md R13). -/
def Space.read : Space → Idx → Num
  | [], _ => 0
  | (k, v) :: rest, i => if i = k then v else Space.read rest i

/-- `MemWrite(space, index, value)` (00_scope.md R13). Writing 0 removes the cell, so that equal arrays are equal
lists. -/
def Space.write : Space → Idx → Num → Space
  | [], i, x => if x = 0 then [] else [(i, x)]
  | (k, v) :: rest, i, x =>
    if i = k then (if x = 0 then rest else (i, x) :: rest)
    else if i.before k then (if x = 0 then (k, v) :: rest else (i, x) :: (k, v) :: rest)
    else (k, v) :: Space.write rest i x

/-- The first listed index, if there is one, is after `i`. -/
def Space.startsAfter (i : Idx) : Space → Bool
  | [] => true
  | (k, _) :: _ => i.before k

/-- The canonical form: indices strictly rising, no cell holding 0. -/
def Space.wf : Space → Bool
  | [] => true
  | (k, v) :: rest => v != 0 && Space.startsAfter k rest && Space.wf rest

/-- The array that a list of writes leaves, from the array of zeros. -/
def Space.ofWrites (ws : List (Idx × Num)) : Space :=
  ws.foldl (fun m w => m.write w.1 w.2) []

/-- The elements of `OUT` that exist: 255 channels of `MAXBLK_LIMIT` samples (20_memory.md R60). -/
def outExists (hw : CfgHW) (c i : Nat) : Bool := c < 255 && i < hw.maxblkLimit

/-- What the host left in `OUT` before the machine started: any values, at elements that exist (20_memory.md R66;
log 5). -/
def launchOut (hw : CfgHW) : Space :=
  Space.ofWrites (Config.hostOut.filter (fun w => outExists hw w.1.1 w.1.2))

end Sys2Proof.Machine
end

