-- ==== Sys2Proof/Machine/State.lean ====
section
/-! DEFINITION. The state of FMCORE (10_state.md, 20_memory.md) as plain data, its reset value, and the reasons a
step can stop. -/

namespace Sys2Proof.Machine

/-- The six envelope states, in the order of their codes 0 to 5 (10_state.md R32). -/
inductive EnvState where
  | off | attack | decay | sustain | release | shutdown
  deriving DecidableEq, Repr

/-- A Clock (10_state.md R30). -/
structure Clock where
  mcounter : Num
  phaseInc : Num
  phaseOffset : Num
  freqOffset : Num
  deriving DecidableEq, Repr

/-- An EnvelopeGenerator (10_state.md R31). -/
structure Env where
  state : EnvState
  outputValue : Num
  stepIncrease : Num
  deriving DecidableEq, Repr

/-- An event (10_state.md R36); the voice id is a signed 32-bit value kept as its pattern, since rules only compare
it for equality (46_commands.md R257). -/
structure Event where
  note : BitVec 7
  channel : BitVec 4
  voiceId : Option Reg32
  velocity : Num
  deriving DecidableEq, Repr

/-- An Operator (10_state.md R33): `pm` is `PM[v][k]`, `out` is `OPOUT[v][k]`. -/
structure Operator where
  clock : Clock
  env : Env
  lastOutput : Num
  pm : Space
  out : Space
  deriving DecidableEq, Repr

/-- A Voice (10_state.md R34): `vout` is `VOUT[v]`. -/
structure Voice where
  ops : List Operator
  masterEnv : Env
  voiceId : Option Reg32
  channel : BitVec 4
  note : BitVec 7
  isStealing : Bool
  currentEvent : Option Event
  pendingEvent : Option Event
  vout : Space
  deriving DecidableEq, Repr

/-- The VoicePool lists (10_state.md R37): physical voice numbers, and an unbounded age per active voice. -/
structure Pool where
  active : List Nat
  age : List Nat
  inactive : List Nat
  deriving DecidableEq, Repr

/-- The parameter register file `P` (10_state.md R21); the last three lists have `N_OPS` entries. -/
structure Params where
  attackMs : Num
  decayMs : Num
  releaseMs : Num
  sustain : Num
  ratio : List Num
  modIndex : List Num
  mix : List Num
  deriving DecidableEq, Repr

/-- A register of `P` (10_state.md R21). -/
inductive Reg where
  | attackMs | decayMs | releaseMs | sustain
  | ratio (k : Nat) | modIndex (k : Nat) | mix (k : Nat)
  deriving DecidableEq, Repr

/-- The seven fault codes (60_exceptions.md R270). Raising one is a next state of the machine (R272), never a stop
of the model. -/
inductive FaultCode where
  | illegalCommand | notInitialized | invalidConfig | invalidPolyphony | paramRange | blockRange | poolEmpty
  deriving DecidableEq, Repr

/-- The 33-bit response of a command (30_encoding.md R92). -/
structure Response where
  err : Bool
  value : Reg32
  deriving DecidableEq, Repr

/-- What the host may present (log 3): a command word (00_scope.md R8), a write of one element of `OUT`
(20_memory.md R66), or reset (70_reset_and_hazards.md R290). -/
inductive HostInput where
  | command (w : Word)
  | writeOut (c i : Nat) (v : Num)
  | reset
  deriving DecidableEq, Repr

/-- Why the machine stops. No command ends here: a fault of FMCORE is a next state (60_exceptions.md R272). -/
inductive Fault where
  /-- Raised by a host write of `OUT` at an element that does not exist: channel 255 or above, or a sample at or
  above `MAXBLK_LIMIT` (20_memory.md R60). Safe: the spec gives such a write no effect (log 6). -/
  | noSuchElement (c i : Nat)
  deriving DecidableEq, Repr

/-- Why an instruction has no meaning. -/
inductive Refusal where
  /-- Raised by an arm of exec whose instruction has no meaning yet; no arm raises it. Safe. -/
  | notModelled (mnemonic : String)
  deriving DecidableEq, Repr

/-- The state of FMCORE (10_state.md R20), with what the fixed type of `step` makes the model carry beside it: the
build record `hw` (log 1), the host's inputs `pending` (log 3) and the last response (log 4). -/
structure State where
  /-- `CFG_HW`; no step writes it -/
  hw : CfgHW
  /-- the parameter registers (10_state.md R21) -/
  params : Params
  /-- `INITD` (10_state.md R24) -/
  initd : Bool
  /-- `CFG_SR` (10_state.md R24) -/
  cfgSr : BitVec 32
  /-- `CFG_CH` (10_state.md R24) -/
  cfgCh : BitVec 8
  /-- `CFG_MAXBLK` (10_state.md R24) -/
  cfgMaxblk : BitVec 32
  /-- `FAULT` (10_state.md R25) -/
  fault : Reg32
  /-- `LAST_TARGET` (10_state.md R26) -/
  lastTarget : Reg32
  /-- `active`, `age`, `inactive` (10_state.md R37) -/
  pool : Pool
  /-- `V[0 .. MAX_VOICES-1]` (10_state.md R34) -/
  voices : List Voice
  /-- `OUT`, the host's buffer (20_memory.md R65, R66) -/
  out : Space
  /-- the response of the last command; none before the first (30_encoding.md R92) -/
  response : Option Response
  /-- what the host has presented and FMCORE has not taken -/
  pending : List HostInput
  deriving DecidableEq, Repr

/-! ### Reset values (10_state.md R39, 70_reset_and_hazards.md R290) -/

def Clock.zero : Clock := ⟨0, 0, 0, 0⟩

def Env.silent : Env := ⟨.off, startLevel, 0⟩

def Operator.fresh : Operator := ⟨Clock.zero, Env.silent, 0, [], []⟩

def Voice.fresh (nOps : Nat) : Voice :=
  { ops := List.replicate nOps Operator.fresh, masterEnv := Env.silent, voiceId := none, channel := 0, note := 0,
    isStealing := false, currentEvent := none, pendingEvent := none, vout := [] }

/-- No voice active, every voice parked in the order of its number (10_state.md R37). -/
def Pool.parked (maxVoices : Nat) : Pool := ⟨[], [], List.range maxVoices⟩

def Params.zero (nOps : Nat) : Params :=
  ⟨0, 0, 0, 0, List.replicate nOps 0, List.replicate nOps 0, List.replicate nOps 0⟩

/-- `reset : CFG_HW → State` of 70_reset_and_hazards.md R290, with the host's `OUT`, which reset does not touch. -/
def State.resetWith (hw : CfgHW) (out : Space) : State :=
  { hw := hw, params := Params.zero hw.nOps, initd := false, cfgSr := 0, cfgCh := 0, cfgMaxblk := 0, fault := 0,
    lastTarget := 0xFFFFFFFF#32, pool := Pool.parked hw.maxVoices,
    voices := List.replicate hw.maxVoices (Voice.fresh hw.nOps), out := out, response := none, pending := [] }

/-- The machine right after reset: any configuration, any contents of `OUT`, no input presented. -/
def State.reset : State := State.resetWith Config.hw (launchOut Config.hw)

end Sys2Proof.Machine
end

