-- ==== Sys2Proof/Machine/Ops.lean ====
section
/-! DEFINITION. The named operations over registers and arrays that commands share: counted loops, the parameter
file, the command's snapshot of what it reads, responses, raising a fault, the halted drop, reset and host writes. -/

namespace Sys2Proof.Machine

/-! ### Counted loops (00_scope.md R14) -/

/-- `for i in 0 .. n`: `f 0`, then `f 1`, up to `f (n-1)`. -/
def forUpTo {α : Type} (n : Nat) (f : Nat → α → α) (a : α) : α :=
  match n with
  | 0 => a
  | m + 1 => f m (forUpTo m f a)

/-! ### The parameter file (10_state.md R21, R22) -/

/-- `P[r]` -/
def Params.read (p : Params) : Reg → Num
  | .attackMs => p.attackMs
  | .decayMs => p.decayMs
  | .releaseMs => p.releaseMs
  | .sustain => p.sustain
  | .ratio k => p.ratio.getD k 0
  | .modIndex k => p.modIndex.getD k 0
  | .mix k => p.mix.getD k 0

/-- `P[r] <- v` -/
def Params.write (p : Params) (r : Reg) (v : Num) : Params :=
  match r with
  | .attackMs => { p with attackMs := v }
  | .decayMs => { p with decayMs := v }
  | .releaseMs => { p with releaseMs := v }
  | .sustain => { p with sustain := v }
  | .ratio k => { p with ratio := p.ratio.set k v }
  | .modIndex k => { p with modIndex := p.modIndex.set k v }
  | .mix k => { p with mix := p.mix.set k v }

/-- What a command reads and does not change while it runs (10_state.md R22): the build record, `P`, `sr`, `C`, `B`. -/
structure Ctx where
  hw : CfgHW
  params : Params
  /-- `sr = CFG_SR` as a `Num` -/
  sr : Num
  /-- `C = CFG_CH` -/
  ch : Nat
  /-- `B = CFG_MAXBLK` -/
  blk : Nat
  deriving DecidableEq, Repr

/-- The snapshot as a command starts. -/
def State.ctx (s : State) : Ctx :=
  { hw := s.hw, params := s.params, sr := (s.cfgSr.toNat : Num), ch := s.cfgCh.toNat, blk := s.cfgMaxblk.toNat }

/-! ### Responses and faults (30_encoding.md R92, 60_exceptions.md R272, R274) -/

/-- The bit number of a code in `FAULT` (60_exceptions.md R270). -/
def FaultCode.bit : FaultCode → Nat
  | .illegalCommand => 0
  | .notInitialized => 1
  | .invalidConfig => 2
  | .invalidPolyphony => 3
  | .paramRange => 4
  | .blockRange => 5
  | .poolEmpty => 6

/-- `FAULT` with only the bit of a code set. -/
def FaultCode.mask (code : FaultCode) : Reg32 := 1#32 <<< code.bit

/-- The command completes with a response value (30_encoding.md R92). -/
def State.respond (s : State) (value : Reg32) : State := { s with response := some ⟨false, value⟩ }

/-- `raise Fault(code)`: TAKING AN EXCEPTION. Nothing the command wrote is kept (every check stands before the first
write, 46_commands.md R241), the bit is set, the response is the fault response (60_exceptions.md R272). -/
def State.raise (s : State) (code : FaultCode) : State :=
  { s with fault := s.fault ||| code.mask, response := some ⟨true, BitVec.ofNat 32 code.bit⟩ }

/-- A word dropped while halted: no state changes, no `FAULT` bit is set (60_exceptions.md R274). -/
def State.drop (s : State) : State := { s with response := some ⟨true, 31#32⟩ }

/-- A command other than NOP and RDSR while halted is dropped; else its body runs (46_commands.md R240). -/
def State.unlessHalted (s : State) (body : State) : State := if s.fault = 0 then body else s.drop

/-- SETPOLY, NOTE_ON, NOTE_OFF and RENDER need an INIT before them (46_commands.md R240). -/
def State.ifInitialised (s : State) (body : State) : State :=
  if s.initd then body else s.raise .notInitialized

/-- A word that does not decode (60_exceptions.md R271, R274). -/
def State.illegalWord (s : State) : State := s.unlessHalted (s.raise .illegalCommand)

/-! ### What is not a command -/

/-- RETURN FROM THE HALT: the reset event, the only way out of it (70_reset_and_hazards.md R290). `OUT`, the build
record and what the host has still to present are not FMCORE's to reset. -/
def State.hardReset (s : State) : State := { State.resetWith s.hw s.out with pending := s.pending }

/-- A host write of one element of `OUT` between commands (20_memory.md R66). -/
def hostWriteOut (c i : Nat) (v : Num) (s : State) : Host.Outcome State Fault Refusal :=
  if outExists s.hw c i then .next { s with out := s.out.write (c, i) v }
  else .fault (.noSuchElement c i)

/-- The next input of the host, and the state once it is taken. -/
def takeInput (s : State) : Option (HostInput × State) :=
  match s.pending with
  | [] => none
  | x :: rest => some (x, { s with pending := rest })

end Sys2Proof.Machine
end

