-- ==== Sys2Proof/Machine/Flags.lean ====
section
/-! DEFINITION. The predicates rules branch on (10_state.md R29) and the status views computed when read
(10_state.md R28, R32). -/

namespace Sys2Proof.Machine

/-- `Envelope.is_playing()` (42_envelope.md R132). -/
def Env.isPlaying (e : Env) : Bool := e.state != .off

/-- `Voice.is_playing()` (44_voice.md R192). -/
def Voice.isPlaying (v : Voice) : Bool := v.masterEnv.isPlaying

/-- The code of an envelope state (10_state.md R32). -/
def EnvState.code : EnvState → BitVec 3
  | .off => 0
  | .attack => 1
  | .decay => 2
  | .sustain => 3
  | .release => 4
  | .shutdown => 5

/-- Note of an optional event, 0 if there is none (10_state.md R28). -/
def noteOf : Option Event → BitVec 7
  | none => 0
  | some e => e.note

/-- Channel of an optional event, 0 if there is none (10_state.md R28). -/
def channelOf : Option Event → BitVec 4
  | none => 0
  | some e => e.channel

/-- `VSTAT[v]` (10_state.md R28), its fields from bit 31 down to bit 0; `active` says that `v` is in the active list. -/
def Voice.status (v : Voice) (active : Bool) : Reg32 :=
  (0 : BitVec 2) ++ channelOf v.pendingEvent ++ noteOf v.pendingEvent ++ channelOf v.currentEvent ++
    noteOf v.currentEvent ++ BitVec.ofBool active ++ v.masterEnv.state.code ++
    BitVec.ofBool v.pendingEvent.isSome ++ BitVec.ofBool v.currentEvent.isSome ++
    BitVec.ofBool v.isStealing ++ BitVec.ofBool v.isPlaying

/-- FMCORE is halted exactly when `FAULT != 0` (60_exceptions.md R274). -/
def State.halted (s : State) : Bool := s.fault != 0

end Sys2Proof.Machine
end

