-- ==== Sys2Proof/Machine/Operands.lean ====
section
/-! DEFINITION. The operand forms: Q16.16 values, the optional voice id and the event, parameter register indices,
and the entries of the status map. -/

namespace Sys2Proof.Machine

/-- `q16(p) = sext_32(p) / 65536` (30_encoding.md R84). -/
def q16 (p : BitVec 32) : Num := (p.toInt : Num) / 65536

/-- The pattern `p` with `q16(p) = x`, for a multiple of 1/65536 in range (10_state.md R27 bank 4). -/
def patternOf (x : Num) : Reg32 := BitVec.ofInt 32 ⌊x * 65536⌋

/-- The optional voice id of NOTE_ON and NOTE_OFF (30_encoding.md R85). -/
def voiceIdOf (vp : Bool) (vid : BitVec 32) : Option Reg32 := if vp then some vid else none

/-- The register an index names, if it names one (10_state.md R21, 30_encoding.md R90). -/
def regOf (nOps : Nat) (r : BitVec 8) : Option Reg :=
  let k := (r.extractLsb' 0 4).toNat
  match (r.extractLsb' 4 4).toNat with
  | 0 => match k with
    | 0 => some .attackMs
    | 1 => some .decayMs
    | 2 => some .releaseMs
    | 3 => some .sustain
    | _ => none
  | 1 => if k < nOps then some (.ratio k) else none
  | 2 => if k < nOps then some (.modIndex k) else none
  | 3 => if k < nOps then some (.mix k) else none
  | _ => none

/-- `legal(r, x)` (46_commands.md R246). -/
def Reg.legal : Reg → Num → Bool
  | .attackMs, x => 0 ≤ x
  | .decayMs, x => 0 ≤ x
  | .releaseMs, x => 0 ≤ x
  | .sustain, x => 0 ≤ x && x ≤ 1
  | .ratio _, _ => true
  | .modIndex _, x => 0 ≤ x
  | .mix _, x => 0 ≤ x && x ≤ 1

/-- A number read as 32 bits. Above 32 bits the spec states no reading: a free value (log 8). -/
def word32 (n : Nat) : Reg32 := if n < 2 ^ 32 then BitVec.ofNat 32 n else Config.wideRead n

/-- `VSTAT[v]` of physical voice `v` (10_state.md R28). -/
def State.vstat (s : State) (v : Nat) : Reg32 :=
  (s.voices.getD v (Voice.fresh s.hw.nOps)).status (s.pool.active.contains v)

/-- Bank 0 of the status map (10_state.md R27). -/
def State.statusBank0 (s : State) (idx : Nat) : Option Reg32 :=
  match idx with
  | 0 => some s.fault
  | 1 => some ((BitVec.ofBool s.initd).setWidth 32)
  | 2 => some s.cfgSr
  | 3 => some (s.cfgCh.setWidth 32)
  | 4 => some s.cfgMaxblk
  | 5 => some (word32 s.pool.active.length)
  | 6 => some s.lastTarget
  | 7 => some (word32 s.hw.maxVoices)
  | 8 => some (word32 s.hw.nOps)
  | 9 => some (word32 s.hw.tableLen)
  | _ => none

/-- The entry of the status map at a bank and index, if there is one (10_state.md R27). -/
def State.statusEntry (s : State) (bank : BitVec 8) (idx : BitVec 16) : Option Reg32 :=
  let i := idx.toNat
  match bank.toNat with
  | 0 => s.statusBank0 i
  | 1 => if i < s.hw.maxVoices then some (s.vstat i) else none
  | 2 =>
    if i < s.hw.maxVoices then
      some (if i < s.pool.active.length then BitVec.ofNat 32 (min (s.pool.age.getD i 0) (2 ^ 32 - 1))
            else 0xFFFFFFFF#32)
    else none
  | 3 =>
    if i < s.hw.maxVoices then
      some (match s.pool.active[i]? with
            | some v => word32 v
            | none => 0xFFFFFFFF#32)
    else none
  | 4 =>
    if i < 256 then (regOf s.hw.nOps (idx.setWidth 8)).map (fun r => patternOf (s.params.read r))
    else none
  | _ => none

end Sys2Proof.Machine
end

