-- ==== Sys2Proof/Machine/Clock.lean ====
section
/-! DEFINITION. The phase accumulator: the Clock's micro-operations (40_clock.md R100 to R110). -/

namespace Sys2Proof.Machine

/-- `wrap1(x) = x - floor(x)` (40_clock.md R102). -/
def wrap1 (x : Num) : Num := x - (⌊x⌋ : Num)

/-- `Clock.set_freq` (40_clock.md R101). -/
def Clock.setFreq (c : Clock) (freqHz sampleRate : Num) : Clock := { c with phaseInc := freqHz / sampleRate }

/-- `Clock.wrap` (40_clock.md R103). -/
def Clock.wrap (c : Clock) : Clock := { c with mcounter := wrap1 c.mcounter }

/-- `Clock.advance_wrap` (40_clock.md R104). -/
def Clock.advanceWrap (c : Clock) (interval : Num) : Clock :=
  { c with mcounter := wrap1 (c.mcounter + interval * c.phaseInc) }

/-- The sign rule of a one-shot offset: added for a forward phase, subtracted for a backward one, ignored and not
recorded when the clock stands still (40_clock.md R105). -/
def Clock.foldOffset (c : Clock) (offset : Num) : Clock :=
  if 0 < c.phaseInc then { c with mcounter := c.mcounter + offset, phaseOffset := c.phaseOffset + offset }
  else if c.phaseInc < 0 then { c with mcounter := c.mcounter - offset, phaseOffset := c.phaseOffset + offset }
  else c

/-- `Clock.add_phase_offset` (40_clock.md R105). -/
def Clock.addPhaseOffset (c : Clock) (offset : Num) (wrap : Bool) : Clock :=
  if wrap then (c.foldOffset offset).wrap else c.foldOffset offset

/-- The phase without the recorded offset, before the wrap of `remove_phase_offset` (40_clock.md R107). -/
def Clock.unfolded (c : Clock) : Num :=
  if 0 < c.phaseInc then c.mcounter - c.phaseOffset
  else if c.phaseInc < 0 then c.mcounter + c.phaseOffset
  else c.mcounter

/-- `Clock.remove_phase_offset` (40_clock.md R107). -/
def Clock.removePhaseOffset (c : Clock) : Clock :=
  { c with mcounter := wrap1 c.unfolded, phaseOffset := 0 }

/-- `Clock.reset`, which keeps the frequency (40_clock.md R108). -/
def Clock.restart (c : Clock) : Clock := { c with mcounter := 0, phaseOffset := 0, freqOffset := 0 }

end Sys2Proof.Machine
end

