-- ==== Sys2Proof/Machine/Envelope.lean ====
section
/-! DEFINITION. The linear envelope state machine: the EnvelopeGenerator's micro-operations (42_envelope.md R130 to
R145). -/

namespace Sys2Proof.Machine

/-- `seg_step(time_ms, sr)` (42_envelope.md R131). -/
def segStep (timeMs sr : Num) : Num := if timeMs * sr = 0 then 0 else 1000 / (timeMs * sr)

/-- `Envelope.note_on`, the same from every state (42_envelope.md R133). -/
def Env.noteOn (p : Params) (sr : Num) : Env :=
  { state := .attack, outputValue := startLevel - segStep p.attackMs sr, stepIncrease := segStep p.attackMs sr }

/-- The Off state at level 0, the end of Release, Shutdown and a direct release (42_envelope.md R134, R140, R141). -/
def Env.toOff : Env := ⟨.off, 0, 0⟩

/-- `Envelope.note_off` (42_envelope.md R134). -/
def Env.noteOff (p : Params) (sr : Num) (e : Env) : Env :=
  if e.state = .off then e
  else if 0 < e.outputValue then { e with state := .release, stepIncrease := - segStep p.releaseMs sr }
  else Env.toOff

/-- `Envelope.shutdown`: the step reaches 0 in the fixed time from any level (42_envelope.md R135). -/
def Env.shutdown (hw : CfgHW) (sr : Num) (e : Env) : Env :=
  { e with state := .shutdown, stepIncrease := - e.outputValue * 1000 / (hw.shutdownMs * sr) }

/-- The level after one step is added (42_envelope.md R136). -/
def Env.stepped (e : Env) : Num := e.outputValue + e.stepIncrease

/-- `Envelope.advance`: add the step, test the end condition, then clamp and change state (42_envelope.md R136 to
R141). -/
def Env.advance (p : Params) (sr : Num) (e : Env) : Env :=
  match e.state with
  | .off => e
  | .sustain => e
  | .attack =>
    if 1 ≤ e.stepped ∨ p.attackMs = 0 then ⟨.decay, 1, - segStep p.decayMs sr⟩
    else { e with outputValue := e.stepped }
  | .decay =>
    if e.stepped ≤ p.sustain ∨ p.decayMs = 0 then ⟨.sustain, p.sustain, 0⟩
    else { e with outputValue := e.stepped }
  | .release =>
    if e.stepped ≤ 0 ∨ p.releaseMs = 0 then Env.toOff
    else { e with outputValue := e.stepped }
  | .shutdown =>
    if e.stepped ≤ 0 then Env.toOff
    else { e with outputValue := e.stepped }

/-- `n` advances. -/
def Env.advances (p : Params) (sr : Num) (n : Nat) (e : Env) : Env := forUpTo n (fun _ e => e.advance p sr) e

/-- The value `Envelope.render` returns: the level after the first advance, or the level there is when no sample is
asked for (42_envelope.md R142). -/
def Env.renderValue (p : Params) (sr : Num) (n : Nat) (e : Env) : Num :=
  if n = 0 then e.outputValue else (e.advance p sr).outputValue

end Sys2Proof.Machine
end

