-- ==== Sys2Proof/Machine/Oscillator.lean ====
section
/-! DEFINITION. The table-lookup oscillator: `Oscillator.read` (41_oscillator.md R120 to R125). -/

namespace Sys2Proof.Machine

/-- `MemRead(SINE, i mod L)`: the table is read modulo its length, never out of bounds (41_oscillator.md R122). -/
def tableAt (sine : List Num) (i : Int) : Num := sine.getD (i % (sine.length : Int)).toNat 0

/-- `Oscillator.read(phase)`, total for every phase (41_oscillator.md R122). -/
def oscRead (sine : List Num) (phase : Num) : Num :=
  let idx := phase * (sine.length : Num)
  let i0 := ⌊idx⌋
  let frac := idx - (i0 : Num)
  let y0 := tableAt sine i0
  let y1 := tableAt sine (i0 + 1)
  y0 + frac * (y1 - y0)

end Sys2Proof.Machine
end

