-- ==== Sys2Proof/Machine/Operator.lean ====
section
/-! DEFINITION. The Operator's micro-operations (43_operator.md R160 to R171). -/

namespace Sys2Proof.Machine

/-- `Operator.note_on` (43_operator.md R163). -/
def Operator.noteOn (x : Ctx) (freqHz : Num) (o : Operator) : Operator :=
  { o with clock := o.clock.restart.setFreq freqHz x.sr, lastOutput := 0, env := Env.noteOn x.params x.sr }

/-- `Operator.note_off`: the operator's own envelope only (43_operator.md R164). -/
def Operator.noteOff (x : Ctx) (o : Operator) : Operator := { o with env := o.env.noteOff x.params x.sr }

/-- The one-shot offset of sample `i`: the external input, plus the self-feedback where it is enabled
(43_operator.md R165). -/
def Operator.offsetAt (selfMod : Bool) (index : Num) (i : Nat) (o : Operator) : Num :=
  if selfMod then o.pm.read (0, i) + o.lastOutput * index else o.pm.read (0, i)

/-- The clock while the offset of sample `i` is folded in (43_operator.md R165). -/
def Operator.bentClock (selfMod : Bool) (index : Num) (i : Nat) (o : Operator) : Clock :=
  o.clock.addPhaseOffset (o.offsetAt selfMod index i) true

/-- The value of sample `i` (43_operator.md R165). -/
def Operator.sampleAt (x : Ctx) (selfMod : Bool) (index : Num) (i : Nat) (o : Operator) : Num :=
  oscRead x.hw.sine (o.bentClock selfMod index i).mcounter

/-- A mono value fanned to all `C` channels of sample `i` (43_operator.md R166). -/
def fanOut (ch i : Nat) (v : Num) (m : Space) : Space := forUpTo ch (fun c m => m.write (c, i) v) m

/-- One sample of `Operator.render`: add, read, remove, fan out, keep, advance (43_operator.md R165). -/
def Operator.renderSample (x : Ctx) (selfMod : Bool) (index : Num) (i : Nat) (o : Operator) : Operator :=
  let v := o.sampleAt x selfMod index i
  { o with
    clock := ((o.bentClock selfMod index i).removePhaseOffset).advanceWrap 1
    out := fanOut x.ch i v o.out
    lastOutput := v }

/-- The samples of `Operator.render`, before the clear of its input. -/
def Operator.renderSamples (x : Ctx) (n : Nat) (selfMod : Bool) (index : Num) (o : Operator) : Operator :=
  forUpTo n (fun i o => o.renderSample x selfMod index i) o

/-- The whole input buffer cleared (43_operator.md R165). -/
def clearPm (blk : Nat) (m : Space) : Space := forUpTo blk (fun i m => m.write (0, i) 0) m

/-- `Operator.render` (43_operator.md R165). -/
def Operator.render (x : Ctx) (n : Nat) (selfMod : Bool) (index : Num) (o : Operator) : Operator :=
  let o' := o.renderSamples x n selfMod index
  { o' with pm := clearPm x.blk o'.pm }

/-- The average of another operator's output over the channels at sample `i` (43_operator.md R167). -/
def channelMean (ch i : Nat) (m : Space) : Num :=
  forUpTo ch (fun c s => s + m.read (c, i)) 0 / (ch : Num)

/-- `Operator.add_pm_source` (43_operator.md R167). -/
def Operator.addPmSource (x : Ctx) (o other : Operator) : Operator :=
  { o with
    pm := forUpTo x.blk (fun i m => m.write (0, i) (m.read (0, i) + channelMean x.ch i other.out)) o.pm }

end Sys2Proof.Machine
end

