-- ==== Sys2Proof/Machine/Voice.lean ====
section
/-! DEFINITION. The Voice and its stealing state machine (44_voice.md R180 to R193). -/

namespace Sys2Proof.Machine

/-- `op_freq(V, k)` (44_voice.md R182). -/
def opFreq (x : Ctx) (note : BitVec 7) (k : Nat) : Num :=
  x.hw.noteFreq.getD note.toNat 0 * x.params.read (.ratio k)

/-- `start_note` (44_voice.md R184). -/
def Voice.startNote (x : Ctx) (ev : Event) (v : Voice) : Voice :=
  { v with
    currentEvent := some ev
    voiceId := ev.voiceId
    channel := ev.channel
    note := ev.note
    ops := v.ops.mapIdx (fun k o => o.noteOn x (opFreq x ev.note k))
    masterEnv := Env.noteOn x.params x.sr }

/-- The first branch of `Voice.note_on`: the note waits, the master envelope is shut down (44_voice.md R183). -/
def Voice.steal (x : Ctx) (ev : Event) (v : Voice) : Voice :=
  { v with pendingEvent := some ev, isStealing := true, masterEnv := v.masterEnv.shutdown x.hw x.sr }

/-- `Voice.note_on` (44_voice.md R183). -/
def Voice.noteOn (x : Ctx) (ev : Event) (v : Voice) : Voice :=
  if v.isPlaying then v.steal x ev else v.startNote x ev

/-- Two voice ids, both present and equal (44_voice.md R185). -/
def sameVoiceId : Option Reg32 → Option Reg32 → Bool
  | some a, some b => a == b
  | _, _ => false

/-- `matches(e, x)` (44_voice.md R185). -/
def matchesEvent (e : Event) : Option Event → Bool
  | none => false
  | some s => sameVoiceId e.voiceId s.voiceId || (e.channel == s.channel && e.note == s.note)

/-- Every operator's `note_off`, the "operator/clock note-off bookkeeping" (44_voice.md R186, R190). -/
def Voice.releaseOps (x : Ctx) (v : Voice) : Voice := { v with ops := v.ops.map (fun o => o.noteOff x) }

/-- The sounding note released (44_voice.md R186). -/
def Voice.releaseNote (x : Ctx) (v : Voice) : Voice :=
  { v.releaseOps x with masterEnv := v.masterEnv.noteOff x.params x.sr, currentEvent := none }

/-- `Voice.note_off` (44_voice.md R186). -/
def Voice.noteOff (x : Ctx) (e : Event) (v : Voice) : Voice :=
  if v.isStealing then
    if matchesEvent e v.pendingEvent then { v with pendingEvent := none } else v
  else if matchesEvent e v.currentEvent then v.releaseNote x
  else v

/-- Step 1 of `Voice.render`: every operator's frequency from the current ratios (44_voice.md R189). -/
def Voice.refresh (x : Ctx) (v : Voice) : Voice :=
  { v with ops := v.ops.mapIdx (fun k o => { o with clock := o.clock.setFreq (opFreq x v.note k) x.sr }) }

/-- An operator with what the one before it in the chain adds to its input (44_voice.md R189). -/
def Operator.fedBy (x : Ctx) : Option Operator → Operator → Operator
  | none, o => o
  | some p, o => o.addPmSource x p

/-- Step 3 of `Voice.render`: the operators from number `k` on rendered in chain order, each after the one before it
(`prev`) has been added to its input (44_voice.md R189). -/
def renderChain (x : Ctx) (n : Nat) (prev : Option Operator) (k : Nat) : List Operator → List Operator
  | [] => []
  | o :: rest =>
    let o' := (o.fedBy x prev).render x n (x.hw.selfMod.getD k false) (x.params.read (.modIndex k))
    o' :: renderChain x n (some o') (k + 1) rest

/-- The weighted sum of the operators' outputs at one element, from operator `k` on, added to `s` in ascending order
(44_voice.md R189). -/
def mixFrom (p : Params) (i : Idx) (k : Nat) (s : Num) : List Operator → Num
  | [] => s
  | o :: rest => mixFrom p i (k + 1) (s + p.read (.mix k) * o.out.read i) rest

/-- Step 4 of `Voice.render`: the sum scaled by the block's envelope value, at every channel and sample
(44_voice.md R189). -/
def mixBlock (x : Ctx) (n : Nat) (e : Num) (ops : List Operator) (m : Space) : Space :=
  forUpTo x.ch (fun c m => forUpTo n (fun i m => m.write (c, i) (mixFrom x.params (c, i) 0 0 ops * e)) m) m

/-- What the steal check leaves before the waiting note, if there is one, is started (44_voice.md R190). -/
def Voice.finalize (x : Ctx) (v : Voice) : Voice :=
  { v.releaseOps x with currentEvent := v.pendingEvent, pendingEvent := none, isStealing := false }

/-- The steal check (44_voice.md R190). -/
def Voice.stealCheck (x : Ctx) (v : Voice) : Voice :=
  if v.isStealing && !v.isPlaying then
    match v.pendingEvent with
    | none => v.finalize x
    | some ev => (v.finalize x).noteOn x ev
  else v

/-- Steps 1 to 4 of `Voice.render` (44_voice.md R189). -/
def Voice.renderBlock (x : Ctx) (n : Nat) (v : Voice) : Voice :=
  let ops := renderChain x n none 0 (v.refresh x).ops
  { v with
    ops := ops
    masterEnv := v.masterEnv.advances x.params x.sr n
    vout := mixBlock x n (v.masterEnv.renderValue x.params x.sr n) ops v.vout }

/-- `Voice.render` (44_voice.md R189). -/
def Voice.render (x : Ctx) (n : Nat) (v : Voice) : Voice := (v.renderBlock x n).stealCheck x

end Sys2Proof.Machine
end

