-- ==== Sys2Proof/Machine/VoicePool.lean ====
section
/-! DEFINITION. The voice pool: allocation, stealing, resize and accumulation (45_voice_pool.md R210 to R224). -/

namespace Sys2Proof.Machine

/-- Oldest-voice selection, ties toward the highest index (45_voice_pool.md R211). -/
def oldest (age : List Nat) : Nat :=
  forUpTo (age.length - 1) (fun j t => if age.getD t 0 ≤ age.getD (j + 1) 0 then j + 1 else t) 0

/-- Is the physical voice playing? -/
def playingAt (voices : List Voice) (v : Nat) : Bool := (voices[v]?).any Voice.isPlaying

/-- The target of `VoicePool.note_on`: the first active voice that is not playing, else the oldest
(45_voice_pool.md R212). -/
def noteOnTarget (voices : List Voice) (pool : Pool) : Nat :=
  match pool.active.findIdx? (fun v => !playingAt voices v) with
  | some i => i
  | none => oldest pool.age

/-- The target's age zeroed, where the hardware does so (45_voice_pool.md R213). -/
def ageRestarted (hw : CfgHW) (t : Nat) (age : List Nat) : List Nat :=
  if hw.ageResetOnNoteOn then age.set t 0 else age

/-- The age of every playing active voice incremented (45_voice_pool.md R212). -/
def agesGrown (voices : List Voice) (active age : List Nat) : List Nat :=
  age.mapIdx (fun i a => if (active[i]?).any (playingAt voices) then a + 1 else a)

/-- The voice at an active index changed; no voice where the index names none, which no rule forms (log 9). -/
def modifyActive (active : List Nat) (t : Nat) (f : Voice → Voice) (voices : List Voice) : List Voice :=
  match active[t]? with
  | none => voices
  | some v => voices.modify v f

/-- `VoicePool.note_on` on a pool that is not empty; `LAST_TARGET` and the response are the target
(45_voice_pool.md R212). -/
def State.poolNoteOn (s : State) (ev : Event) : State :=
  let t := noteOnTarget s.voices s.pool
  let voices := modifyActive s.pool.active t (fun v => v.noteOn s.ctx ev) s.voices
  let age := agesGrown voices s.pool.active (ageRestarted s.hw t s.pool.age)
  { s with voices := voices, pool := { s.pool with age := age }, lastTarget := word32 t }.respond (word32 t)

/-- `VoicePool.note_on` (45_voice_pool.md R212, R214). -/
def State.noteOnEvent (s : State) (ev : Event) : State :=
  if s.pool.active = [] then s.raise .poolEmpty else s.poolNoteOn ev

/-- The active voices changed one after the other, in active-index order. -/
def forActive (active : List Nat) (f : Voice → Voice) (voices : List Voice) : List Voice :=
  active.foldl (fun vs v => vs.modify v f) voices

/-- `VoicePool.note_off`: broadcast to every active voice (45_voice_pool.md R215). -/
def State.noteOffEvent (s : State) (e : Event) : State :=
  { s with voices := forActive s.pool.active (fun v => v.noteOff s.ctx e) s.voices }

/-- One turn of the grow loop (45_voice_pool.md R216). -/
def Pool.growOne (p : Pool) : Pool :=
  match p.inactive with
  | [] => p
  | v :: rest => { active := p.active ++ [v], age := p.age ++ [0], inactive := rest }

/-- One turn of the shrink loop: the oldest active voice is parked last (45_voice_pool.md R216). -/
def Pool.shrinkOne (p : Pool) : Pool :=
  let t := oldest p.age
  match p.active[t]? with
  | none => p
  | some v => { active := p.active.eraseIdx t, age := p.age.eraseIdx t, inactive := p.inactive ++ [v] }

/-- `VoicePool.update_num_voices(n)` for a legal `n` (45_voice_pool.md R216): at most one of the loops turns. -/
def Pool.resize (n : Nat) (p : Pool) : Pool :=
  let grown := forUpTo (n - p.active.length) (fun _ p => p.growOne) p
  forUpTo (p.active.length - n) (fun _ p => p.shrinkOne) grown

/-- `Accumulate(c, i, v)` (20_memory.md R65). -/
def accumulate (c i : Nat) (v : Num) (out : Space) : Space := out.write (c, i) (out.read (c, i) + v)

/-- One voice's block added into `OUT` (45_voice_pool.md R222). -/
def accumulateVoice (ch n start : Nat) (vout out : Space) : Space :=
  forUpTo ch (fun c out => forUpTo n (fun j out => accumulate c (start + j) (vout.read (c, j)) out) out) out

/-- Phase 2 of `VoicePool.render`: every active voice's block, in active-index order (45_voice_pool.md R222). -/
def accumulateActive (ch n start : Nat) (voices : List Voice) (active : List Nat) (out : Space) : Space :=
  active.foldl (fun out v => accumulateVoice ch n start ((voices[v]?).elim [] Voice.vout) out) out

/-- `VoicePool.render`: an empty block does nothing at all (45_voice_pool.md R222). -/
def State.poolRender (s : State) (blockStart blockEnd : Nat) : State :=
  let n := blockEnd - blockStart
  if n = 0 then s
  else
    let voices := forActive s.pool.active (fun v => v.render s.ctx n) s.voices
    { s with voices := voices, out := accumulateActive s.ctx.ch n blockStart voices s.pool.active s.out }

end Sys2Proof.Machine
end

