-- ==== Sys2Proof/Machine/NoteCommands.lean ====
section
/-! DEFINITION. The meanings of NOTE_ON and NOTE_OFF (46_commands.md R250, R252). -/

namespace Sys2Proof.Machine

/-- The legal velocities (46_commands.md R250). -/
def velocityLegal (x : Num) : Bool := decide (0 ≤ x) && decide (x ≤ 1)

/-- The event of a NOTE_ON (46_commands.md R250). -/
def onEvent (vp : Bool) (note : BitVec 7) (channel : BitVec 4) (vid vel : BitVec 32) : Event :=
  { note := note, channel := channel, voiceId := voiceIdOf vp vid, velocity := q16 vel }

/-- The event of a NOTE_OFF: velocity 0 (46_commands.md R252). -/
def offEvent (vp : Bool) (note : BitVec 7) (channel : BitVec 4) (vid : BitVec 32) : Event :=
  { note := note, channel := channel, voiceId := voiceIdOf vp vid, velocity := 0 }

/-- NOTE_ON (46_commands.md R250). -/
def execNoteOn (vp : Bool) (note : BitVec 7) (channel : BitVec 4) (vid vel : BitVec 32) (s : State) :
    Host.Outcome State Fault Refusal :=
  .next (s.unlessHalted (s.ifInitialised
    (if velocityLegal (q16 vel) then s.noteOnEvent (onEvent vp note channel vid vel)
     else s.raise .paramRange)))

/-- NOTE_OFF (46_commands.md R252). -/
def execNoteOff (vp : Bool) (note : BitVec 7) (channel : BitVec 4) (vid : BitVec 32) (s : State) :
    Host.Outcome State Fault Refusal :=
  .next (s.unlessHalted (s.ifInitialised ((s.noteOffEvent (offEvent vp note channel vid)).respond 0)))

end Sys2Proof.Machine
end

