-- ==== Sys2Proof/Machine/RenderCommand.lean ====
section
/-! DEFINITION. The meaning of RENDER (46_commands.md R254). -/

namespace Sys2Proof.Machine

/-- RENDER's operand check (46_commands.md R254). -/
def blockLegal (s : State) (blockStart blockEnd : BitVec 32) : Bool :=
  decide (blockStart.toNat ≤ blockEnd.toNat) && decide (blockEnd.toNat ≤ s.cfgMaxblk.toNat)

/-- RENDER (46_commands.md R254). -/
def execRender (blockStart blockEnd : BitVec 32) (s : State) : Host.Outcome State Fault Refusal :=
  .next (s.unlessHalted (s.ifInitialised
    (if blockLegal s blockStart blockEnd then (s.poolRender blockStart.toNat blockEnd.toNat).respond 0
     else s.raise .blockRange)))

end Sys2Proof.Machine
end

