-- ==== Sys2Proof/Machine/SystemCommands.lean ====
section
/-! DEFINITION. The meanings of NOP, INIT, SETPOLY, SETP and RDSR (46_commands.md R242 to R248). -/

namespace Sys2Proof.Machine

/-- NOP, accepted while halted too (46_commands.md R242, 60_exceptions.md R274). -/
def execNop (s : State) : Host.Outcome State Fault Refusal := .next (s.respond 0)

/-- INIT's operand check (46_commands.md R243). -/
def initLegal (hw : CfgHW) (ch : BitVec 8) (poly : BitVec 16) (sr maxblk : BitVec 32) : Bool :=
  !(sr == 0 || ch == 0 || maxblk == 0 || decide (hw.maxblkLimit < maxblk.toNat) || poly == 0 ||
    decide (hw.maxVoices < poly.toNat) || decide (hw.shutdownMs * (sr.toNat : Num) < 1000))

/-- All state except `FAULT`, `P` and `OUT` at its reset value, then the configuration and the polyphony
(46_commands.md R243, 10_state.md R40). -/
def State.initialised (s : State) (ch : BitVec 8) (poly : BitVec 16) (sr maxblk : BitVec 32) : State :=
  { s with
    voices := List.replicate s.hw.maxVoices (Voice.fresh s.hw.nOps)
    pool := (Pool.parked s.hw.maxVoices).resize poly.toNat
    lastTarget := 0xFFFFFFFF#32
    cfgSr := sr
    cfgCh := ch
    cfgMaxblk := maxblk
    initd := true }

/-- INIT (46_commands.md R243). -/
def execInit (ch : BitVec 8) (poly : BitVec 16) (sr maxblk : BitVec 32) (s : State) :
    Host.Outcome State Fault Refusal :=
  .next (s.unlessHalted
    (if initLegal s.hw ch poly sr maxblk then (s.initialised ch poly sr maxblk).respond 0
     else s.raise .invalidConfig))

/-- SETPOLY's operand check (45_voice_pool.md R216, R217). -/
def polyLegal (hw : CfgHW) (n : BitVec 16) : Bool := n != 0 && decide (n.toNat ≤ hw.maxVoices)

/-- SETPOLY (46_commands.md R245). -/
def execSetpoly (n : BitVec 16) (s : State) : Host.Outcome State Fault Refusal :=
  .next (s.unlessHalted (s.ifInitialised
    (if polyLegal s.hw n then { s with pool := s.pool.resize n.toNat }.respond 0
     else s.raise .invalidPolyphony)))

/-- SETP: the register's existence before the value's range (46_commands.md R246, 60_exceptions.md R276). -/
def execSetp (r : BitVec 8) (val : BitVec 32) (s : State) : Host.Outcome State Fault Refusal :=
  .next (s.unlessHalted
    (match regOf s.hw.nOps r with
     | none => s.raise .illegalCommand
     | some reg =>
       if reg.legal (q16 val) then { s with params := s.params.write reg (q16 val) }.respond 0
       else s.raise .paramRange))

/-- RDSR: an entry that exists is answered, halted or not; another one raises, or is dropped while halted
(46_commands.md R248, 60_exceptions.md R274). -/
def execRdsr (bank : BitVec 8) (idx : BitVec 16) (s : State) : Host.Outcome State Fault Refusal :=
  .next (match s.statusEntry bank idx with
    | some v => s.respond v
    | none => s.unlessHalted (s.raise .illegalCommand))

end Sys2Proof.Machine
end

