-- ==== Sys2Proof/Machine/Dispatch.lean ====
section
/-! DEFINITION. The one dispatch from a command to its meaning. -/

namespace Sys2Proof.Machine

def exec (i : Instr) (s : State) : Host.Outcome State Fault Refusal :=
  match i with
  | .nop => Sys2Proof.Machine.execNop s
  | .init ch poly sr maxblk => Sys2Proof.Machine.execInit ch poly sr maxblk s
  | .setpoly n => Sys2Proof.Machine.execSetpoly n s
  | .setp r val => Sys2Proof.Machine.execSetp r val s
  | .rdsr bank idx => Sys2Proof.Machine.execRdsr bank idx s
  | .noteOn vp note channel vid vel => Sys2Proof.Machine.execNoteOn vp note channel vid vel s
  | .noteOff vp note channel vid => Sys2Proof.Machine.execNoteOff vp note channel vid s
  | .render blockStart blockEnd => Sys2Proof.Machine.execRender blockStart blockEnd s

end Sys2Proof.Machine
end

