-- ==== Sys2Proof/Machine/Inputs.lean ====
section
/-! DEFINITION. Carrying out one input of the host: a command word, a write of `OUT`, reset (log 3). -/

namespace Sys2Proof.Machine

/-- `exec(W)` of 46_commands.md R240: a word that decodes runs its command, another one is illegal. -/
def runWord (w : Word) (s : State) : Host.Outcome State Fault Refusal :=
  match decode w with
  | .ok i => exec i s
  | .error _ => .next s.illegalWord

/-- One input of the host carried out on the state that no longer holds it. -/
def runInput (x : HostInput) (s : State) : Host.Outcome State Fault Refusal :=
  match x with
  | .command w => runWord w s
  | .writeOut c i v => hostWriteOut c i v s
  | .reset => .next s.hardReset

end Sys2Proof.Machine
end

