-- ==== Sys2Proof/Machine/Step.lean ====
section
/-! DEFINITION. One step: the next input of the host is taken and carried out; with none presented FMCORE holds its
state (70_reset_and_hazards.md R306). -/

namespace Sys2Proof.Machine

/-- One step of the machine (log 3). -/
def step (s : State) : Host.Outcome State Fault Refusal :=
  match takeInput s with
  | none => .next s
  | some (x, s') => runInput x s'

/-- `s` with one command word presented on the command port, before anything else the host has presented (log 3). -/
def State.withFetchWord (s : State) (nbits w : Nat) : State :=
  { s with pending := .command (tableWord nbits w) :: s.pending }

end Sys2Proof.Machine
end

