-- ==== Sys2Proof/Safety.lean ====
section
/-! DEFINITION. What claims are stated in: a run that never stops, and the invariants the spec gives the state
between commands. -/

namespace Sys2Proof.Machine

/-! ### Runs -/

/-- The states that a run from `s` comes to. -/
inductive Reaches (s : State) : State → Prop where
  | here : Reaches s s
  | further {t u : State} : Reaches s t → step t = .next u → Reaches s u

/-- An input FMCORE can take without a stop: a command word, reset, or a write of an `OUT` element that exists
(20_memory.md R60, R66). -/
def HostInput.Proper (hw : CfgHW) : HostInput → Prop
  | .command _ => True
  | .writeOut c i _ => outExists hw c i = true
  | .reset => True

/-! ### Shape: the lists have the sizes of `CFG_HW` (10_state.md R20, R21, R33, R34) -/

/-- The parameter file has `4 + 3*N_OPS` registers (10_state.md R21). -/
def Params.Shaped (nOps : Nat) (p : Params) : Prop :=
  p.ratio.length = nOps ∧ p.modIndex.length = nOps ∧ p.mix.length = nOps

/-- `MAX_VOICES` voices of `N_OPS` operators each, and the parameter file of that size (00_scope.md R10). -/
def State.Shaped (s : State) : Prop :=
  s.params.Shaped s.hw.nOps ∧ s.voices.length = s.hw.maxVoices ∧ ∀ v ∈ s.voices, v.ops.length = s.hw.nOps

/-! ### The pool (10_state.md R37, 45_voice_pool.md R211, R224) -/

/-- `g` goes before `a` when voices are evicted: a greater age, of equal ages a higher active index. Each is
((voice, age), active index) (45_voice_pool.md R211). -/
def evictedBefore (g a : (Nat × Nat) × Nat) : Prop := a.1.2 < g.1.2 ∨ (a.1.2 = g.1.2 ∧ a.2 < g.2)

/-- One age per active voice; `active` and `inactive` hold every physical voice exactly once. -/
def Pool.Consistent (maxVoices : Nat) (p : Pool) : Prop :=
  p.age.length = p.active.length ∧ (p.active ++ p.inactive).Perm (List.range maxVoices)

/-- The pool invariant, with at least one active voice once an INIT has succeeded. -/
def State.PoolOk (s : State) : Prop :=
  s.pool.Consistent s.hw.maxVoices ∧ (s.initd = true → 1 ≤ s.pool.active.length)

/-! ### The run-time configuration (10_state.md R24, 46_commands.md R243) -/

/-- The legal values of the configuration once `INITD = 1`. -/
def State.ConfigOk (s : State) : Prop :=
  s.initd = true →
    1 ≤ s.cfgSr.toNat ∧ 1 ≤ s.cfgCh.toNat ∧ 1 ≤ s.cfgMaxblk.toNat ∧ s.cfgMaxblk.toNat ≤ s.hw.maxblkLimit ∧
      1000 ≤ s.hw.shutdownMs * (s.cfgSr.toNat : Num)

/-! ### The arrays (20_memory.md R60) -/

/-- Canonical, and every listed element one that exists. -/
def Space.Ok (hw : CfgHW) (m : Space) : Prop :=
  m.wf = true ∧ ∀ cell ∈ m, outExists hw cell.1.1 cell.1.2 = true

/-- Every array of the machine is canonical and within its physical extent. -/
def State.ArraysOk (s : State) : Prop :=
  s.out.Ok s.hw ∧ ∀ v ∈ s.voices, v.vout.Ok s.hw ∧ ∀ o ∈ v.ops, o.pm.Ok s.hw ∧ o.out.Ok s.hw

/-! ### What is settled between commands (10_state.md R30, R38, 40_clock.md R106, R109, R110) -/

/-- Phase in `[0, 1)`, no one-shot offset folded in, `freq_offset` 0. -/
def Clock.Settled (c : Clock) : Prop :=
  0 ≤ c.mcounter ∧ c.mcounter < 1 ∧ c.phaseOffset = 0 ∧ c.freqOffset = 0

/-- Every clock settled and every phase-modulation input all zero. -/
def State.OperatorsSettled (s : State) : Prop :=
  ∀ v ∈ s.voices, ∀ o ∈ v.ops, o.clock.Settled ∧ o.pm = []

/-- The value the oscillator gives at sample `i` of a block to an operator whose phase is `m` as the block starts and
moves by `inc` a sample, with the offset `off` folded in for that sample alone: forwards for a phase that runs
forwards, backwards for one that runs backwards, not at all for one that stands (40_clock.md R104, R105, 43_operator.md
R165). -/
def sampleInClosedForm (sine : List Num) (m inc off : Num) (i : Nat) : Num :=
  oscRead sine (m + (i : Num) * inc + (if 0 < inc then off else if inc < 0 then - off else 0))

/-! ### Parameters (10_state.md R21) -/

/-- Every register holds a legal Q16.16 value (a register that does not exist reads 0). -/
def Params.Legal (p : Params) : Prop :=
  ∀ r : Reg, (∃ pat : BitVec 32, p.read r = q16 pat) ∧ r.legal (p.read r) = true

/-! ### Envelopes (10_state.md R31, 42_envelope.md R145) -/

/-- The level and step bounds of each state: the level is in `[0, 1]` but for a fresh Attack, or a Shutdown from one,
where it is below 0 and the next step brings it to 0 or keeps it there. -/
def Env.Bounded (e : Env) : Prop :=
  e.outputValue ≤ 1 ∧
    match e.state with
    | .off => e.outputValue = 0 ∧ e.stepIncrease = 0
    | .attack => 0 ≤ e.stepped ∧ 0 ≤ e.stepIncrease
    | .decay => 0 ≤ e.outputValue ∧ e.stepIncrease ≤ 0
    | .sustain => 0 ≤ e.outputValue ∧ e.stepIncrease = 0
    | .release => 0 ≤ e.outputValue ∧ e.stepIncrease ≤ 0
    | .shutdown => (0 < e.outputValue → e.stepIncrease ≤ 0) ∧ (e.outputValue ≤ 0 → e.stepped ≤ 0)

/-- Every master envelope and every operator's own envelope is bounded. -/
def State.EnvelopesBounded (s : State) : Prop :=
  ∀ v ∈ s.voices, v.masterEnv.Bounded ∧ ∀ o ∈ v.ops, o.env.Bounded

/-! ### The stealing state machine (44_voice.md R193) -/

/-- A voice is stealing exactly while its master envelope is in Shutdown; a note waits only while stealing; a voice
that is free or in its release tail has no current event. -/
def Voice.ControlOk (v : Voice) : Prop :=
  (v.isStealing = true ↔ v.masterEnv.state = .shutdown) ∧
    (v.isStealing = false → v.pendingEvent = none) ∧
      (v.masterEnv.state = .off ∨ v.masterEnv.state = .release → v.currentEvent = none)

/-- Every voice is in a control state of the table of 44_voice.md R193. -/
def State.ControlOk (s : State) : Prop := ∀ v ∈ s.voices, v.ControlOk

/-! ### Faults (60_exceptions.md R274) -/

/-- At most one bit of `FAULT`, and only one that a code names. -/
def State.FaultOk (s : State) : Prop := s.fault = 0 ∨ ∃ code : FaultCode, s.fault = code.mask

/-! ### What velocity can reach (10_state.md R36) -/

/-- An event without its velocity. -/
def Event.mute (e : Event) : Event := { e with velocity := 0 }

/-- A voice whose stored events have no velocity. -/
def Voice.mute (v : Voice) : Voice :=
  { v with currentEvent := v.currentEvent.map Event.mute, pendingEvent := v.pendingEvent.map Event.mute }

/-- A state whose stored events have no velocity: everything a rule can read or a host can see. -/
def State.mute (s : State) : State := { s with voices := s.voices.map Voice.mute }

end Sys2Proof.Machine
end

