-- ==== Sys2Proof/Certificates/Slice0/Obligations.lean ====
section
/-! DEFINITION. The statements for the provers. -/

open Sys2Proof Sys2Proof.Machine

/-! ### Encoding -/

/-- Every command with a word is read back from its word, with every operand (30_encoding.md R81 to R87). -/
def Obligations.DecodeOfEncode : Prop :=
  ∀ i : Instr, i.wellFormed = true → decode (encode i) = .ok i

/-- Every word that decodes is the one word of its command: no bit of it is dropped (30_encoding.md R87, R88). -/
def Obligations.EncodeOfDecode : Prop :=
  ∀ (w : Word) (i : Instr), decode w = .ok i → i.wellFormed = true ∧ encode i = w

/-- At most one row of the opcode table matches a word (30_encoding.md R87). -/
def Obligations.AtMostOneRowMatches : Prop :=
  ∀ w : Word, ∀ r ∈ opcodeTable, ∀ r' ∈ opcodeTable, r.hits w = true → r'.hits w = true → r = r'

/-- A word is illegal exactly when no row matches it, or it is a NOTE_ON or NOTE_OFF with `vp = 0` and `a` not 0
(30_encoding.md R87). -/
def Obligations.IllegalWordsExactly : Prop :=
  ∀ w : Word, (∃ e, decode w = .error e) ↔
    (∀ r ∈ opcodeTable, r.hits w = false) ∨
      ((rowNoteOn.hits w = true ∨ rowNoteOff.hits w = true) ∧ fieldVp w = false ∧ fieldA w ≠ 0)

/-- All ten worked encodings of 30_encoding.md R95 decode to their commands. The spec marks R95 as its own inference. -/
def Obligations.WorkedEncodingsDecode : Prop :=
  decode 0x01010001000006E00000000400000000#128 = .ok (.init 1 1 1760 4) ∧
    decode 0x02000002000000000000000000000000#128 = .ok (.setpoly 2) ∧
    decode 0x03030000000100000000000000000000#128 = .ok (.setp 3 0x00010000) ∧
    decode 0x03000000000A00000000000000000000#128 = .ok (.setp 0x00 0x000A0000) ∧
    decode 0x03100000000080000000000000000000#128 = .ok (.setp 0x10 0x00008000) ∧
    decode 0x04010000000000000000000000000000#128 = .ok (.rdsr 1 0) ∧
    decode 0x10450000000000000001000000000000#128 = .ok (.noteOn false 69 0 0 0x00010000) ∧
    decode 0x10BC0003FFFFFFFE0000800000000000#128 = .ok (.noteOn true 60 3 0xFFFFFFFE 0x00008000) ∧
    decode 0x11450000000000000000000000000000#128 = .ok (.noteOff false 69 0 0) ∧
    decode 0x20000000000000000000000100000000#128 = .ok (.render 0 1)

/-- A Q16.16 pattern is its signed integer over 65536, in [-32768, 32768), and is found again from its value
(30_encoding.md R84, 10_state.md R27 bank 4). -/
def Obligations.Q16ValueAndPattern : Prop :=
  ∀ p : BitVec 32, q16 p * 65536 = ((p.toInt : Int) : Rat) ∧ -32768 ≤ q16 p ∧ q16 p < 32768 ∧ patternOf (q16 p) = p

/-- The parameter register indices (10_state.md R21, 30_encoding.md R90). -/
def Obligations.RegisterIndexMap : Prop :=
  ∀ (n : Nat) (r : BitVec 8) (reg : Reg), n ≤ 16 →
    (regOf n r = some reg ↔
      (r.toNat = 0x00 ∧ reg = .attackMs) ∨ (r.toNat = 0x01 ∧ reg = .decayMs) ∨
      (r.toNat = 0x02 ∧ reg = .releaseMs) ∨ (r.toNat = 0x03 ∧ reg = .sustain) ∨
      (∃ k, k < n ∧ r.toNat = 0x10 + k ∧ reg = .ratio k) ∨
      (∃ k, k < n ∧ r.toNat = 0x20 + k ∧ reg = .modIndex k) ∨
      (∃ k, k < n ∧ r.toNat = 0x30 + k ∧ reg = .mix k))

/-! ### The step, the halted state and faults -/

/-- A step takes the command word presented first and runs the command it decodes to (46_commands.md R240; how words
are presented is the model's choice, log 3). -/
def Obligations.StepRunsDecodedCommand : Prop :=
  ∀ (s : State) (w : Word) (rest : List HostInput) (i : Instr),
    s.pending = .command w :: rest → decode w = .ok i → step s = exec i { s with pending := rest }

/-- What a step does that runs no command: nothing is presented and FMCORE holds its state; an illegal word raises
`IllegalCommand`; reset gives every piece of state its reset value but leaves `OUT` alone; a host write changes one
element of `OUT` (70_reset_and_hazards.md R290, R306, 60_exceptions.md R271, R272, 20_memory.md R66; log 3). That no
response is held after reset is the model's choice (log 4). -/
def Obligations.StepWithoutCommand : Prop :=
  ∀ (s : State) (rest : List HostInput),
    (s.pending = [] → step s = .next s) ∧
    (∀ w e, s.pending = .command w :: rest → decode w = .error e → s.fault = 0 →
      step s = .next { s with pending := rest, fault := 1, response := some ⟨true, 0⟩ }) ∧
    (s.pending = .reset :: rest →
      ∃ t, step s = .next t ∧ t.hw = s.hw ∧ t.out = s.out ∧ t.pending = rest ∧ t.response = none ∧
        (∀ r, t.params.read r = 0) ∧ t.initd = false ∧ t.cfgSr = 0 ∧ t.cfgCh = 0 ∧ t.cfgMaxblk = 0 ∧
        t.fault = 0 ∧ t.lastTarget = 0xFFFFFFFF#32 ∧ t.pool.active = [] ∧ t.pool.age = [] ∧
        t.pool.inactive = List.range s.hw.maxVoices ∧
        t.voices = List.replicate s.hw.maxVoices
          { ops := List.replicate s.hw.nOps
              { clock := ⟨0, 0, 0, 0⟩, env := ⟨.off, 0, 0⟩, lastOutput := 0, pm := [], out := [] },
            masterEnv := ⟨.off, 0, 0⟩, voiceId := none, channel := 0, note := 0, isStealing := false,
            currentEvent := none, pendingEvent := none, vout := [] }) ∧
    (∀ c i v, s.pending = .writeOut c i v :: rest → c < 255 → i < s.hw.maxblkLimit → s.out.wf = true →
      ∃ out, step s = .next { s with pending := rest, out := out } ∧ out.read (c, i) = v ∧
        ∀ k, k ≠ (c, i) → out.read k = s.out.read k)

/-- While `FAULT` is not 0 a command word changes nothing but the response: NOP answers (0, 0), RDSR of an entry that
exists answers its value, every other word answers (1, 31) (60_exceptions.md R274). -/
def Obligations.HaltedAnswersOnlyNopAndRdsr : Prop :=
  ∀ (s : State) (w : Word) (rest : List HostInput), s.fault ≠ 0 → s.pending = .command w :: rest →
    ∃ r : Response, step s = .next { s with pending := rest, response := some r } ∧
      (decode w = .ok .nop → r = ⟨false, 0⟩) ∧
      (∀ bank idx v, decode w = .ok (.rdsr bank idx) → s.statusEntry bank idx = some v → r = ⟨false, v⟩) ∧
      (∀ bank idx, decode w = .ok (.rdsr bank idx) → s.statusEntry bank idx = none → r = ⟨true, 31⟩) ∧
      ((∀ i, decode w = .ok i → i ≠ .nop ∧ ∀ bank idx, i ≠ .rdsr bank idx) → r = ⟨true, 31⟩)

/-- `FAULT` holds at most one bit after every step if it did before, and no step but reset clears it (60_exceptions.md
R274). That at most one bit is set the spec marks as its own inference (R274). -/
def Obligations.FaultOneBitUntilReset : Prop :=
  ∀ s t : State, step s = .next t →
    (s.FaultOk → t.FaultOk) ∧
    ((∀ rest, s.pending ≠ .reset :: rest) → s.fault ≠ 0 → t.fault = s.fault) ∧
    (∀ rest, s.pending = .reset :: rest → t.fault = 0)

/-- A command that answers with `err = 1` has changed nothing but one bit of `FAULT` and the response
(46_commands.md R241, 60_exceptions.md R272). -/
def Obligations.FaultingCommandChangesNothing : Prop :=
  ∀ (i : Instr) (s t : State) (value : Reg32), s.fault = 0 → exec i s = .next t →
    t.response = some ⟨true, value⟩ →
      ∃ code : FaultCode, t = { s with fault := 1#32 <<< code.bit, response := some ⟨true, value⟩ } ∧
        value = BitVec.ofNat 32 code.bit ∧ code.bit ≤ 6

/-- Before the first INIT the four commands that need one raise `NotInitialized`, whatever their operands
(46_commands.md R240, R244). -/
def Obligations.NotInitializedBeforeInit : Prop :=
  ∀ s : State, s.fault = 0 → s.initd = false →
    ∀ i : Instr, ((∃ n, i = .setpoly n) ∨ (∃ vp note ch vid vel, i = .noteOn vp note ch vid vel) ∨
        (∃ vp note ch vid, i = .noteOff vp note ch vid) ∨ ∃ a b, i = .render a b) →
      exec i s = .next { s with fault := 2, response := some ⟨true, 1⟩ }

/-- The operand checks of INIT, SETPOLY, SETP, RDSR, NOTE_ON and RENDER: a command that fails one sets its bit of
`FAULT`, answers its code and changes nothing else (46_commands.md R243, R245, R246, R248, R250, R254). -/
def Obligations.OperandChecksRaise : Prop :=
  ∀ s : State, s.fault = 0 →
    (∀ ch poly sr maxblk, (sr = 0 ∨ ch = 0 ∨ maxblk = 0 ∨ s.hw.maxblkLimit < maxblk.toNat ∨ poly = 0 ∨
        s.hw.maxVoices < poly.toNat ∨ s.hw.shutdownMs * (sr.toNat : Rat) < 1000) →
      exec (.init ch poly sr maxblk) s = .next { s with fault := 4, response := some ⟨true, 2⟩ }) ∧
    (∀ n, s.initd = true → (n = 0 ∨ s.hw.maxVoices < n.toNat) →
      exec (.setpoly n) s = .next { s with fault := 8, response := some ⟨true, 3⟩ }) ∧
    (∀ r val, regOf s.hw.nOps r = none →
      exec (.setp r val) s = .next { s with fault := 1, response := some ⟨true, 0⟩ }) ∧
    (∀ r val reg, regOf s.hw.nOps r = some reg →
      (((reg = .attackMs ∨ reg = .decayMs ∨ reg = .releaseMs ∨ ∃ k, reg = .modIndex k) ∧ q16 val < 0) ∨
        ((reg = .sustain ∨ ∃ k, reg = .mix k) ∧ (q16 val < 0 ∨ 1 < q16 val))) →
      exec (.setp r val) s = .next { s with fault := 16, response := some ⟨true, 4⟩ }) ∧
    (∀ bank idx, (5 ≤ bank.toNat ∨ (bank = 0 ∧ 10 ≤ idx.toNat) ∨
        (1 ≤ bank.toNat ∧ bank.toNat ≤ 3 ∧ s.hw.maxVoices ≤ idx.toNat) ∨
        (bank = 4 ∧ (256 ≤ idx.toNat ∨ regOf s.hw.nOps (idx.setWidth 8) = none))) →
      exec (.rdsr bank idx) s = .next { s with fault := 1, response := some ⟨true, 0⟩ }) ∧
    (∀ vp note ch vid vel, s.initd = true → (q16 vel < 0 ∨ 1 < q16 vel) →
      exec (.noteOn vp note ch vid vel) s = .next { s with fault := 16, response := some ⟨true, 4⟩ }) ∧
    (∀ a b, s.initd = true → (b.toNat < a.toNat ∨ s.cfgMaxblk.toNat < b.toNat) →
      exec (.render a b) s = .next { s with fault := 32, response := some ⟨true, 5⟩ })

/-! ### The system commands -/

/-- NOP answers (0, 0) and changes nothing, halted or not (46_commands.md R242). -/
def Obligations.NopChangesNothing : Prop :=
  ∀ s : State, exec .nop s = .next { s with response := some ⟨false, 0⟩ }

/-- INIT with legal operands: every voice, the lists and `LAST_TARGET` at their reset values, then the configuration
and `poly` active voices; `P`, `FAULT` and `OUT` as they were (46_commands.md R243, 10_state.md R40). -/
def Obligations.InitLeavesSilentPool : Prop :=
  ∀ (s : State) (ch : BitVec 8) (poly : BitVec 16) (sr maxblk : BitVec 32), s.fault = 0 →
    sr ≠ 0 → ch ≠ 0 → maxblk ≠ 0 → maxblk.toNat ≤ s.hw.maxblkLimit → poly ≠ 0 → poly.toNat ≤ s.hw.maxVoices →
    1000 ≤ s.hw.shutdownMs * (sr.toNat : Rat) →
      exec (.init ch poly sr maxblk) s = .next
        { s with
          initd := true
          cfgSr := sr
          cfgCh := ch
          cfgMaxblk := maxblk
          lastTarget := 0xFFFFFFFF#32
          pool := ⟨List.range poly.toNat, List.replicate poly.toNat 0,
            (List.range s.hw.maxVoices).drop poly.toNat⟩
          voices := List.replicate s.hw.maxVoices (Voice.fresh s.hw.nOps)
          response := some ⟨false, 0⟩ }

/-- SETPOLY that does not lower the polyphony: voices are taken from the front of `inactive` to the end of `active`
with age 0, and no voice changes (45_voice_pool.md R216, 46_commands.md R245). -/
def Obligations.SetpolyGrows : Prop :=
  ∀ (s : State) (n : BitVec 16), s.fault = 0 → s.initd = true → n ≠ 0 → n.toNat ≤ s.hw.maxVoices →
    s.pool.active.length ≤ n.toNat → n.toNat ≤ s.pool.active.length + s.pool.inactive.length →
      exec (.setpoly n) s = .next
        { s with
          pool := ⟨s.pool.active ++ s.pool.inactive.take (n.toNat - s.pool.active.length),
            s.pool.age ++ List.replicate (n.toNat - s.pool.active.length) 0,
            s.pool.inactive.drop (n.toNat - s.pool.active.length)⟩
          response := some ⟨false, 0⟩ }

/-- SETPOLY that lowers the polyphony: `n` voices stay, in their order and with their ages; the others go to the end of
`inactive` one after the other, the oldest first, of equally old ones the one with the highest active index first, and
each of them before any that stays; no voice changes (45_voice_pool.md R211, R216). -/
def Obligations.SetpolyShrinksByEvictingOldest : Prop :=
  ∀ (s : State) (n : BitVec 16), s.fault = 0 → s.initd = true → n ≠ 0 → n.toNat ≤ s.hw.maxVoices →
    n.toNat ≤ s.pool.active.length → s.pool.age.length = s.pool.active.length →
      ∃ (p : Pool) (kept gone : List ((Nat × Nat) × Nat)),
        exec (.setpoly n) s = .next { s with pool := p, response := some ⟨false, 0⟩ } ∧
        p.active.length = n.toNat ∧ p.age.length = n.toNat ∧
        kept.Sublist (s.pool.active.zip s.pool.age).zipIdx ∧
        (kept ++ gone).Perm (s.pool.active.zip s.pool.age).zipIdx ∧
        p.active.zip p.age = kept.map Prod.fst ∧
        p.inactive = s.pool.inactive ++ gone.map (fun g => g.1.1) ∧
        gone.Pairwise evictedBefore ∧
        ∀ a ∈ kept, ∀ g ∈ gone, evictedBefore g a

/-- SETP with a register that exists and a legal value: that register takes the value, every other register and all
other state is unchanged (46_commands.md R246). -/
def Obligations.SetpWritesOneRegister : Prop :=
  ∀ (s : State) (r : BitVec 8) (val : BitVec 32) (reg : Reg), s.fault = 0 → s.params.Shaped s.hw.nOps →
    regOf s.hw.nOps r = some reg →
    ((reg = .attackMs ∨ reg = .decayMs ∨ reg = .releaseMs ∨ ∃ k, reg = .modIndex k) → 0 ≤ q16 val) →
    ((reg = .sustain ∨ ∃ k, reg = .mix k) → 0 ≤ q16 val ∧ q16 val ≤ 1) →
      ∃ p : Params, exec (.setp r val) s = .next { s with params := p, response := some ⟨false, 0⟩ } ∧
        p.read reg = q16 val ∧ ∀ reg', reg' ≠ reg → p.read reg' = s.params.read reg'

/-- What a SETP wrote, RDSR bank 4 reads back, bit for bit (46_commands.md R248). -/
def Obligations.SetpThenRdsrReadsBack : Prop :=
  ∀ (s t : State) (r : BitVec 8) (val : BitVec 32), s.params.Shaped s.hw.nOps → s.fault = 0 →
    exec (.setp r val) s = .next t → t.response = some ⟨false, 0⟩ →
      exec (.rdsr 4 (r.setWidth 16)) t = .next { t with response := some ⟨false, val⟩ }

/-- RDSR answers the entry of the status map and changes nothing else, halted or not (10_state.md R27,
46_commands.md R248); a number above 32 bits is answered with some value, which one is free (log 8). -/
def Obligations.RdsrAnswersStatusMap : Prop :=
  ∀ s : State,
    exec (.rdsr 0 0) s = .next { s with response := some ⟨false, s.fault⟩ } ∧
    exec (.rdsr 0 1) s = .next { s with response := some ⟨false, if s.initd then 1 else 0⟩ } ∧
    exec (.rdsr 0 2) s = .next { s with response := some ⟨false, s.cfgSr⟩ } ∧
    exec (.rdsr 0 3) s = .next { s with response := some ⟨false, BitVec.ofNat 32 s.cfgCh.toNat⟩ } ∧
    exec (.rdsr 0 4) s = .next { s with response := some ⟨false, s.cfgMaxblk⟩ } ∧
    (s.pool.active.length < 2 ^ 32 →
      exec (.rdsr 0 5) s = .next { s with response := some ⟨false, BitVec.ofNat 32 s.pool.active.length⟩ }) ∧
    exec (.rdsr 0 6) s = .next { s with response := some ⟨false, s.lastTarget⟩ } ∧
    (s.hw.maxVoices < 2 ^ 32 →
      exec (.rdsr 0 7) s = .next { s with response := some ⟨false, BitVec.ofNat 32 s.hw.maxVoices⟩ }) ∧
    (s.hw.nOps < 2 ^ 32 →
      exec (.rdsr 0 8) s = .next { s with response := some ⟨false, BitVec.ofNat 32 s.hw.nOps⟩ }) ∧
    (s.hw.sine.length < 2 ^ 32 →
      exec (.rdsr 0 9) s = .next { s with response := some ⟨false, BitVec.ofNat 32 s.hw.sine.length⟩ }) ∧
    (∀ (r : BitVec 8) (reg : Reg) (pat : BitVec 32), regOf s.hw.nOps r = some reg → s.params.read reg = q16 pat →
      exec (.rdsr 4 (r.setWidth 16)) s = .next { s with response := some ⟨false, pat⟩ }) ∧
    (∀ idx : BitVec 16, (idx = 5 ∨ idx = 7 ∨ idx = 8 ∨ idx = 9) →
      ∃ x, exec (.rdsr 0 idx) s = .next { s with response := some ⟨false, x⟩ }) ∧
    ∀ idx : BitVec 16, idx.toNat < s.hw.maxVoices →
      (∃ x, exec (.rdsr 3 idx) s = .next { s with response := some ⟨false, x⟩ }) ∧
      exec (.rdsr 1 idx) s = .next { s with response := some ⟨false, s.vstat idx.toNat⟩ } ∧
      (∀ a, idx.toNat < s.pool.active.length → s.pool.age[idx.toNat]? = some a →
        exec (.rdsr 2 idx) s = .next { s with response := some ⟨false, BitVec.ofNat 32 (min a (2 ^ 32 - 1))⟩ }) ∧
      (∀ v, s.pool.active[idx.toNat]? = some v → v < 2 ^ 32 →
        exec (.rdsr 3 idx) s = .next { s with response := some ⟨false, BitVec.ofNat 32 v⟩ }) ∧
      (s.pool.active.length ≤ idx.toNat →
        exec (.rdsr 2 idx) s = .next { s with response := some ⟨false, 0xFFFFFFFF#32⟩ } ∧
        exec (.rdsr 3 idx) s = .next { s with response := some ⟨false, 0xFFFFFFFF#32⟩ })

/-- The fields of `VSTAT[v]` (10_state.md R28). -/
def Obligations.VstatLayout : Prop :=
  ∀ (s : State) (v : Nat) (vc : Voice), s.voices[v]? = some vc →
    (s.vstat v).getLsbD 0 = (vc.masterEnv.state != .off) ∧
    (s.vstat v).getLsbD 1 = vc.isStealing ∧
    (s.vstat v).getLsbD 2 = vc.currentEvent.isSome ∧
    (s.vstat v).getLsbD 3 = vc.pendingEvent.isSome ∧
    (s.vstat v).extractLsb' 4 3 =
      (match vc.masterEnv.state with
       | .off => 0 | .attack => 1 | .decay => 2 | .sustain => 3 | .release => 4 | .shutdown => 5) ∧
    (s.vstat v).getLsbD 7 = decide (v ∈ s.pool.active) ∧
    (s.vstat v).extractLsb' 8 7 = (vc.currentEvent.elim 0 Event.note) ∧
    (s.vstat v).extractLsb' 15 4 = (vc.currentEvent.elim 0 Event.channel) ∧
    (s.vstat v).extractLsb' 19 7 = (vc.pendingEvent.elim 0 Event.note) ∧
    (s.vstat v).extractLsb' 26 4 = (vc.pendingEvent.elim 0 Event.channel) ∧
    (s.vstat v).extractLsb' 30 2 = 0

/-! ### NOTE_ON and NOTE_OFF -/

/-- NOTE_ON with a voice that is not playing: the first such active voice starts the note, the ages of the voices that
play are incremented (the target's after its restart), and nothing else changes (45_voice_pool.md R212, R213,
46_commands.md R250). An index above 32 bits is latched and answered as a free value (log 8). -/
def Obligations.NoteOnStartsFirstFreeVoice : Prop :=
  ∀ (s : State) (vp : Bool) (note : BitVec 7) (ch : BitVec 4) (vid vel : BitVec 32) (i v : Nat) (vc : Voice),
    s.fault = 0 → s.initd = true → 0 ≤ q16 vel → q16 vel ≤ 1 →
    s.pool.active[i]? = some v → s.voices[v]? = some vc → vc.masterEnv.state = .off →
    (∀ j w, j < i → s.pool.active[j]? = some w → playingAt s.voices w = true) →
      ∃ age : List Nat,
        exec (.noteOn vp note ch vid vel) s = .next
          { s with
            voices := s.voices.set v
              (vc.startNote s.ctx ⟨note, ch, if vp then some vid else none, q16 vel⟩)
            pool := { s.pool with age := age }
            lastTarget := word32 i
            response := some ⟨false, word32 i⟩ } ∧
        age.length = s.pool.age.length ∧
        ∀ j a, s.pool.age[j]? = some a → age[j]? = some
          ((if j = i ∧ s.hw.ageResetOnNoteOn = true then 0 else a) +
            (if (s.pool.active[j]?).any (fun w => w == v || playingAt s.voices w) then 1 else 0))

/-- What starting a note writes: the event, the identity, every operator's clock at phase 0 with the frequency
`NOTE_FREQ[note] * RATIO[k]`, its last output and envelope, and the master envelope; nothing else
(44_voice.md R182, R184, 43_operator.md R163). -/
def Obligations.StartNoteRestartsOperators : Prop :=
  ∀ (x : Ctx) (ev : Event) (v : Voice),
    let v' := v.startNote x ev
    let rise : Rat := if x.params.attackMs * x.sr = 0 then 0 else 1000 / (x.params.attackMs * x.sr)
    v'.currentEvent = some ev ∧ v'.voiceId = ev.voiceId ∧ v'.channel = ev.channel ∧ v'.note = ev.note ∧
    v'.masterEnv = ⟨.attack, 0 - rise, rise⟩ ∧ v'.pendingEvent = v.pendingEvent ∧
    v'.isStealing = v.isStealing ∧ v'.vout = v.vout ∧ v'.ops.length = v.ops.length ∧
    ∀ k o, v.ops[k]? = some o → v'.ops[k]? = some
      ({ clock := ⟨0, x.hw.noteFreq.getD ev.note.toNat 0 * x.params.ratio.getD k 0 / x.sr, 0, 0⟩,
         env := ⟨.attack, 0 - rise, rise⟩, lastOutput := 0, pm := o.pm, out := o.out } : Operator)

/-- NOTE_ON with every active voice playing: the oldest, the last of equals, is told to steal; it keeps its current
note, and nothing else changes but the ages (45_voice_pool.md R211, R212, R213, 44_voice.md R183, 42_envelope.md
R135). An index above 32 bits is latched and answered as a free value (log 8). -/
def Obligations.NoteOnStealsOldestVoice : Prop :=
  ∀ (s : State) (vp : Bool) (note : BitVec 7) (ch : BitVec 4) (vid vel : BitVec 32),
    s.fault = 0 → s.initd = true → 0 ≤ q16 vel → q16 vel ≤ 1 →
    s.pool.active ≠ [] → s.pool.age.length = s.pool.active.length →
    (∀ w ∈ s.pool.active, playingAt s.voices w = true) →
      ∃ (i v : Nat) (vc : Voice) (age : List Nat) (oldAge : Nat),
        s.pool.active[i]? = some v ∧ s.voices[v]? = some vc ∧ s.pool.age[i]? = some oldAge ∧
        (∀ j a, s.pool.age[j]? = some a → a ≤ oldAge ∧ (a = oldAge → j ≤ i)) ∧
        exec (.noteOn vp note ch vid vel) s = .next
          { s with
            voices := s.voices.set v
              { vc with
                pendingEvent := some ⟨note, ch, if vp then some vid else none, q16 vel⟩
                isStealing := true
                masterEnv :=
                  { vc.masterEnv with
                    state := .shutdown
                    stepIncrease := - vc.masterEnv.outputValue * 1000 /
                      (s.hw.shutdownMs * (s.cfgSr.toNat : Rat)) } }
            pool := { s.pool with age := age }
            lastTarget := word32 i
            response := some ⟨false, word32 i⟩ } ∧
        age.length = s.pool.age.length ∧
        ∀ j a, s.pool.age[j]? = some a →
          age[j]? = some ((if j = i ∧ s.hw.ageResetOnNoteOn = true then 0 else a) + 1)

/-- Oldest-voice selection gives the largest index that holds the maximum (45_voice_pool.md R211). -/
def Obligations.OldestIsLastMaximum : Prop :=
  ∀ age : List Nat, age ≠ [] →
    ∃ m, age[oldest age]? = some m ∧ ∀ (j a : Nat), age[j]? = some a → a ≤ m ∧ (a = m → j ≤ oldest age)

/-- `PoolEmpty` is raised on an empty active list, which no state that keeps the pool invariant has once INIT has
succeeded: there the answer (1, 6) is never given (45_voice_pool.md R214). That it cannot arise the spec marks as its
own inference (R214). -/
def Obligations.PoolEmptyUnreachable : Prop :=
  (∀ (s : State) vp note ch vid vel, s.fault = 0 → s.initd = true → 0 ≤ q16 vel → q16 vel ≤ 1 →
    s.pool.active = [] →
      exec (.noteOn vp note ch vid vel) s = .next { s with fault := 64, response := some ⟨true, 6⟩ }) ∧
  ∀ (i : Instr) (s t : State), s.PoolOk → exec i s = .next t → t.response ≠ some ⟨true, 6⟩

/-- NOTE_OFF reaches every active voice, each by its own match rule: while stealing only a matching waiting note is
cancelled, else a matching current note is released; every other voice and all else is unchanged
(45_voice_pool.md R215, 44_voice.md R186, 46_commands.md R252). -/
def Obligations.NoteOffReleasesEveryMatch : Prop :=
  ∀ (s : State) (vp : Bool) (note : BitVec 7) (ch : BitVec 4) (vid : BitVec 32),
    s.fault = 0 → s.initd = true → s.pool.active.Nodup →
      ∃ vs : List Voice,
        exec (.noteOff vp note ch vid) s = .next { s with voices := vs, response := some ⟨false, 0⟩ } ∧
        vs.length = s.voices.length ∧
        ∀ v vc, s.voices[v]? = some vc →
          (v ∉ s.pool.active → vs[v]? = some vc) ∧
          (v ∈ s.pool.active →
            let e : Event := ⟨note, ch, if vp then some vid else none, 0⟩
            (vc.isStealing = true → matchesEvent e vc.pendingEvent = true →
              vs[v]? = some { vc with pendingEvent := none }) ∧
            (vc.isStealing = true → matchesEvent e vc.pendingEvent = false → vs[v]? = some vc) ∧
            (vc.isStealing = false → matchesEvent e vc.currentEvent = false → vs[v]? = some vc) ∧
            (vc.isStealing = false → matchesEvent e vc.currentEvent = true →
              vs[v]? = some
                { vc with
                  ops := vc.ops.map (fun o => { o with env := o.env.noteOff s.params (s.cfgSr.toNat : Rat) })
                  masterEnv := vc.masterEnv.noteOff s.params (s.cfgSr.toNat : Rat)
                  currentEvent := none }))

/-- The match rule: two voice ids present and equal, else channel and note both equal; no event matches none
(44_voice.md R185). -/
def Obligations.MatchByIdElseChannelAndNote : Prop :=
  ∀ e : Event, matchesEvent e none = false ∧
    ∀ s : Event, matchesEvent e (some s) = true ↔
      (∃ a, e.voiceId = some a ∧ s.voiceId = some a) ∨ (e.channel = s.channel ∧ e.note = s.note)

/-! ### RENDER -/

/-- RENDER of a legal block: every active voice renders it (none, for an empty block), every element of `OUT` in the
block grows by the sum of the voices' blocks, and no other element and nothing else changes (46_commands.md R254,
45_voice_pool.md R222, 20_memory.md R65). -/
def Obligations.RenderAccumulatesActiveVoices : Prop :=
  ∀ (s : State) (a b : BitVec 32), s.fault = 0 → s.initd = true → a.toNat ≤ b.toNat →
    b.toNat ≤ s.cfgMaxblk.toNat → s.out.wf = true → s.pool.active.Nodup →
      ∃ (vs : List Voice) (out : Space),
        exec (.render a b) s = .next { s with voices := vs, out := out, response := some ⟨false, 0⟩ } ∧
        vs.length = s.voices.length ∧
        (∀ v vc, s.voices[v]? = some vc → vs[v]? = some
          (if v ∈ s.pool.active ∧ a.toNat < b.toNat then vc.render s.ctx (b.toNat - a.toNat) else vc)) ∧
        ∀ c j, out.read (c, j) = s.out.read (c, j) +
          (if c < s.cfgCh.toNat ∧ a.toNat ≤ j ∧ j < b.toNat then
            (s.pool.active.map (fun v => (vs[v]?).elim 0 (fun w => w.vout.read (c, j - a.toNat)))).sum
          else 0)

/-- A rendered voice's block is the weighted sum of its operators' outputs, times the one envelope value of the block:
the master envelope's level after its first advance (44_voice.md R189). -/
def Obligations.VoiceBlockIsScaledMix : Prop :=
  ∀ (x : Ctx) (n : Nat) (v : Voice) (c i : Nat), v.vout.wf = true → c < x.ch → i < n →
    (v.render x n).vout.read (c, i) =
      ((List.range v.ops.length).map (fun k => x.params.read (.mix k) *
        ((v.render x n).ops[k]?.elim 0 (fun o => o.out.read (c, i))))).sum *
          (v.masterEnv.advance x.params x.sr).outputValue

/-- An operator, its clock settled: sample `i` reads the table at the phase it has after `i` samples, moved in the
direction the phase runs by the offset of sample `i` alone: the input of sample `i` and, with self-feedback, the sample
before it (before the first, the last output of the block before) times the index. No offset accumulates
(43_operator.md R165, 44_voice.md R187, 40_clock.md R105, 70_reset_and_hazards.md R296). The closed form is inferred
from R165, not written in the spec. -/
def Obligations.OperatorSamplesInClosedForm : Prop :=
  ∀ (x : Ctx) (n : Nat) (selfMod : Bool) (index : Rat) (o : Operator) (c i : Nat),
    o.clock.Settled → o.out.wf = true → c < x.ch → i < n →
      (o.render x n selfMod index).out.read (c, i) =
        sampleInClosedForm x.hw.sine o.clock.mcounter o.clock.phaseInc
          (o.pm.read (0, i) +
            if selfMod then
              (if i = 0 then o.lastOutput else (o.render x n selfMod index).out.read (c, i - 1)) * index
            else 0) i ∧
      (o.render x n selfMod index).clock.mcounter =
        Int.fract (o.clock.mcounter + (n : Rat) * o.clock.phaseInc)

/-- In a rendered chain every operator but the first, without self-feedback, is phase-modulated by the samples of the
one before it of the same block, sample for sample. In a rendered voice every operator runs at `NOTE_FREQ[note] *
RATIO[k]` and is modulated by the one before it, the first by none, and, where `SELF_MOD[k]` says so, by its own sample
before times `MOD_INDEX[k]`; unless the block ends a steal, its clock has moved by the block and its last output is its
last sample (44_voice.md R181, R182, R187, R188, R189, 43_operator.md R165, R167). That the average over channels is the
sample itself the spec marks as its own inference (R167). -/
def Obligations.ChainModulatesNextOperator : Prop :=
  (∀ (x : Ctx) (n : Nat) (ops : List Operator) (k : Nat) (o p p' : Operator) (c i : Nat),
    (∀ o ∈ ops, o.clock.Settled ∧ o.pm = [] ∧ o.out.wf = true) → n ≤ x.blk →
    ops[k + 1]? = some o → x.hw.selfMod.getD (k + 1) false = false →
    (renderChain x n none 0 ops)[k]? = some p → (renderChain x n none 0 ops)[k + 1]? = some p' →
    c < x.ch → i < n →
      p'.out.read (c, i) =
        sampleInClosedForm x.hw.sine o.clock.mcounter o.clock.phaseInc (p.out.read (c, i)) i) ∧
  ∀ (x : Ctx) (n : Nat) (v : Voice) (k : Nat) (o : Operator) (c i : Nat),
    (∀ o ∈ v.ops, o.clock.Settled ∧ o.pm = [] ∧ o.out.wf = true) → n ≤ x.blk →
    v.ops[k]? = some o → c < x.ch → i < n →
      let inc : Rat := x.hw.noteFreq.getD v.note.toNat 0 * x.params.read (.ratio k) / x.sr
      ∃ p : Operator, (v.render x n).ops[k]? = some p ∧
        p.out.read (c, i) =
          sampleInClosedForm x.hw.sine o.clock.mcounter inc
            ((if k = 0 then 0 else ((v.render x n).ops[k - 1]?).elim 0 (fun q => q.out.read (c, i))) +
              if x.hw.selfMod.getD k false then
                (if i = 0 then o.lastOutput else p.out.read (c, i - 1)) * x.params.read (.modIndex k)
              else 0) i ∧
        (v.isStealing = false ∨ (v.masterEnv.advances x.params x.sr n).state ≠ .off →
          p.clock.mcounter = Int.fract (o.clock.mcounter + (n : Rat) * inc) ∧ p.clock.phaseInc = inc ∧
            p.lastOutput = p.out.read (c, n - 1))

/-- An operator's samples are the same in every channel and in [-1, 1], its last output is the last of them, and the
elements outside the block keep their values (43_operator.md R166, R171, 20_memory.md R63). The spec marks the bound,
R171, as its own inference. -/
def Obligations.OperatorFansOutBoundedSamples : Prop :=
  ∀ (x : Ctx) (n : Nat) (selfMod : Bool) (index : Rat) (o : Operator), x.hw.SineOk → o.out.wf = true →
    (∀ c c' i, c < x.ch → c' < x.ch → i < n →
      (o.render x n selfMod index).out.read (c, i) = (o.render x n selfMod index).out.read (c', i) ∧
      -1 ≤ (o.render x n selfMod index).out.read (c, i) ∧ (o.render x n selfMod index).out.read (c, i) ≤ 1) ∧
    (∀ c, c < x.ch → 0 < n →
      (o.render x n selfMod index).lastOutput = (o.render x n selfMod index).out.read (c, n - 1)) ∧
    (0 < n → -1 ≤ (o.render x n selfMod index).lastOutput ∧ (o.render x n selfMod index).lastOutput ≤ 1) ∧
    (∀ c i, x.ch ≤ c ∨ n ≤ i → (o.render x n selfMod index).out.read (c, i) = o.out.read (c, i)) ∧
    (o.render x n selfMod index).env = o.env

/-- Splitting a block in two leaves the same envelope state and, for an operator with no external input, the same
clock and last output (46_commands.md R255). The spec marks R255 as its own inference. -/
def Obligations.SplitBlockAdvancesAlike : Prop :=
  ∀ (x : Ctx) (m n : Nat) (selfMod : Bool) (index : Rat) (o : Operator) (e : Env), o.pm = [] →
    e.advances x.params x.sr (m + n) = (e.advances x.params x.sr m).advances x.params x.sr n ∧
    (o.render x (m + n) selfMod index).clock =
      ((o.render x m selfMod index).render x n selfMod index).clock ∧
    (o.render x (m + n) selfMod index).lastOutput =
      ((o.render x m selfMod index).render x n selfMod index).lastOutput

/-- The block rendered right after a note starts with a non-zero attack time is silent, whatever its length
(70_reset_and_hazards.md R299). The spec marks R299 as its own inference. -/
def Obligations.FirstBlockOfNoteIsSilent : Prop :=
  ∀ (x : Ctx) (n : Nat) (ev : Event) (v : Voice) (c i : Nat), v.masterEnv.state = .off → v.vout.wf = true →
    0 < x.params.attackMs → 0 < x.sr → c < x.ch → i < n →
      ((v.noteOn x ev).render x n).vout.read (c, i) = 0

/-- A voice's samples are at most the sum of the mix weights in magnitude (44_voice.md R189). The spec marks this
bound of R189 as its own inference. -/
def Obligations.VoiceBlockBoundedByMix : Prop :=
  ∀ (x : Ctx) (n : Nat) (v : Voice) (c i : Nat), x.hw.SineOk → x.params.Legal → v.masterEnv.Bounded →
    v.vout.wf = true → (∀ o ∈ v.ops, o.out.wf = true) → c < x.ch → i < n →
      |(v.render x n).vout.read (c, i)| ≤
        ((List.range v.ops.length).map (fun k => x.params.read (.mix k))).sum

/-- After a RENDER no element of `OUT` has changed by more than the number of active voices times the sum of the mix
weights (45_voice_pool.md R223). The spec marks R223 as its own inference. -/
def Obligations.RenderGrowthBounded : Prop :=
  ∀ (s t : State) (a b : BitVec 32) (c j : Nat), s.hw.Wf → s.Shaped → s.params.Legal → s.EnvelopesBounded →
    s.ArraysOk → s.pool.active.Nodup → s.fault = 0 → exec (.render a b) s = .next t →
      |t.out.read (c, j) - s.out.read (c, j)| ≤
        (s.pool.active.length : Rat) * ((List.range s.hw.nOps).map (fun k => s.params.read (.mix k))).sum

/-! ### Clock, oscillator, envelope, stealing -/

/-- The wrap lands in [0, 1), agrees with the fast paths, and takes away a whole number of periods (40_clock.md R102).
That the fast paths agree the spec marks as its own inference (R102). -/
def Obligations.WrapIsPhaseModuloOne : Prop :=
  ∀ x : Rat, 0 ≤ wrap1 x ∧ wrap1 x < 1 ∧ (∃ k : Int, x = wrap1 x + (k : Rat)) ∧
    (0 ≤ x → x < 1 → wrap1 x = x) ∧ (1 ≤ x → x < 2 → wrap1 x = x - 1) ∧ (-1 ≤ x → x < 0 → wrap1 x = x + 1)

/-- Folding an offset in and removing it leaves the clock as it was (40_clock.md R105, R107). The spec marks this
property of R107 as its own inference. -/
def Obligations.OffsetFoldedAndRemovedIsGone : Prop :=
  ∀ (c : Clock) (d : Rat) (w : Bool), 0 ≤ c.mcounter → c.mcounter < 1 → c.phaseOffset = 0 →
    (c.addPhaseOffset d w).removePhaseOffset = c

/-- At a table point the oscillator reads the table, modulo its length; with a length that 4 divides the quarter
points read 0, 1, 0, -1; with a table as close to the sine as `SINE_EPS` says, a table point is read as close to it
(41_oscillator.md R120, R124). The spec marks R124 as its own inference; the last clause is inferred from R120. -/
def Obligations.OscillatorExactAtTablePoints : Prop :=
  ∀ hw : CfgHW, hw.SineOk →
    (∀ i : Int, oscRead hw.sine ((i : Rat) / (hw.sine.length : Rat)) =
      hw.sine.getD (i % (hw.sine.length : Int)).toNat 0) ∧
    (hw.sine.length % 4 = 0 →
      oscRead hw.sine 0 = 0 ∧ oscRead hw.sine (1 / 4) = 1 ∧ oscRead hw.sine (1 / 2) = 0 ∧
        oscRead hw.sine (3 / 4) = -1) ∧
    (hw.SineClose → ∀ i : Nat, i < hw.sine.length →
      |((oscRead hw.sine ((i : Rat) / (hw.sine.length : Rat)) : ℚ) : ℝ) -
        Real.sin (2 * Real.pi * i / hw.sine.length)| ≤ ((hw.sineEps : ℚ) : ℝ))

/-- The oscillator's value is in [-1, 1] at every phase, and the phase counts modulo 1 (41_oscillator.md R122, R125).
The spec marks both, R125 and the last corner case of R122, as its own inferences. -/
def Obligations.OscillatorBoundedAndPeriodic : Prop :=
  ∀ (hw : CfgHW) (phase : Rat), hw.SineOk →
    -1 ≤ oscRead hw.sine phase ∧ oscRead hw.sine phase ≤ 1 ∧
      oscRead hw.sine phase = oscRead hw.sine (Int.fract phase)

/-- Between two table points the oscillator runs along the line from one entry to the next, both taken modulo the
length, and so it is continuous across the wrap from 1 to 0: below 1 it runs from the last entry to the first
(41_oscillator.md R122, R123). The spec marks the difference at the wrap, R123, as its own inference. -/
def Obligations.OscillatorContinuousAtWrap : Prop :=
  ∀ hw : CfgHW, hw.SineOk →
    (∀ (i : Int) (f : Rat), 0 ≤ f → f < 1 →
      oscRead hw.sine (((i : Rat) + f) / (hw.sine.length : Rat)) =
        hw.sine.getD (i % (hw.sine.length : Int)).toNat 0 +
          f * (hw.sine.getD ((i + 1) % (hw.sine.length : Int)).toNat 0 -
            hw.sine.getD (i % (hw.sine.length : Int)).toNat 0)) ∧
    ∀ d : Rat, 0 < d → d * (hw.sine.length : Rat) ≤ 1 →
      oscRead hw.sine (1 - d) - oscRead hw.sine 0 =
        d * (hw.sine.length : Rat) * (hw.sine.getD (hw.sine.length - 1) 0 - hw.sine.getD 0 0)

/-- An attack that lasts `T` samples, whole or not, rises by `1/T` from 0 at the first advance, stays below 1 for as
long as the advances after the first number less than `T`, and with the next one is in Decay at level 1; for a whole
`T` that is advance `T + 1` (42_envelope.md R131, R133, R138). -/
def Obligations.AttackReachesDecayAfterItsTime : Prop :=
  ∀ (p : Params) (sr T : Rat), 0 < T → 0 < sr → p.attackMs * sr = 1000 * T → ∀ j : Nat,
    ((j : Rat) < T → (Env.noteOn p sr).advances p sr (j + 1) = ⟨.attack, (j : Rat) / T, 1 / T⟩) ∧
    (T ≤ (j : Rat) → (j : Rat) < T + 1 →
      (Env.noteOn p sr).advances p sr (j + 1) =
        ⟨.decay, 1, - (if p.decayMs * sr = 0 then 0 else 1000 / (p.decayMs * sr))⟩)

/-- A decay of `T` samples per unit, `T` whole or not, falls by `1/T` to the sustain level and holds it; a note-off
gives a playing envelope above 0 a release that falls by `1/T` from the level it starts at to 0 and is Off from then
on (42_envelope.md R131, R134, R137, R139, R140). -/
def Obligations.DecayAndReleaseRunToTheirEnds : Prop :=
  ∀ (p : Params) (sr T : Rat), 0 < T → 0 < sr →
    (p.decayMs * sr = 1000 * T → ∀ j : Nat, 1 ≤ j →
      (⟨.decay, 1, - (1 / T)⟩ : Env).advances p sr j =
        if 1 - (j : Rat) / T ≤ p.sustain then ⟨.sustain, p.sustain, 0⟩
        else ⟨.decay, 1 - (j : Rat) / T, - (1 / T)⟩) ∧
    (p.releaseMs * sr = 1000 * T → ∀ e : Env, e.state ≠ .off → 0 < e.outputValue →
      e.noteOff p sr = ⟨.release, e.outputValue, - (1 / T)⟩ ∧
      ∀ j : Nat, 1 ≤ j →
        (e.noteOff p sr).advances p sr j =
          if e.outputValue - (j : Rat) / T ≤ 0 then ⟨.off, 0, 0⟩
          else ⟨.release, e.outputValue - (j : Rat) / T, - (1 / T)⟩)

/-- A segment of time 0 ends at the next advance; Off and Sustain never end by themselves; a release from a level at
or below 0 is Off at once (42_envelope.md R134, R137 to R140, 90_conflicts.md C4). -/
def Obligations.ZeroTimesEndAtNextAdvance : Prop :=
  ∀ (p : Params) (sr : Rat) (e : Env),
    (p.attackMs = 0 → e.state = .attack →
      e.advance p sr = ⟨.decay, 1, - (if p.decayMs * sr = 0 then 0 else 1000 / (p.decayMs * sr))⟩) ∧
    (p.decayMs = 0 → e.state = .decay → e.advance p sr = ⟨.sustain, p.sustain, 0⟩) ∧
    (p.releaseMs = 0 → e.state = .release → e.advance p sr = ⟨.off, 0, 0⟩) ∧
    (e.state = .off ∨ e.state = .sustain → e.advance p sr = e) ∧
    (e.state = .off → e.noteOff p sr = e) ∧
    (e.state ≠ .off → e.outputValue ≤ 0 → e.noteOff p sr = ⟨.off, 0, 0⟩)

/-- A shutdown, from any state and level, ends in Off within `SHUTDOWN_MS * sr / 1000` advances, rounded up
(42_envelope.md R144). The spec marks R144 as its own inference. -/
def Obligations.ShutdownEndsInTime : Prop :=
  ∀ (hw : CfgHW) (p : Params) (sr : Rat) (e : Env) (n : Nat), 0 < hw.shutdownMs → 1000 ≤ hw.shutdownMs * sr →
    hw.shutdownMs * sr / 1000 ≤ (n : Rat) →
      (e.shutdown hw sr).advances p sr n = ⟨.off, 0, 0⟩

/-- The end of a voice's render: unless it was stealing and its master envelope has reached Off, its events and its
identity are as they were; if it was, the steal ends, and the waiting note, if there is one, starts at once with every
operator at phase 0 (44_voice.md R189, R190, R193). -/
def Obligations.StealCheckAfterRender : Prop :=
  ∀ (x : Ctx) (n : Nat) (v : Voice),
    let e := v.masterEnv.advances x.params x.sr n
    let v' := v.render x n
    (v.isStealing = false ∨ e.state ≠ .off →
      v'.masterEnv = e ∧ v'.isStealing = v.isStealing ∧ v'.currentEvent = v.currentEvent ∧
        v'.pendingEvent = v.pendingEvent ∧ v'.note = v.note ∧ v'.channel = v.channel ∧ v'.voiceId = v.voiceId) ∧
    (v.isStealing = true → e.state = .off → v.pendingEvent = none →
      v'.masterEnv = e ∧ v'.isStealing = false ∧ v'.currentEvent = none ∧
        v'.pendingEvent = none ∧ v'.note = v.note ∧ v'.channel = v.channel ∧ v'.voiceId = v.voiceId) ∧
    ∀ ev, v.isStealing = true → e.state = .off → v.pendingEvent = some ev →
      v'.masterEnv.state = .attack ∧ v'.isStealing = false ∧ v'.currentEvent = some ev ∧
        v'.pendingEvent = none ∧ v'.note = ev.note ∧ v'.channel = ev.channel ∧ v'.voiceId = ev.voiceId ∧
        ∀ o ∈ v'.ops, o.clock.mcounter = 0 ∧ o.clock.phaseOffset = 0 ∧ o.lastOutput = 0 ∧ o.env.state = .attack

/-- A steal ends in bounded time: once a voice that was playing has been rendered for `SHUTDOWN_MS * sr / 1000`
samples after a note-on, in any split into blocks, it sounds the new note and steals no more (44_voice.md R191). The
spec marks R191 as its own inference. -/
def Obligations.StealEndsInTime : Prop :=
  ∀ (x : Ctx) (ev : Event) (v : Voice) (blocks : List Nat), v.masterEnv.state ≠ .off →
    0 < x.hw.shutdownMs → 1000 ≤ x.hw.shutdownMs * x.sr → x.hw.shutdownMs * x.sr / 1000 ≤ (blocks.sum : Rat) →
      let v' := blocks.foldl (fun v n => v.render x n) (v.noteOn x ev)
      v'.isStealing = false ∧ v'.currentEvent = some ev ∧ v'.pendingEvent = none ∧ v'.note = ev.note ∧
        v'.channel = ev.channel ∧ v'.voiceId = ev.voiceId

/-! ### Who writes what -/

/-- Only SETP writes `P`; only INIT writes the configuration; only RENDER writes `OUT`; only INIT and NOTE_ON write
`LAST_TARGET`; only INIT and SETPOLY move voices between the lists; only INIT, NOTE_ON, NOTE_OFF and RENDER change a
voice, and but for INIT none that is parked; no command writes the build record or the inputs (46_commands.md R256,
45_voice_pool.md R218). The spec marks R256 as its own inference. -/
def Obligations.EachPieceHasItsWriters : Prop :=
  ∀ (i : Instr) (s t : State), exec i s = .next t →
    t.hw = s.hw ∧ t.pending = s.pending ∧
    ((∀ r val, i ≠ .setp r val) → t.params = s.params) ∧
    ((∀ ch poly sr maxblk, i ≠ .init ch poly sr maxblk) →
      t.initd = s.initd ∧ t.cfgSr = s.cfgSr ∧ t.cfgCh = s.cfgCh ∧ t.cfgMaxblk = s.cfgMaxblk ∧
      (∀ v, v ∉ s.pool.active → t.voices[v]? = s.voices[v]?) ∧
      ((∀ n, i ≠ .setpoly n) → t.pool.active = s.pool.active ∧ t.pool.inactive = s.pool.inactive) ∧
      ((∀ vp note ch vid vel, i ≠ .noteOn vp note ch vid vel) → t.lastTarget = s.lastTarget)) ∧
    ((∀ a b, i ≠ .render a b) → t.out = s.out) ∧
    ((i = .nop ∨ (∃ bank idx, i = .rdsr bank idx) ∨ (∃ r val, i = .setp r val) ∨ ∃ n, i = .setpoly n) →
      t.voices = s.voices)

/-- Velocity reaches nothing but the stored events: two states that differ only in stored velocities answer every
command alike and stay so, and a NOTE_ON does the same at every legal velocity (10_state.md R36, 46_commands.md
R250). -/
def Obligations.VelocityHasNoEffect : Prop :=
  (∀ (i : Instr) (s s' t : State), s.mute = s'.mute → exec i s = .next t →
    ∃ t', exec i s' = .next t' ∧ t.mute = t'.mute) ∧
  ∀ (s t : State) vp note ch vid vel vel', 0 ≤ q16 vel → q16 vel ≤ 1 → 0 ≤ q16 vel' → q16 vel' ≤ 1 →
    exec (.noteOn vp note ch vid vel) s = .next t →
      ∃ t', exec (.noteOn vp note ch vid vel') s = .next t' ∧ t.mute = t'.mute

/-! ### Invariants of every step -/

/-- No run stops: as long as the host writes only elements of `OUT` that exist, every state a run comes to has a next
state (46_commands.md R241, 60_exceptions.md R272; the model's steps, log 3). -/
def Obligations.NoRunStops : Prop :=
  ∀ s t : State, (∀ x ∈ s.pending, x.Proper s.hw) → Reaches s t → ∃ u, step t = .next u

/-- Every step keeps the sizes of the lists (00_scope.md R10). The spec marks R10 as its own inference. -/
def Obligations.StepKeepsShape : Prop :=
  ∀ s t : State, s.Shaped → step s = .next t → t.Shaped

/-- Every step keeps the pool invariant (45_voice_pool.md R224). The spec marks R224 as its own inference; R37 states
the invariant without that mark. -/
def Obligations.StepKeepsPool : Prop :=
  ∀ s t : State, s.PoolOk → step s = .next t → t.PoolOk

/-- Every step keeps every array canonical and within its physical extent, and the configuration legal (20_memory.md
R60, 10_state.md R24). -/
def Obligations.StepKeepsArrays : Prop :=
  ∀ s t : State, s.ConfigOk → s.ArraysOk → step s = .next t → t.ConfigOk ∧ t.ArraysOk

/-- Every step leaves every clock in [0, 1) with no offset folded in, and every modulation input all zero
(10_state.md R30, R38, 40_clock.md R110). -/
def Obligations.StepKeepsOperatorsSettled : Prop :=
  ∀ s t : State, s.OperatorsSettled → step s = .next t → t.OperatorsSettled

/-- Every step keeps every parameter a legal multiple of 1/65536 (10_state.md R21). -/
def Obligations.StepKeepsParamsLegal : Prop :=
  ∀ s t : State, s.params.Legal → step s = .next t → t.params.Legal

/-- Every step keeps every envelope within its bounds (10_state.md R31, 42_envelope.md R145). The spec marks R145 as
its own inference; the bounds on the steps are the model's. -/
def Obligations.StepKeepsEnvelopesBounded : Prop :=
  ∀ s t : State, 0 < s.hw.shutdownMs → s.params.Legal → s.ConfigOk → s.EnvelopesBounded → step s = .next t →
    t.EnvelopesBounded

/-- Every step keeps every voice in a control state of the table of 44_voice.md R193. The spec marks R193 as its own
inference. -/
def Obligations.StepKeepsVoiceControl : Prop :=
  ∀ s t : State, s.ControlOk → step s = .next t → t.ControlOk

/-- The reset state has a configuration that meets every constraint, property 4 of the table among them, and meets
every invariant, for every such configuration and every contents of `OUT` (10_state.md R39; the
configuration and `OUT` are free, log 2, log 5). -/
def Obligations.ResetMeetsInvariants : Prop :=
  State.reset.hw.Wf ∧ State.reset.hw.SineClose ∧ State.reset.Shaped ∧ State.reset.PoolOk ∧ State.reset.ConfigOk ∧ State.reset.ArraysOk ∧
    State.reset.OperatorsSettled ∧ State.reset.params.Legal ∧ State.reset.EnvelopesBounded ∧
    State.reset.ControlOk ∧ State.reset.FaultOk
end

