-- ==== Sys2Proof/Laws/Space.lean ====
section
/-! SUPPORT. The laws of the element-addressed arrays: what a read gives after a write, and that every operation on
an array keeps its canonical form and its physical extent. -/

namespace Sys2Proof.Machine

/-! ### The order of indices -/

theorem Idx.before_iff (a b : Idx) : a.before b = true ↔ a.1 < b.1 ∨ (a.1 = b.1 ∧ a.2 < b.2) := by
  simp [Idx.before]

theorem Idx.not_before_self (a : Idx) : a.before a = false := by
  simp [Idx.before]

theorem Idx.before_trans {a b c : Idx} (h : a.before b = true) (h' : b.before c = true) : a.before c = true := by
  rw [Idx.before_iff] at *
  omega

theorem Idx.before_or_after {a b : Idx} (h : a ≠ b) (h' : a.before b = false) : b.before a = true := by
  obtain ⟨a1, a2⟩ := a
  obtain ⟨b1, b2⟩ := b
  simp only [ne_eq, Prod.mk.injEq] at h
  simp only [Idx.before, Bool.or_eq_false_iff, Bool.and_eq_false_imp, decide_eq_false_iff_not, Bool.or_eq_true,
    decide_eq_true_eq, Bool.and_eq_true, beq_iff_eq] at *
  omega

/-! ### The canonical form -/

theorem Space.wf_cons (k : Idx) (v : Num) (m : Space) :
    Space.wf ((k, v) :: m) = true ↔ v ≠ 0 ∧ Space.startsAfter k m = true ∧ m.wf = true := by
  simp [Space.wf, and_assoc]

/-- Every cell after the head of a canonical array has a later index. -/
theorem Space.before_of_mem {k : Idx} {m : Space} (hs : m.startsAfter k = true) (hw : m.wf = true) :
    ∀ cell ∈ m, k.before cell.1 = true := by
  induction m generalizing k with
  | nil => simp
  | cons head rest ih =>
    obtain ⟨k', v'⟩ := head
    rw [Space.wf_cons] at hw
    intro cell hc
    rcases List.mem_cons.mp hc with rfl | hc
    · exact hs
    · exact Idx.before_trans hs (ih hw.2.1 hw.2.2 cell hc)

/-- An index no cell holds reads 0. -/
theorem Space.read_of_not_mem {m : Space} {i : Idx} (h : ∀ cell ∈ m, cell.1 ≠ i) : m.read i = 0 := by
  induction m with
  | nil => rfl
  | cons head rest ih =>
    obtain ⟨k, v⟩ := head
    have hk : i ≠ k := fun e => h (k, v) (by simp) e.symm
    simp only [Space.read, hk, if_false]
    exact ih (fun cell hc => h cell (List.mem_cons_of_mem _ hc))

/-- An index before every cell of a canonical array reads 0. -/
theorem Space.read_of_startsAfter {m : Space} {i : Idx} (hs : m.startsAfter i = true) (hw : m.wf = true) :
    m.read i = 0 := by
  refine Space.read_of_not_mem (fun cell hc e => ?_)
  have := Space.before_of_mem hs hw cell hc
  rw [e, Idx.not_before_self] at this
  exact absurd this (by simp)

/-- An element that reads other than 0 is listed. -/
theorem Space.mem_of_read_ne_zero {m : Space} {i : Idx} (h : m.read i ≠ 0) : (i, m.read i) ∈ m := by
  induction m with
  | nil => exact absurd rfl h
  | cons head rest ih =>
    obtain ⟨k, v⟩ := head
    by_cases e : i = k
    · simp [Space.read, e]
    · simp only [Space.read, e, if_false] at *
      exact List.mem_cons_of_mem _ (ih h)

/-! ### Read after write -/

/-- A write leaves every other element alone. -/
theorem Space.read_write_other (m : Space) {i j : Idx} (x : Num) (h : j ≠ i) :
    (m.write i x).read j = m.read j := by
  induction m with
  | nil => by_cases hx : x = 0 <;> simp [Space.write, Space.read, hx, h]
  | cons head rest ih =>
    obtain ⟨k, v⟩ := head
    by_cases e : i = k
    · subst e
      by_cases hx : x = 0 <;> simp [Space.write, Space.read, hx, h]
    · by_cases b : i.before k = true
      · by_cases hx : x = 0 <;> simp [Space.write, Space.read, hx, h, e, b]
      · simp [Space.write, Space.read, e, b, ih]

/-- A read after a write to the same element gives the value written. -/
theorem Space.read_write_same {m : Space} (i : Idx) (x : Num) (hw : m.wf = true) : (m.write i x).read i = x := by
  induction m with
  | nil => by_cases hx : x = 0 <;> simp [Space.write, Space.read, hx]
  | cons head rest ih =>
    obtain ⟨k, v⟩ := head
    rw [Space.wf_cons] at hw
    by_cases e : i = k
    · subst e
      by_cases hx : x = 0
      · simp [Space.write, hx, Space.read_of_startsAfter hw.2.1 hw.2.2]
      · simp [Space.write, Space.read, hx]
    · by_cases b : i.before k = true
      · by_cases hx : x = 0
        · have hr : Space.read rest i = 0 := by
            refine Space.read_of_not_mem (fun cell hc e' => ?_)
            have := Idx.before_trans b (Space.before_of_mem hw.2.1 hw.2.2 cell hc)
            rw [e', Idx.not_before_self] at this
            exact absurd this (by simp)
          simp [Space.write, Space.read, hx, e, b, hr]
        · simp [Space.write, Space.read, hx, e, b]
      · simp [Space.write, Space.read, e, b, ih hw.2.2]

/-- What every element reads after a write. -/
theorem Space.read_write {m : Space} (hw : m.wf = true) (i j : Idx) (x : Num) :
    (m.write i x).read j = if j = i then x else m.read j := by
  by_cases h : j = i
  · subst h; simp [Space.read_write_same _ _ hw]
  · simp [h, Space.read_write_other m x h]

/-! ### Every operation keeps the canonical form -/

theorem Space.startsAfter_write {m : Space} {k i : Idx} (x : Num) (hs : m.startsAfter k = true)
    (hki : k.before i = true) (hw : m.wf = true) : (m.write i x).startsAfter k = true := by
  cases m with
  | nil => by_cases hx : x = 0 <;> simp [Space.write, Space.startsAfter, hx, hki]
  | cons head rest =>
    obtain ⟨k', v'⟩ := head
    rw [Space.wf_cons] at hw
    simp only [Space.startsAfter] at hs
    by_cases e : i = k'
    · subst e
      by_cases hx : x = 0
      · simp only [Space.write, hx, if_true]
        cases rest with
        | nil => rfl
        | cons h2 r2 =>
          exact Idx.before_trans hs (Space.before_of_mem hw.2.1 hw.2.2 h2 (by simp))
      · simp [Space.write, Space.startsAfter, hx, hki]
    · by_cases b : i.before k' = true
      · by_cases hx : x = 0 <;> simp [Space.write, Space.startsAfter, hx, e, b, hki, hs]
      · simp [Space.write, Space.startsAfter, e, b, hs]

/-- A write keeps the canonical form. -/
theorem Space.write_wf {m : Space} (i : Idx) (x : Num) (hw : m.wf = true) : (m.write i x).wf = true := by
  induction m with
  | nil => by_cases hx : x = 0 <;> simp [Space.write, Space.wf, Space.startsAfter, hx]
  | cons head rest ih =>
    obtain ⟨k, v⟩ := head
    have hw' := hw
    rw [Space.wf_cons] at hw'
    by_cases e : i = k
    · subst e
      by_cases hx : x = 0
      · simp [Space.write, hx, hw'.2.2]
      · simp only [Space.write, hx, if_true, if_false]
        exact (Space.wf_cons _ _ _).mpr ⟨hx, hw'.2⟩
    · by_cases b : i.before k = true
      · by_cases hx : x = 0
        · simp [Space.write, hx, e, b, hw]
        · simp only [Space.write, hx, e, b, if_true, if_false]
          exact (Space.wf_cons _ _ _).mpr ⟨hx, b, hw⟩
      · simp only [Space.write, e, b, if_false]
        refine (Space.wf_cons _ _ _).mpr ⟨hw'.1, ?_, ih hw'.2.2⟩
        exact Space.startsAfter_write x hw'.2.1 (Idx.before_or_after e (by simpa using b)) hw'.2.2

/-- A cell after a write was there before, or is the one written. -/
theorem Space.mem_write {m : Space} {i : Idx} {x : Num} {cell : Idx × Num} (h : cell ∈ m.write i x) :
    cell = (i, x) ∨ cell ∈ m := by
  induction m with
  | nil =>
    by_cases hx : x = 0
    · simp [Space.write, hx] at h
    · simp only [Space.write, hx, if_false, List.mem_singleton] at h
      exact .inl h
  | cons head rest ih =>
    obtain ⟨k, v⟩ := head
    by_cases e : i = k
    · by_cases hx : x = 0
      · simp only [Space.write, e, hx, if_true] at h
        exact .inr (List.mem_cons_of_mem _ h)
      · simp only [Space.write, e, hx, if_true, if_false, List.mem_cons] at h
        rcases h with h | h
        · exact .inl (by rw [e]; exact h)
        · exact .inr (List.mem_cons_of_mem _ h)
    · by_cases b : i.before k = true
      · by_cases hx : x = 0
        · simp only [Space.write, e, b, hx, if_true, if_false] at h
          exact .inr h
        · simp only [Space.write, e, b, hx, if_true, if_false] at h
          rcases List.mem_cons.mp h with h | h
          · exact .inl h
          · exact .inr h
      · simp only [Space.write, e, b, if_false] at h
        rcases List.mem_cons.mp h with h | h
        · exact .inr (by rw [h]; simp)
        · rcases ih h with h | h
          · exact .inl h
          · exact .inr (List.mem_cons_of_mem _ h)

/-- A write of an element that exists keeps an array canonical and within its physical extent. -/
theorem Space.write_ok {hw : CfgHW} {m : Space} {c i : Nat} (x : Num) (h : m.Ok hw)
    (he : outExists hw c i = true) : (m.write (c, i) x).Ok hw := by
  refine ⟨Space.write_wf _ _ h.1, fun cell hc => ?_⟩
  rcases Space.mem_write hc with rfl | hc
  · exact he
  · exact h.2 cell hc

theorem Space.nil_ok (hw : CfgHW) : Space.Ok hw [] := ⟨rfl, by simp⟩

/-- Two canonical arrays whose elements read alike are the same list. -/
theorem Space.ext_of_read {m m' : Space} (hw : m.wf = true) (hw' : m'.wf = true)
    (h : ∀ i, m.read i = m'.read i) : m = m' := by
  induction m generalizing m' with
  | nil =>
    cases m' with
    | nil => rfl
    | cons head rest =>
      obtain ⟨k, v⟩ := head
      rw [Space.wf_cons] at hw'
      exact absurd (h k) (by simpa [Space.read] using hw'.1.symm)
  | cons head rest ih =>
    obtain ⟨k, v⟩ := head
    rw [Space.wf_cons] at hw
    cases m' with
    | nil => exact absurd (h k) (by simpa [Space.read] using hw.1)
    | cons head' rest' =>
      obtain ⟨k', v'⟩ := head'
      have hwc := hw'
      rw [Space.wf_cons] at hw'
      have hk : k = k' := by
        by_contra hne
        rcases Bool.eq_false_or_eq_true (k.before k') with b | b
        · have h1 : Space.read ((k', v') :: rest') k = 0 :=
            Space.read_of_startsAfter (by simpa [Space.startsAfter] using b) hwc
          have h2 := h k
          rw [h1] at h2
          exact hw.1 (by simpa [Space.read] using h2)
        · have b' := Idx.before_or_after hne b
          have h1 : Space.read ((k, v) :: rest) k' = 0 :=
            Space.read_of_startsAfter (by simpa [Space.startsAfter] using b')
              ((Space.wf_cons _ _ _).mpr hw)
          have h2 := h k'
          rw [h1] at h2
          exact hw'.1 (by simpa [Space.read] using h2.symm)
      subst hk
      have hv : v = v' := by simpa [Space.read] using h k
      subst hv
      have hr : rest = rest' := by
        refine ih hw.2.2 hw'.2.2 (fun i => ?_)
        by_cases e : i = k
        · subst e
          rw [Space.read_of_startsAfter hw.2.1 hw.2.2, Space.read_of_startsAfter hw'.2.1 hw'.2.2]
        · simpa [Space.read, e] using h i
      rw [hr]

/-- A canonical array whose every element reads 0 lists nothing. -/
theorem Space.eq_nil_of_read {m : Space} (hw : m.wf = true) (h : ∀ i, m.read i = 0) : m = [] :=
  Space.ext_of_read hw rfl (fun i => by rw [h i]; rfl)

/-! ### The array at launch -/

theorem Space.ofWrites_append (ws : List (Idx × Num)) (w : Idx × Num) :
    Space.ofWrites (ws ++ [w]) = (Space.ofWrites ws).write w.1 w.2 := by
  simp [Space.ofWrites]

/-- Any list of writes, from the array of zeros, leaves a canonical array. -/
theorem Space.ofWrites_wf (ws : List (Idx × Num)) : (Space.ofWrites ws).wf = true := by
  induction ws using List.reverseRecOn with
  | nil => rfl
  | append_singleton ws w ih => rw [Space.ofWrites_append]; exact Space.write_wf _ _ ih

theorem Space.ofWrites_ok {hw : CfgHW} {ws : List (Idx × Num)}
    (h : ∀ w ∈ ws, outExists hw w.1.1 w.1.2 = true) : (Space.ofWrites ws).Ok hw := by
  induction ws using List.reverseRecOn with
  | nil => exact Space.nil_ok hw
  | append_singleton ws w ih =>
    rw [Space.ofWrites_append]
    exact Space.write_ok _ (ih (fun w' hw' => h w' (by simp [hw']))) (h w (by simp))

/-- `OUT` at launch, whatever the host left there, is canonical and lists only elements that exist. -/
theorem launchOut_ok (hw : CfgHW) : (launchOut hw).Ok hw :=
  Space.ofWrites_ok (by simp)

/-- The reset state's `OUT` is canonical. -/
theorem reset_out_wf : State.reset.out.wf = true := (launchOut_ok Config.hw).1

end Sys2Proof.Machine
end

