-- ==== Sys2Proof/Laws/Loops.lean ====
section
/-! SUPPORT. The laws of the counted loop, and what a loop of writes leaves in an array. -/

namespace Sys2Proof.Machine

variable {α β : Type}

theorem forUpTo_zero (f : Nat → α → α) (a : α) : forUpTo 0 f a = a := rfl

theorem forUpTo_succ (n : Nat) (f : Nat → α → α) (a : α) : forUpTo (n + 1) f a = f n (forUpTo n f a) := rfl

/-- A property that every turn of the loop keeps. -/
theorem forUpTo_keeps {P : α → Prop} {f : Nat → α → α} {n : Nat} {a : α} (h0 : P a)
    (hs : ∀ i a, i < n → P a → P (f i a)) : P (forUpTo n f a) := by
  induction n with
  | zero => exact h0
  | succ m ih => exact hs m _ (Nat.lt_succ_self m) (ih (fun i a hi => hs i a (by omega)))

/-- A value that no turn of the loop changes. -/
theorem forUpTo_const {f : Nat → α → α} (g : α → β) {n : Nat} {a : α}
    (hs : ∀ i a, i < n → g (f i a) = g a) : g (forUpTo n f a) = g a :=
  forUpTo_keeps (P := fun b => g b = g a) rfl (fun i b hi hb => (hs i b hi).trans hb)

/-- Two loops whose turns agree. -/
theorem forUpTo_congr {f g : Nat → α → α} {n : Nat} (h : ∀ i a, i < n → f i a = g i a) (a : α) :
    forUpTo n f a = forUpTo n g a := by
  induction n with
  | zero => rfl
  | succ m ih => rw [forUpTo_succ, forUpTo_succ, ih (fun i a hi => h i a (by omega)), h m _ (Nat.lt_succ_self m)]

/-- A loop of `m + n` turns is a loop of `m` turns, then one of `n` more. -/
theorem forUpTo_add (m n : Nat) (f : Nat → α → α) (a : α) :
    forUpTo (m + n) f a = forUpTo n (fun i => f (m + i)) (forUpTo m f a) := by
  induction n with
  | zero => rfl
  | succ k ih => rw [← Nat.add_assoc, forUpTo_succ, ih, forUpTo_succ]

/-- A loop whose turns all do the same: the first turn can be taken out in front. -/
theorem forUpTo_same_succ (n : Nat) (f : α → α) (a : α) :
    forUpTo (n + 1) (fun _ => f) a = forUpTo n (fun _ => f) (f a) := by
  rw [Nat.add_comm, forUpTo_add]; rfl

/-! ### Loops of writes -/

/-- A loop that writes, at each turn, one element computed from the array as it stands keeps the canonical form. -/
theorem forUpTo_write_wf {n : Nat} (at_ : Nat → Idx) (val : Nat → Space → Num) {m : Space} (hw : m.wf = true) :
    (forUpTo n (fun i m => m.write (at_ i) (val i m)) m).wf = true :=
  forUpTo_keeps (P := fun m => Space.wf m = true) hw (fun _ _ _ h => Space.write_wf _ _ h)

/-- An element that the loop never writes keeps its value. -/
theorem forUpTo_write_other {n : Nat} {at_ : Nat → Idx} (val : Nat → Space → Num) (m : Space) {j : Idx}
    (hj : ∀ i, i < n → j ≠ at_ i) :
    (forUpTo n (fun i m => m.write (at_ i) (val i m)) m).read j = m.read j :=
  forUpTo_const (fun m => m.read j) (fun i m hi => Space.read_write_other m _ (hj i hi))

/-- An element that the loop writes once holds what its turn computed, if that turn's value depends only on the
element's own value before. -/
theorem forUpTo_write_at {n : Nat} {at_ : Nat → Idx} {val : Nat → Space → Num} {m : Space} {k : Nat} {w : Num → Num}
    (hw : m.wf = true) (hk : k < n) (hinj : ∀ i j, i < n → j < n → at_ i = at_ j → i = j)
    (hval : ∀ m : Space, val k m = w (m.read (at_ k))) :
    (forUpTo n (fun i m => m.write (at_ i) (val i m)) m).read (at_ k) = w (m.read (at_ k)) := by
  induction n with
  | zero => omega
  | succ p ih =>
    rw [forUpTo_succ]
    by_cases e : k = p
    · subst e
      rw [Space.read_write_same _ _ (forUpTo_write_wf at_ val hw), hval,
        forUpTo_write_other val m (fun i hi h => by have := hinj k i (by omega) (by omega) h; omega)]
    · rw [Space.read_write_other _ _ (fun h => e (hinj k p (by omega) (by omega) h))]
      exact ih (by omega) (fun i j hi hj => hinj i j (by omega) (by omega))

/-- A loop of writes of elements that exist keeps an array within its physical extent. -/
theorem forUpTo_write_ok {hw : CfgHW} {n : Nat} {at_ : Nat → Idx} (val : Nat → Space → Num) {m : Space} (h : m.Ok hw)
    (he : ∀ i, i < n → outExists hw (at_ i).1 (at_ i).2 = true) :
    (forUpTo n (fun i m => m.write (at_ i) (val i m)) m).Ok hw :=
  forUpTo_keeps (P := fun m => Space.Ok hw m) h (fun i _ hi hm => Space.write_ok _ hm (he i hi))

end Sys2Proof.Machine
end

