-- ==== Sys2Proof/Laws/Arrays.lean ====
section
/-! SUPPORT. What each loop over an array leaves in it: the fan-out and the clear of an operator, the phase-modulation
input, the mix of a voice, and the accumulation into `OUT`. -/

namespace Sys2Proof.Machine

/-- `Except` for the elements of sample `i` in the first `ch` channels, which all take the value, a fan-out changes
nothing (43_operator.md R166). -/
theorem fanOut_read {m : Space} (hw : m.wf = true) (ch i : Nat) (v : Num) (c j : Nat) :
    (fanOut ch i v m).read (c, j) = if c < ch ∧ j = i then v else m.read (c, j) := by
  unfold fanOut
  by_cases h : c < ch ∧ j = i
  · obtain ⟨hc, rfl⟩ := h
    rw [if_pos ⟨hc, rfl⟩]
    exact forUpTo_write_at (at_ := fun c => (c, j)) (val := fun _ _ => v) (w := fun _ => v) (k := c) hw hc
      (fun a b _ _ e => (Prod.mk.inj e).1) (fun _ => rfl)
  · rw [if_neg h]
    exact forUpTo_write_other (at_ := fun c => (c, i)) (fun _ _ => v) m
      (fun k hk e => h ⟨by rw [(Prod.mk.inj e).1]; exact hk, (Prod.mk.inj e).2⟩)

theorem fanOut_wf {m : Space} (hw : m.wf = true) (ch i : Nat) (v : Num) : (fanOut ch i v m).wf = true :=
  forUpTo_write_wf (fun c => (c, i)) (fun _ _ => v) hw

theorem fanOut_ok {hw : CfgHW} {m : Space} (h : m.Ok hw) {ch i : Nat} (v : Num) (hch : ch ≤ 255)
    (hi : i < hw.maxblkLimit) : (fanOut ch i v m).Ok hw :=
  forUpTo_write_ok (at_ := fun c => (c, i)) (fun _ _ => v) h
    (fun c hc => by simp only [outExists, Bool.and_eq_true, decide_eq_true_eq]; omega)

/-- What the clear of the input leaves (43_operator.md R165). -/
theorem clearPm_read {m : Space} (hw : m.wf = true) (blk c j : Nat) :
    (clearPm blk m).read (c, j) = if c = 0 ∧ j < blk then 0 else m.read (c, j) := by
  unfold clearPm
  by_cases h : c = 0 ∧ j < blk
  · obtain ⟨rfl, hj⟩ := h
    rw [if_pos ⟨rfl, hj⟩]
    exact forUpTo_write_at (at_ := fun i => (0, i)) (val := fun _ _ => 0) (w := fun _ => 0) (k := j) hw hj
      (fun a b _ _ e => (Prod.mk.inj e).2) (fun _ => rfl)
  · rw [if_neg h]
    exact forUpTo_write_other (at_ := fun i => (0, i)) (fun _ _ => 0) m
      (fun k hk e => h ⟨(Prod.mk.inj e).1, by rw [(Prod.mk.inj e).2]; exact hk⟩)

theorem clearPm_wf {m : Space} (hw : m.wf = true) (blk : Nat) : (clearPm blk m).wf = true :=
  forUpTo_write_wf (fun i => (0, i)) (fun _ _ => 0) hw

/-- Clearing an input that is all zero leaves it as it is. -/
theorem clearPm_nil (blk : Nat) : clearPm blk [] = [] :=
  forUpTo_keeps (P := fun m => m = []) rfl (fun i m _ h => by rw [h]; simp [Space.write])

/-- An input that only the used part of the buffer fills is all zero after the clear. -/
theorem clearPm_eq_nil {m : Space} (hw : m.wf = true) {blk : Nat}
    (h : ∀ c j, ¬ (c = 0 ∧ j < blk) → m.read (c, j) = 0) : clearPm blk m = [] := by
  refine Space.eq_nil_of_read (clearPm_wf hw blk) (fun i => ?_)
  obtain ⟨c, j⟩ := i
  rw [clearPm_read hw]
  by_cases hb : c = 0 ∧ j < blk
  · rw [if_pos hb]
  · rw [if_neg hb, h c j hb]

theorem clearPm_ok {hw : CfgHW} {m : Space} (h : m.Ok hw) {blk : Nat} (hb : blk ≤ hw.maxblkLimit) :
    (clearPm blk m).Ok hw :=
  forUpTo_write_ok (at_ := fun i => (0, i)) (fun _ _ => 0) h
    (fun i hi => by simp only [outExists, Bool.and_eq_true, decide_eq_true_eq]; omega)

/-- What an operator's input holds after another operator has been added to it (43_operator.md R167). -/
theorem addPmSource_pm_read {o : Operator} (hw : o.pm.wf = true) (x : Ctx) (other : Operator) (c j : Nat) :
    (o.addPmSource x other).pm.read (c, j) =
      if c = 0 ∧ j < x.blk then o.pm.read (c, j) + channelMean x.ch j other.out else o.pm.read (c, j) := by
  unfold Operator.addPmSource
  by_cases h : c = 0 ∧ j < x.blk
  · obtain ⟨rfl, hj⟩ := h
    rw [if_pos ⟨rfl, hj⟩]
    exact forUpTo_write_at (at_ := fun i => (0, i))
      (val := fun i m => m.read (0, i) + channelMean x.ch i other.out)
      (w := fun a => a + channelMean x.ch j other.out) (k := j) hw hj
      (fun a b _ _ e => (Prod.mk.inj e).2) (fun _ => rfl)
  · rw [if_neg h]
    exact forUpTo_write_other (at_ := fun i => (0, i))
      (fun i m => m.read (0, i) + channelMean x.ch i other.out) o.pm
      (fun k hk e => h ⟨(Prod.mk.inj e).1, by rw [(Prod.mk.inj e).2]; exact hk⟩)

theorem addPmSource_pm_wf {o : Operator} (hw : o.pm.wf = true) (x : Ctx) (other : Operator) :
    (o.addPmSource x other).pm.wf = true :=
  forUpTo_write_wf (fun i => (0, i)) (fun i m => m.read (0, i) + channelMean x.ch i other.out) hw

theorem addPmSource_pm_ok {hw : CfgHW} {o : Operator} (h : o.pm.Ok hw) {x : Ctx} (other : Operator)
    (hb : x.blk ≤ hw.maxblkLimit) : (o.addPmSource x other).pm.Ok hw :=
  forUpTo_write_ok (at_ := fun i => (0, i)) (fun i m => m.read (0, i) + channelMean x.ch i other.out) h
    (fun i hi => by simp only [outExists, Bool.and_eq_true, decide_eq_true_eq]; omega)

/-- Adding a source changes an operator's input alone. -/
theorem addPmSource_rest (x : Ctx) (o other : Operator) :
    (o.addPmSource x other).clock = o.clock ∧ (o.addPmSource x other).env = o.env ∧
      (o.addPmSource x other).lastOutput = o.lastOutput ∧ (o.addPmSource x other).out = o.out :=
  ⟨rfl, rfl, rfl, rfl⟩

/-- The mean over channels that all hold the same value is that value (43_operator.md R167). -/
theorem channelMean_of_same {ch i : Nat} {m : Space} {v : Num} (hch : 0 < ch) (h : ∀ c, c < ch → m.read (c, i) = v) :
    channelMean ch i m = v := by
  have hs : ∀ n, n ≤ ch → forUpTo n (fun c s => s + m.read (c, i)) (0 : Num) = (n : Num) * v := by
    intro n
    induction n with
    | zero => intro _; simp [forUpTo_zero]
    | succ k ih =>
      intro hk
      rw [forUpTo_succ, ih (by omega), h k (by omega)]
      push_cast
      ring
  have h0 : (ch : Num) ≠ 0 := by exact_mod_cast (by omega : ch ≠ 0)
  rw [channelMean, hs ch (le_refl _)]
  field_simp

/-! ### Two nested loops of writes: a rectangle of channels and samples -/

/-- A loop over samples inside a loop over channels: what an element of the rectangle holds, when each turn's value
depends only on the element's own value before, and that no element outside it changes. -/
theorem forUpTo_rect_read {ch n : Nat} {start : Nat} {val : Nat → Nat → Space → Num} {m : Space} {w : Nat → Nat → Num → Num}
    (hw : m.wf = true) (hval : ∀ c i (m : Space), val c i m = w c i (m.read (c, start + i))) (c j : Nat) :
    (forUpTo ch (fun c m => forUpTo n (fun i m => m.write (c, start + i) (val c i m)) m) m).read (c, j) =
      (if c < ch ∧ start ≤ j ∧ j < start + n then w c (j - start) (m.read (c, j)) else m.read (c, j)) ∧
    (forUpTo ch (fun c m => forUpTo n (fun i m => m.write (c, start + i) (val c i m)) m) m).wf = true := by
  induction ch with
  | zero => exact ⟨by simp [forUpTo_zero], hw⟩
  | succ p ih =>
    obtain ⟨ih1, ih2⟩ := ih
    rw [forUpTo_succ]
    refine ⟨?_, forUpTo_write_wf (fun i => (p, start + i)) (val p) ih2⟩
    generalize forUpTo p (fun c m => forUpTo n (fun i m => m.write (c, start + i) (val c i m)) m) m = m' at ih1 ih2
    by_cases hc : c = p
    · subst hc
      rw [if_neg (by omega)] at ih1
      by_cases hj : start ≤ j ∧ j < start + n
      · rw [if_pos ⟨by omega, hj⟩]
        have := forUpTo_write_at (at_ := fun i => (c, start + i)) (val := val c) (w := w c (j - start)) (k := j - start)
          ih2 (by omega : j - start < n) (fun a b _ _ e => by have := (Prod.mk.inj e).2; omega)
          (fun m => hval c (j - start) m)
        rw [show start + (j - start) = j by omega] at this
        rw [this, ih1]
      · rw [if_neg (fun h => hj h.2)]
        rw [forUpTo_write_other (at_ := fun i => (c, start + i)) (val c) m' (fun i hi e => by
          have := (Prod.mk.inj e).2; omega), ih1]
    · rw [forUpTo_write_other (at_ := fun i => (p, start + i)) (val p) m' (fun i hi e => hc (Prod.mk.inj e).1), ih1]
      by_cases h : c < p ∧ start ≤ j ∧ j < start + n
      · rw [if_pos h, if_pos ⟨by omega, h.2⟩]
      · rw [if_neg h, if_neg (fun h' => h ⟨by omega, h'.2⟩)]

/-- What a voice's block holds after the mix (44_voice.md R189). -/
theorem mixBlock_read {m : Space} (hw : m.wf = true) (x : Ctx) (n : Nat) (e : Num) (ops : List Operator) (c j : Nat) :
    (mixBlock x n e ops m).read (c, j) =
      if c < x.ch ∧ j < n then mixFrom x.params (c, j) 0 0 ops * e else m.read (c, j) := by
  have h := (forUpTo_rect_read (ch := x.ch) (n := n) (start := 0)
    (val := fun c i _ => mixFrom x.params (c, i) 0 0 ops * e)
    (w := fun c i _ => mixFrom x.params (c, i) 0 0 ops * e) hw (fun _ _ _ => rfl) c j).1
  simp only [Nat.zero_add, Nat.zero_le, true_and, Nat.sub_zero] at h
  exact h

theorem mixBlock_wf {m : Space} (hw : m.wf = true) (x : Ctx) (n : Nat) (e : Num) (ops : List Operator) :
    (mixBlock x n e ops m).wf = true :=
  forUpTo_keeps (P := fun m => Space.wf m = true) hw (fun c _ _ hm =>
    forUpTo_write_wf (fun i => (c, i)) (fun i _ => mixFrom x.params (c, i) 0 0 ops * e) hm)

theorem mixBlock_ok {hw : CfgHW} {m : Space} (h : m.Ok hw) {x : Ctx} {n : Nat} (e : Num) (ops : List Operator)
    (hch : x.ch ≤ 255) (hn : n ≤ hw.maxblkLimit) : (mixBlock x n e ops m).Ok hw :=
  forUpTo_keeps (P := fun m => Space.Ok hw m) h (fun c _ hc hm =>
    forUpTo_write_ok (at_ := fun i => (c, i)) (fun i _ => mixFrom x.params (c, i) 0 0 ops * e) hm
      (fun i hi => by simp only [outExists, Bool.and_eq_true, decide_eq_true_eq]; omega))

/-- The weighted sum with a start value is the start value plus the sum (44_voice.md R189). -/
theorem mixFrom_add (p : Params) (i : Idx) (k : Nat) (s : Num) (ops : List Operator) :
    mixFrom p i k s ops = s + mixFrom p i k 0 ops := by
  induction ops generalizing k s with
  | nil => simp [mixFrom]
  | cons o rest ih =>
    simp only [mixFrom]
    rw [ih, ih (s := 0 + _)]
    ring

/-- The weighted sum, operator by operator. -/
theorem mixFrom_eq_sum (p : Params) (i : Idx) (k : Nat) (ops : List Operator) :
    mixFrom p i k 0 ops =
      ((List.range ops.length).map (fun j => p.read (.mix (k + j)) * (ops[j]?.elim 0 (fun o => o.out.read i)))).sum := by
  induction ops generalizing k with
  | nil => simp [mixFrom]
  | cons o rest ih =>
    simp only [mixFrom]
    rw [mixFrom_add, ih, List.length_cons, List.range_succ_eq_map]
    simp only [List.map_cons, List.sum_cons, List.map_map, Nat.add_zero, List.getElem?_cons_zero, Option.elim_some,
      zero_add]
    congr 2
    apply List.map_congr_left
    intro j _
    simp [Nat.add_assoc, Nat.add_comm 1 j]

/-- What one voice's block adds to `OUT` (45_voice_pool.md R222). -/
theorem accumulateVoice_read {out : Space} (hw : out.wf = true) (ch n start : Nat) (vout : Space) (c j : Nat) :
    (accumulateVoice ch n start vout out).read (c, j) = out.read (c, j) +
      if c < ch ∧ start ≤ j ∧ j < start + n then vout.read (c, j - start) else 0 := by
  have h := (forUpTo_rect_read (ch := ch) (n := n) (start := start)
    (val := fun c i m => Space.read m (c, start + i) + vout.read (c, i))
    (w := fun c i a => a + vout.read (c, i)) hw (fun _ _ _ => rfl) c j).1
  unfold accumulateVoice accumulate
  rw [h]
  by_cases hb : c < ch ∧ start ≤ j ∧ j < start + n
  · rw [if_pos hb, if_pos hb]
  · rw [if_neg hb, if_neg hb, add_zero]

theorem accumulateVoice_wf {out : Space} (hw : out.wf = true) (ch n start : Nat) (vout : Space) :
    (accumulateVoice ch n start vout out).wf = true :=
  forUpTo_keeps (P := fun m => Space.wf m = true) hw (fun c _ _ hm =>
    forUpTo_write_wf (fun j => (c, start + j)) (fun j m => m.read (c, start + j) + vout.read (c, j)) hm)

theorem accumulateVoice_ok {hw : CfgHW} {out : Space} (h : out.Ok hw) {ch n start : Nat} (vout : Space)
    (hch : ch ≤ 255) (hn : start + n ≤ hw.maxblkLimit) : (accumulateVoice ch n start vout out).Ok hw :=
  forUpTo_keeps (P := fun m => Space.Ok hw m) h (fun c _ hc hm =>
    forUpTo_write_ok (at_ := fun j => (c, start + j)) (fun j m => m.read (c, start + j) + vout.read (c, j)) hm
      (fun i hi => by simp only [outExists, Bool.and_eq_true, decide_eq_true_eq]; omega))

/-- What all active voices together add to `OUT` (45_voice_pool.md R222). -/
theorem accumulateActive_read {out : Space} (hw : out.wf = true) (ch n start : Nat) (voices : List Voice)
    (active : List Nat) (c j : Nat) :
    (accumulateActive ch n start voices active out).read (c, j) = out.read (c, j) +
        (if c < ch ∧ start ≤ j ∧ j < start + n then
          (active.map (fun v => (voices[v]?).elim 0 (fun w => w.vout.read (c, j - start)))).sum else 0) ∧
      (accumulateActive ch n start voices active out).wf = true := by
  induction active generalizing out with
  | nil => exact ⟨by simp [accumulateActive], hw⟩
  | cons v rest ih =>
    have hv := accumulateVoice_wf hw ch n start ((voices[v]?).elim [] Voice.vout)
    obtain ⟨h1, h2⟩ := ih hv
    refine ⟨?_, h2⟩
    change (accumulateActive ch n start voices rest _).read (c, j) = _
    rw [h1, accumulateVoice_read hw]
    by_cases hb : c < ch ∧ start ≤ j ∧ j < start + n
    · simp only [if_pos hb, List.map_cons, List.sum_cons]
      cases voices[v]? with
      | none => simp [Space.read]
      | some w => simp only [Option.elim_some]; ring
    · simp only [if_neg hb, add_zero]

theorem accumulateActive_ok {hw : CfgHW} {out : Space} (h : out.Ok hw) {ch n start : Nat} (voices : List Voice)
    (active : List Nat) (hch : ch ≤ 255) (hn : start + n ≤ hw.maxblkLimit) :
    (accumulateActive ch n start voices active out).Ok hw := by
  induction active generalizing out with
  | nil => exact h
  | cons v rest ih => exact ih (accumulateVoice_ok h _ hch hn)

end Sys2Proof.Machine
end

