-- ==== Sys2Proof/Laws/State.lean ====
section
/-! SUPPORT. One lemma per field per named update of the state: no later proof unfolds a record update. -/

namespace Sys2Proof.Machine

/-! ### A response -/

@[simp] theorem State.respond_hw (s : State) (v : Reg32) : (s.respond v).hw = s.hw := rfl
@[simp] theorem State.respond_params (s : State) (v : Reg32) : (s.respond v).params = s.params := rfl
@[simp] theorem State.respond_initd (s : State) (v : Reg32) : (s.respond v).initd = s.initd := rfl
@[simp] theorem State.respond_cfgSr (s : State) (v : Reg32) : (s.respond v).cfgSr = s.cfgSr := rfl
@[simp] theorem State.respond_cfgCh (s : State) (v : Reg32) : (s.respond v).cfgCh = s.cfgCh := rfl
@[simp] theorem State.respond_cfgMaxblk (s : State) (v : Reg32) : (s.respond v).cfgMaxblk = s.cfgMaxblk := rfl
@[simp] theorem State.respond_fault (s : State) (v : Reg32) : (s.respond v).fault = s.fault := rfl
@[simp] theorem State.respond_lastTarget (s : State) (v : Reg32) : (s.respond v).lastTarget = s.lastTarget := rfl
@[simp] theorem State.respond_pool (s : State) (v : Reg32) : (s.respond v).pool = s.pool := rfl
@[simp] theorem State.respond_voices (s : State) (v : Reg32) : (s.respond v).voices = s.voices := rfl
@[simp] theorem State.respond_out (s : State) (v : Reg32) : (s.respond v).out = s.out := rfl
@[simp] theorem State.respond_response (s : State) (v : Reg32) : (s.respond v).response = some ⟨false, v⟩ := rfl
@[simp] theorem State.respond_pending (s : State) (v : Reg32) : (s.respond v).pending = s.pending := rfl

/-! ### Taking an exception -/

@[simp] theorem State.raise_hw (s : State) (code : FaultCode) : (s.raise code).hw = s.hw := rfl
@[simp] theorem State.raise_params (s : State) (code : FaultCode) : (s.raise code).params = s.params := rfl
@[simp] theorem State.raise_initd (s : State) (code : FaultCode) : (s.raise code).initd = s.initd := rfl
@[simp] theorem State.raise_cfgSr (s : State) (code : FaultCode) : (s.raise code).cfgSr = s.cfgSr := rfl
@[simp] theorem State.raise_cfgCh (s : State) (code : FaultCode) : (s.raise code).cfgCh = s.cfgCh := rfl
@[simp] theorem State.raise_cfgMaxblk (s : State) (code : FaultCode) : (s.raise code).cfgMaxblk = s.cfgMaxblk := rfl
@[simp] theorem State.raise_fault (s : State) (code : FaultCode) : (s.raise code).fault = s.fault ||| code.mask := rfl
@[simp] theorem State.raise_lastTarget (s : State) (code : FaultCode) : (s.raise code).lastTarget = s.lastTarget := rfl
@[simp] theorem State.raise_pool (s : State) (code : FaultCode) : (s.raise code).pool = s.pool := rfl
@[simp] theorem State.raise_voices (s : State) (code : FaultCode) : (s.raise code).voices = s.voices := rfl
@[simp] theorem State.raise_out (s : State) (code : FaultCode) : (s.raise code).out = s.out := rfl
@[simp] theorem State.raise_response (s : State) (code : FaultCode) : (s.raise code).response = some ⟨true, BitVec.ofNat 32 code.bit⟩ := rfl
@[simp] theorem State.raise_pending (s : State) (code : FaultCode) : (s.raise code).pending = s.pending := rfl

/-! ### A dropped word -/

@[simp] theorem State.drop_hw (s : State) : (s.drop).hw = s.hw := rfl
@[simp] theorem State.drop_params (s : State) : (s.drop).params = s.params := rfl
@[simp] theorem State.drop_initd (s : State) : (s.drop).initd = s.initd := rfl
@[simp] theorem State.drop_cfgSr (s : State) : (s.drop).cfgSr = s.cfgSr := rfl
@[simp] theorem State.drop_cfgCh (s : State) : (s.drop).cfgCh = s.cfgCh := rfl
@[simp] theorem State.drop_cfgMaxblk (s : State) : (s.drop).cfgMaxblk = s.cfgMaxblk := rfl
@[simp] theorem State.drop_fault (s : State) : (s.drop).fault = s.fault := rfl
@[simp] theorem State.drop_lastTarget (s : State) : (s.drop).lastTarget = s.lastTarget := rfl
@[simp] theorem State.drop_pool (s : State) : (s.drop).pool = s.pool := rfl
@[simp] theorem State.drop_voices (s : State) : (s.drop).voices = s.voices := rfl
@[simp] theorem State.drop_out (s : State) : (s.drop).out = s.out := rfl
@[simp] theorem State.drop_response (s : State) : (s.drop).response = some ⟨true, 31#32⟩ := rfl
@[simp] theorem State.drop_pending (s : State) : (s.drop).pending = s.pending := rfl

/-! ### Reset -/

@[simp] theorem State.hardReset_hw (s : State) : (s.hardReset).hw = s.hw := rfl
@[simp] theorem State.hardReset_params (s : State) : (s.hardReset).params = Params.zero s.hw.nOps := rfl
@[simp] theorem State.hardReset_initd (s : State) : (s.hardReset).initd = false := rfl
@[simp] theorem State.hardReset_cfgSr (s : State) : (s.hardReset).cfgSr = 0 := rfl
@[simp] theorem State.hardReset_cfgCh (s : State) : (s.hardReset).cfgCh = 0 := rfl
@[simp] theorem State.hardReset_cfgMaxblk (s : State) : (s.hardReset).cfgMaxblk = 0 := rfl
@[simp] theorem State.hardReset_fault (s : State) : (s.hardReset).fault = 0 := rfl
@[simp] theorem State.hardReset_lastTarget (s : State) : (s.hardReset).lastTarget = 0xFFFFFFFF#32 := rfl
@[simp] theorem State.hardReset_pool (s : State) : (s.hardReset).pool = Pool.parked s.hw.maxVoices := rfl
@[simp] theorem State.hardReset_voices (s : State) : (s.hardReset).voices = List.replicate s.hw.maxVoices (Voice.fresh s.hw.nOps) := rfl
@[simp] theorem State.hardReset_out (s : State) : (s.hardReset).out = s.out := rfl
@[simp] theorem State.hardReset_response (s : State) : (s.hardReset).response = none := rfl
@[simp] theorem State.hardReset_pending (s : State) : (s.hardReset).pending = s.pending := rfl

/-! ### INIT -/

@[simp] theorem State.initialised_hw (s : State) (ch : BitVec 8) (poly : BitVec 16) (sr maxblk : BitVec 32) : (s.initialised ch poly sr maxblk).hw = s.hw := rfl
@[simp] theorem State.initialised_params (s : State) (ch : BitVec 8) (poly : BitVec 16) (sr maxblk : BitVec 32) : (s.initialised ch poly sr maxblk).params = s.params := rfl
@[simp] theorem State.initialised_initd (s : State) (ch : BitVec 8) (poly : BitVec 16) (sr maxblk : BitVec 32) : (s.initialised ch poly sr maxblk).initd = true := rfl
@[simp] theorem State.initialised_cfgSr (s : State) (ch : BitVec 8) (poly : BitVec 16) (sr maxblk : BitVec 32) : (s.initialised ch poly sr maxblk).cfgSr = sr := rfl
@[simp] theorem State.initialised_cfgCh (s : State) (ch : BitVec 8) (poly : BitVec 16) (sr maxblk : BitVec 32) : (s.initialised ch poly sr maxblk).cfgCh = ch := rfl
@[simp] theorem State.initialised_cfgMaxblk (s : State) (ch : BitVec 8) (poly : BitVec 16) (sr maxblk : BitVec 32) : (s.initialised ch poly sr maxblk).cfgMaxblk = maxblk := rfl
@[simp] theorem State.initialised_fault (s : State) (ch : BitVec 8) (poly : BitVec 16) (sr maxblk : BitVec 32) : (s.initialised ch poly sr maxblk).fault = s.fault := rfl
@[simp] theorem State.initialised_lastTarget (s : State) (ch : BitVec 8) (poly : BitVec 16) (sr maxblk : BitVec 32) : (s.initialised ch poly sr maxblk).lastTarget = 0xFFFFFFFF#32 := rfl
@[simp] theorem State.initialised_pool (s : State) (ch : BitVec 8) (poly : BitVec 16) (sr maxblk : BitVec 32) : (s.initialised ch poly sr maxblk).pool = (Pool.parked s.hw.maxVoices).resize poly.toNat := rfl
@[simp] theorem State.initialised_voices (s : State) (ch : BitVec 8) (poly : BitVec 16) (sr maxblk : BitVec 32) : (s.initialised ch poly sr maxblk).voices = List.replicate s.hw.maxVoices (Voice.fresh s.hw.nOps) := rfl
@[simp] theorem State.initialised_out (s : State) (ch : BitVec 8) (poly : BitVec 16) (sr maxblk : BitVec 32) : (s.initialised ch poly sr maxblk).out = s.out := rfl
@[simp] theorem State.initialised_response (s : State) (ch : BitVec 8) (poly : BitVec 16) (sr maxblk : BitVec 32) : (s.initialised ch poly sr maxblk).response = s.response := rfl
@[simp] theorem State.initialised_pending (s : State) (ch : BitVec 8) (poly : BitVec 16) (sr maxblk : BitVec 32) : (s.initialised ch poly sr maxblk).pending = s.pending := rfl

/-! ### A note-on -/

@[simp] theorem State.poolNoteOn_hw (s : State) (ev : Event) : (s.poolNoteOn ev).hw = s.hw := rfl
@[simp] theorem State.poolNoteOn_params (s : State) (ev : Event) : (s.poolNoteOn ev).params = s.params := rfl
@[simp] theorem State.poolNoteOn_initd (s : State) (ev : Event) : (s.poolNoteOn ev).initd = s.initd := rfl
@[simp] theorem State.poolNoteOn_cfgSr (s : State) (ev : Event) : (s.poolNoteOn ev).cfgSr = s.cfgSr := rfl
@[simp] theorem State.poolNoteOn_cfgCh (s : State) (ev : Event) : (s.poolNoteOn ev).cfgCh = s.cfgCh := rfl
@[simp] theorem State.poolNoteOn_cfgMaxblk (s : State) (ev : Event) : (s.poolNoteOn ev).cfgMaxblk = s.cfgMaxblk := rfl
@[simp] theorem State.poolNoteOn_fault (s : State) (ev : Event) : (s.poolNoteOn ev).fault = s.fault := rfl
@[simp] theorem State.poolNoteOn_lastTarget (s : State) (ev : Event) : (s.poolNoteOn ev).lastTarget = word32 (noteOnTarget s.voices s.pool) := rfl
@[simp] theorem State.poolNoteOn_pool (s : State) (ev : Event) : (s.poolNoteOn ev).pool = { s.pool with age := agesGrown (s.poolNoteOn ev).voices s.pool.active (ageRestarted s.hw (noteOnTarget s.voices s.pool) s.pool.age) } := rfl
@[simp] theorem State.poolNoteOn_voices (s : State) (ev : Event) : (s.poolNoteOn ev).voices = modifyActive s.pool.active (noteOnTarget s.voices s.pool) (fun v => v.noteOn s.ctx ev) s.voices := rfl
@[simp] theorem State.poolNoteOn_out (s : State) (ev : Event) : (s.poolNoteOn ev).out = s.out := rfl
@[simp] theorem State.poolNoteOn_response (s : State) (ev : Event) : (s.poolNoteOn ev).response = some ⟨false, word32 (noteOnTarget s.voices s.pool)⟩ := rfl
@[simp] theorem State.poolNoteOn_pending (s : State) (ev : Event) : (s.poolNoteOn ev).pending = s.pending := rfl

/-! ### A note-off -/

@[simp] theorem State.noteOffEvent_hw (s : State) (e : Event) : (s.noteOffEvent e).hw = s.hw := rfl
@[simp] theorem State.noteOffEvent_params (s : State) (e : Event) : (s.noteOffEvent e).params = s.params := rfl
@[simp] theorem State.noteOffEvent_initd (s : State) (e : Event) : (s.noteOffEvent e).initd = s.initd := rfl
@[simp] theorem State.noteOffEvent_cfgSr (s : State) (e : Event) : (s.noteOffEvent e).cfgSr = s.cfgSr := rfl
@[simp] theorem State.noteOffEvent_cfgCh (s : State) (e : Event) : (s.noteOffEvent e).cfgCh = s.cfgCh := rfl
@[simp] theorem State.noteOffEvent_cfgMaxblk (s : State) (e : Event) : (s.noteOffEvent e).cfgMaxblk = s.cfgMaxblk := rfl
@[simp] theorem State.noteOffEvent_fault (s : State) (e : Event) : (s.noteOffEvent e).fault = s.fault := rfl
@[simp] theorem State.noteOffEvent_lastTarget (s : State) (e : Event) : (s.noteOffEvent e).lastTarget = s.lastTarget := rfl
@[simp] theorem State.noteOffEvent_pool (s : State) (e : Event) : (s.noteOffEvent e).pool = s.pool := rfl
@[simp] theorem State.noteOffEvent_voices (s : State) (e : Event) : (s.noteOffEvent e).voices = forActive s.pool.active (fun v => v.noteOff s.ctx e) s.voices := rfl
@[simp] theorem State.noteOffEvent_out (s : State) (e : Event) : (s.noteOffEvent e).out = s.out := rfl
@[simp] theorem State.noteOffEvent_response (s : State) (e : Event) : (s.noteOffEvent e).response = s.response := rfl
@[simp] theorem State.noteOffEvent_pending (s : State) (e : Event) : (s.noteOffEvent e).pending = s.pending := rfl

/-! ### A render of a block that is not empty -/

theorem State.poolRender_empty (s : State) {a b : Nat} (h : b - a = 0) : s.poolRender a b = s := by
  simp [State.poolRender, h]

theorem State.poolRender_block (s : State) {a b : Nat} (h : b - a ≠ 0) :
    s.poolRender a b =
      { s with
        voices := forActive s.pool.active (fun v => v.render s.ctx (b - a)) s.voices
        out := accumulateActive s.ctx.ch (b - a) a
          (forActive s.pool.active (fun v => v.render s.ctx (b - a)) s.voices) s.pool.active s.out } := by
  simp [State.poolRender, h]

@[simp] theorem State.poolRender_hw (s : State) (a b : Nat) : (s.poolRender a b).hw = s.hw := by
  unfold State.poolRender; dsimp only; split <;> rfl
@[simp] theorem State.poolRender_params (s : State) (a b : Nat) : (s.poolRender a b).params = s.params := by
  unfold State.poolRender; dsimp only; split <;> rfl
@[simp] theorem State.poolRender_initd (s : State) (a b : Nat) : (s.poolRender a b).initd = s.initd := by
  unfold State.poolRender; dsimp only; split <;> rfl
@[simp] theorem State.poolRender_cfgSr (s : State) (a b : Nat) : (s.poolRender a b).cfgSr = s.cfgSr := by
  unfold State.poolRender; dsimp only; split <;> rfl
@[simp] theorem State.poolRender_cfgCh (s : State) (a b : Nat) : (s.poolRender a b).cfgCh = s.cfgCh := by
  unfold State.poolRender; dsimp only; split <;> rfl
@[simp] theorem State.poolRender_cfgMaxblk (s : State) (a b : Nat) : (s.poolRender a b).cfgMaxblk = s.cfgMaxblk := by
  unfold State.poolRender; dsimp only; split <;> rfl
@[simp] theorem State.poolRender_fault (s : State) (a b : Nat) : (s.poolRender a b).fault = s.fault := by
  unfold State.poolRender; dsimp only; split <;> rfl
@[simp] theorem State.poolRender_lastTarget (s : State) (a b : Nat) : (s.poolRender a b).lastTarget = s.lastTarget := by
  unfold State.poolRender; dsimp only; split <;> rfl
@[simp] theorem State.poolRender_pool (s : State) (a b : Nat) : (s.poolRender a b).pool = s.pool := by
  unfold State.poolRender; dsimp only; split <;> rfl
@[simp] theorem State.poolRender_response (s : State) (a b : Nat) : (s.poolRender a b).response = s.response := by
  unfold State.poolRender; dsimp only; split <;> rfl
@[simp] theorem State.poolRender_pending (s : State) (a b : Nat) : (s.poolRender a b).pending = s.pending := by
  unfold State.poolRender; dsimp only; split <;> rfl

/-! ### A presented word -/

@[simp] theorem State.withFetchWord_hw (s : State) (nbits w : Nat) : (s.withFetchWord nbits w).hw = s.hw := rfl
@[simp] theorem State.withFetchWord_params (s : State) (nbits w : Nat) : (s.withFetchWord nbits w).params = s.params := rfl
@[simp] theorem State.withFetchWord_initd (s : State) (nbits w : Nat) : (s.withFetchWord nbits w).initd = s.initd := rfl
@[simp] theorem State.withFetchWord_cfgSr (s : State) (nbits w : Nat) : (s.withFetchWord nbits w).cfgSr = s.cfgSr := rfl
@[simp] theorem State.withFetchWord_cfgCh (s : State) (nbits w : Nat) : (s.withFetchWord nbits w).cfgCh = s.cfgCh := rfl
@[simp] theorem State.withFetchWord_cfgMaxblk (s : State) (nbits w : Nat) : (s.withFetchWord nbits w).cfgMaxblk = s.cfgMaxblk := rfl
@[simp] theorem State.withFetchWord_fault (s : State) (nbits w : Nat) : (s.withFetchWord nbits w).fault = s.fault := rfl
@[simp] theorem State.withFetchWord_lastTarget (s : State) (nbits w : Nat) : (s.withFetchWord nbits w).lastTarget = s.lastTarget := rfl
@[simp] theorem State.withFetchWord_pool (s : State) (nbits w : Nat) : (s.withFetchWord nbits w).pool = s.pool := rfl
@[simp] theorem State.withFetchWord_voices (s : State) (nbits w : Nat) : (s.withFetchWord nbits w).voices = s.voices := rfl
@[simp] theorem State.withFetchWord_out (s : State) (nbits w : Nat) : (s.withFetchWord nbits w).out = s.out := rfl
@[simp] theorem State.withFetchWord_response (s : State) (nbits w : Nat) : (s.withFetchWord nbits w).response = s.response := rfl
@[simp] theorem State.withFetchWord_pending (s : State) (nbits w : Nat) : (s.withFetchWord nbits w).pending = .command (tableWord nbits w) :: s.pending := rfl

/-! ### The guards of a command -/

theorem State.unlessHalted_run (s body : State) (h : s.fault = 0) : s.unlessHalted body = body := by
  rw [State.unlessHalted, if_pos h]

theorem State.unlessHalted_drop (s body : State) (h : s.fault ≠ 0) : s.unlessHalted body = s.drop := by
  rw [State.unlessHalted, if_neg h]

theorem State.ifInitialised_run (s body : State) (h : s.initd = true) : s.ifInitialised body = body := by
  simp [State.ifInitialised, h]

theorem State.ifInitialised_raise (s body : State) (h : s.initd = false) :
    s.ifInitialised body = s.raise .notInitialized := by
  simp [State.ifInitialised, h]

/-- A guarded command is dropped, or runs. -/
theorem State.unlessHalted_cases (s body : State) :
    (s.fault ≠ 0 ∧ s.unlessHalted body = s.drop) ∨ (s.fault = 0 ∧ s.unlessHalted body = body) := by
  by_cases h : s.fault = 0
  · exact .inr ⟨h, s.unlessHalted_run body h⟩
  · exact .inl ⟨h, s.unlessHalted_drop body h⟩

/-- A command that needs an INIT raises, or runs. -/
theorem State.ifInitialised_cases (s body : State) :
    (s.initd = false ∧ s.ifInitialised body = s.raise .notInitialized) ∨
      (s.initd = true ∧ s.ifInitialised body = body) := by
  cases h : s.initd
  · exact .inl ⟨rfl, s.ifInitialised_raise body h⟩
  · exact .inr ⟨rfl, s.ifInitialised_run body h⟩

/-! ### The snapshot a command reads -/

@[simp] theorem State.ctx_hw (s : State) : s.ctx.hw = s.hw := rfl
@[simp] theorem State.ctx_params (s : State) : s.ctx.params = s.params := rfl
@[simp] theorem State.ctx_sr (s : State) : s.ctx.sr = (s.cfgSr.toNat : Num) := rfl
@[simp] theorem State.ctx_ch (s : State) : s.ctx.ch = s.cfgCh.toNat := rfl
@[simp] theorem State.ctx_blk (s : State) : s.ctx.blk = s.cfgMaxblk.toNat := rfl

end Sys2Proof.Machine
end

