-- ==== Sys2Proof/Laws/Signal.lean ====
section
/-! SUPPORT. The laws of the clock, the oscillator, the envelope and the operator. -/

namespace Sys2Proof.Machine

/-! ### Wrap and clock -/

theorem wrap1_eq_fract (x : Num) : wrap1 x = Int.fract x := rfl

theorem wrap1_nonneg (x : Num) : 0 ≤ wrap1 x := Int.fract_nonneg x

theorem wrap1_lt_one (x : Num) : wrap1 x < 1 := Int.fract_lt_one x

theorem wrap1_add_int (x : Num) (k : Int) : wrap1 (x + (k : Num)) = wrap1 x := Int.fract_add_intCast x k

/-- A wrap inside a sum is absorbed by the wrap around it. -/
theorem wrap1_wrap1_add (x y : Num) : wrap1 (wrap1 x + y) = wrap1 (x + y) := by
  have h : x + y = wrap1 x + y + ((⌊x⌋ : Int) : Num) := by unfold wrap1; ring
  rw [h, wrap1_add_int]

theorem wrap1_of_unit {x : Num} (h0 : 0 ≤ x) (h1 : x < 1) : wrap1 x = x := Int.fract_eq_self.mpr ⟨h0, h1⟩

/-- Where the phase stands while an offset is folded in with a wrap (40_clock.md R105). -/
theorem addPhaseOffset_mcounter (c : Clock) (d : Num) :
    (c.addPhaseOffset d true).mcounter =
      wrap1 (c.mcounter + (if 0 < c.phaseInc then d else if c.phaseInc < 0 then -d else 0)) := by
  unfold Clock.addPhaseOffset Clock.foldOffset Clock.wrap
  by_cases hp : 0 < c.phaseInc
  · simp [hp]
  · by_cases hn : c.phaseInc < 0 <;> simp [hp, hn, sub_eq_add_neg]

/-- Folding an offset in changes neither the frequency nor the unused frequency offset. -/
theorem addPhaseOffset_rest (c : Clock) (d : Num) (w : Bool) :
    (c.addPhaseOffset d w).phaseInc = c.phaseInc ∧ (c.addPhaseOffset d w).freqOffset = c.freqOffset := by
  unfold Clock.addPhaseOffset Clock.foldOffset Clock.wrap
  split_ifs <;> exact ⟨rfl, rfl⟩

/-- After one sample's add, remove and advance a settled clock has moved by its frequency alone (43_operator.md R165). -/
theorem sample_clock {c : Clock} (h : c.Settled) (d : Num) :
    ((c.addPhaseOffset d true).removePhaseOffset).advanceWrap 1 =
      { c with mcounter := wrap1 (c.mcounter + c.phaseInc) } := by
  obtain ⟨m, inc, off, fo⟩ := c
  obtain ⟨h0, h1, h2, h3⟩ := h
  simp only at h0 h1 h2 h3
  subst h2; subst h3
  unfold Clock.addPhaseOffset Clock.foldOffset Clock.wrap Clock.removePhaseOffset Clock.unfolded Clock.advanceWrap
  by_cases hp : 0 < inc
  · simp only [hp, if_true, Clock.mk.injEq, zero_add, one_mul, and_true]
    rw [wrap1_wrap1_add, sub_eq_add_neg, add_assoc, wrap1_wrap1_add]
    congr 1; ring
  · by_cases hn : inc < 0
    · simp only [hp, hn, if_true, if_false, Clock.mk.injEq, zero_add, one_mul, and_true]
      rw [wrap1_wrap1_add, add_assoc, wrap1_wrap1_add]
      congr 1; ring
    · simp only [hp, hn, if_true, if_false, Clock.mk.injEq, one_mul, and_true]
      rw [wrap1_wrap1_add, wrap1_wrap1_add]

/-- Whatever the clock was, one sample leaves its phase in [0, 1) and no offset folded in. -/
theorem sample_clock_bounds (c : Clock) (d : Num) :
    let c' := ((c.addPhaseOffset d true).removePhaseOffset).advanceWrap 1
    0 ≤ c'.mcounter ∧ c'.mcounter < 1 ∧ c'.phaseOffset = 0 ∧ c'.freqOffset = c.freqOffset ∧ c'.phaseInc = c.phaseInc :=
  ⟨wrap1_nonneg _, wrap1_lt_one _, rfl, (addPhaseOffset_rest c d true).2, (addPhaseOffset_rest c d true).1⟩

/-! ### The oscillator -/

/-- The table index counts modulo the length. -/
theorem tableAt_add_length (sine : List Num) (i k : Int) : tableAt sine (i + k * (sine.length : Int)) = tableAt sine i := by
  unfold tableAt
  rw [Int.add_mul_emod_self_right]

/-- The phase counts modulo 1 (41_oscillator.md R122). -/
theorem oscRead_add_int (sine : List Num) (p : Num) (k : Int) : oscRead sine (p + (k : Num)) = oscRead sine p := by
  have h : (p + (k : Num)) * (sine.length : Num) = p * (sine.length : Num) + ((k * (sine.length : Int) : Int) : Num) := by
    push_cast; ring
  simp only [oscRead]
  rw [h, Int.floor_add_intCast, tableAt_add_length,
    show ⌊p * (sine.length : Num)⌋ + k * (sine.length : Int) + 1 = ⌊p * (sine.length : Num)⌋ + 1 + k * (sine.length : Int) by ring,
    tableAt_add_length]
  push_cast
  ring

theorem oscRead_wrap1 (sine : List Num) (p : Num) : oscRead sine (wrap1 p) = oscRead sine p := by
  have := oscRead_add_int sine (wrap1 p) ⌊p⌋
  rw [show wrap1 p + ((⌊p⌋ : Int) : Num) = p by unfold wrap1; ring] at this
  exact this.symm

/-- Every table read is an entry, within [-1, 1] (41_oscillator.md R120). -/
theorem tableAt_bound {hw : CfgHW} (h : hw.SineOk) (i : Int) : -1 ≤ tableAt hw.sine i ∧ tableAt hw.sine i ≤ 1 := by
  have hL : (0 : Int) < (hw.sine.length : Int) := by exact_mod_cast h.1
  have h1 := Int.emod_lt_of_pos i hL
  have h0 := Int.emod_nonneg i (ne_of_gt hL)
  have hlt : (i % (hw.sine.length : Int)).toNat < hw.sine.length := by omega
  unfold tableAt
  rw [List.getD_eq_getElem _ _ hlt]
  exact h.2.1 _ (List.getElem_mem hlt)

/-- A value between two numbers of [-1, 1]. -/
theorem between_bound {a b f : Num} (ha : -1 ≤ a ∧ a ≤ 1) (hb : -1 ≤ b ∧ b ≤ 1) (h0 : 0 ≤ f) (h1 : f ≤ 1) :
    -1 ≤ a + f * (b - a) ∧ a + f * (b - a) ≤ 1 := by
  constructor <;> nlinarith [mul_nonneg h0 (sub_nonneg.mpr hb.1), mul_nonneg h0 (sub_nonneg.mpr hb.2),
    mul_nonneg (sub_nonneg.mpr h1) (sub_nonneg.mpr ha.1), mul_nonneg (sub_nonneg.mpr h1) (sub_nonneg.mpr ha.2)]

/-! ### The envelope -/

theorem segStep_nonneg {t sr : Num} (ht : 0 ≤ t) (hs : 0 ≤ sr) : 0 ≤ segStep t sr := by
  unfold segStep
  split_ifs
  · exact le_refl _
  · exact div_nonneg (by norm_num) (mul_nonneg ht hs)

theorem Env.advances_zero (p : Params) (sr : Num) (e : Env) : e.advances p sr 0 = e := rfl

theorem Env.advances_succ (p : Params) (sr : Num) (n : Nat) (e : Env) :
    e.advances p sr (n + 1) = (e.advances p sr n).advance p sr := rfl

/-- The first advance can be taken out in front. -/
theorem Env.advances_succ' (p : Params) (sr : Num) (n : Nat) (e : Env) :
    e.advances p sr (n + 1) = (e.advance p sr).advances p sr n :=
  forUpTo_same_succ n (fun e : Env => e.advance p sr) e

/-- The value of a block that is not empty is the level after one advance (42_envelope.md R142). -/
theorem Env.renderValue_pos (p : Params) (sr : Num) {n : Nat} (h : n ≠ 0) (e : Env) :
    e.renderValue p sr n = (e.advance p sr).outputValue := by
  simp [Env.renderValue, h]

/-- The states an advance can lead to (42_envelope.md R143). -/
theorem Env.advance_state (p : Params) (sr : Num) (e : Env) :
    (e.advance p sr).state = e.state ∨
      (e.state = .attack ∧ (e.advance p sr).state = .decay) ∨
      (e.state = .decay ∧ (e.advance p sr).state = .sustain) ∨
      ((e.state = .release ∨ e.state = .shutdown) ∧ e.advance p sr = Env.toOff) := by
  unfold Env.advance
  cases h : e.state <;> simp only [h] <;> (try split_ifs) <;> simp

/-- An attack that goes on (42_envelope.md R138). -/
theorem advance_attack_on {p : Params} {o i : Num} (h : o + i < 1) (ha : p.attackMs ≠ 0) (sr : Num) :
    (⟨.attack, o, i⟩ : Env).advance p sr = ⟨.attack, o + i, i⟩ :=
  if_neg (fun c => c.elim (fun hc => absurd h (not_lt.mpr hc)) ha)

/-- An attack that reaches its end (42_envelope.md R138). -/
theorem advance_attack_end {p : Params} {o i : Num} (h : 1 ≤ o + i ∨ p.attackMs = 0) (sr : Num) :
    (⟨.attack, o, i⟩ : Env).advance p sr = ⟨.decay, 1, - segStep p.decayMs sr⟩ :=
  if_pos h

/-- A decay that goes on (42_envelope.md R139). -/
theorem advance_decay_on {p : Params} {o i : Num} (h : p.sustain < o + i) (hd : p.decayMs ≠ 0) (sr : Num) :
    (⟨.decay, o, i⟩ : Env).advance p sr = ⟨.decay, o + i, i⟩ :=
  if_neg (fun c => c.elim (fun hc => absurd h (not_lt.mpr hc)) hd)

/-- A decay that reaches its end (42_envelope.md R139). -/
theorem advance_decay_end {p : Params} {o i : Num} (h : o + i ≤ p.sustain ∨ p.decayMs = 0) (sr : Num) :
    (⟨.decay, o, i⟩ : Env).advance p sr = ⟨.sustain, p.sustain, 0⟩ :=
  if_pos h

/-- A release that goes on (42_envelope.md R140). -/
theorem advance_release_on {p : Params} {o i : Num} (h : 0 < o + i) (hr : p.releaseMs ≠ 0) (sr : Num) :
    (⟨.release, o, i⟩ : Env).advance p sr = ⟨.release, o + i, i⟩ :=
  if_neg (fun c => c.elim (fun hc => absurd h (not_lt.mpr hc)) hr)

/-- A release that reaches its end (42_envelope.md R140). -/
theorem advance_release_end {p : Params} {o i : Num} (h : o + i ≤ 0 ∨ p.releaseMs = 0) (sr : Num) :
    (⟨.release, o, i⟩ : Env).advance p sr = Env.toOff :=
  if_pos h

/-- A shutdown that goes on (42_envelope.md R141). -/
theorem advance_shutdown_on {o i : Num} (h : 0 < o + i) (p : Params) (sr : Num) :
    (⟨.shutdown, o, i⟩ : Env).advance p sr = ⟨.shutdown, o + i, i⟩ :=
  if_neg (not_le.mpr h)

/-- A shutdown that reaches its end (42_envelope.md R141). -/
theorem advance_shutdown_end {o i : Num} (h : o + i ≤ 0) (p : Params) (sr : Num) :
    (⟨.shutdown, o, i⟩ : Env).advance p sr = Env.toOff :=
  if_pos h

/-! ### The operator -/

/-- One sample changes neither the input nor the envelope. -/
theorem renderSample_rest (x : Ctx) (sm : Bool) (index : Num) (i : Nat) (o : Operator) :
    (o.renderSample x sm index i).pm = o.pm ∧ (o.renderSample x sm index i).env = o.env := ⟨rfl, rfl⟩

/-- The samples of a render change neither the input nor the envelope. -/
theorem renderSamples_rest (x : Ctx) (n : Nat) (sm : Bool) (index : Num) (o : Operator) :
    (o.renderSamples x n sm index).pm = o.pm ∧ (o.renderSamples x n sm index).env = o.env :=
  forUpTo_keeps (P := fun o' : Operator => o'.pm = o.pm ∧ o'.env = o.env) ⟨rfl, rfl⟩ (fun _ _ _ h => h)

theorem renderSamples_succ (x : Ctx) (n : Nat) (sm : Bool) (index : Num) (o : Operator) :
    o.renderSamples x (n + 1) sm index = (o.renderSamples x n sm index).renderSample x sm index n := rfl

theorem renderSamples_out_wf {o : Operator} (hw : o.out.wf = true) (x : Ctx) (n : Nat) (sm : Bool) (index : Num) :
    (o.renderSamples x n sm index).out.wf = true :=
  forUpTo_keeps (P := fun o' : Operator => o'.out.wf = true) hw (fun _ _ _ h => fanOut_wf h _ _ _)

/-- What each sample of a render holds: the value its turn read, in every channel; the rest of the output is as it
was (43_operator.md R165, R166). -/
theorem renderSamples_out_read {o : Operator} (hw : o.out.wf = true) (x : Ctx) (n : Nat) (sm : Bool) (index : Num)
    (c j : Nat) :
    (o.renderSamples x n sm index).out.read (c, j) =
      if c < x.ch ∧ j < n then (o.renderSamples x j sm index).sampleAt x sm index j else o.out.read (c, j) := by
  induction n with
  | zero => simp [Operator.renderSamples, forUpTo_zero]
  | succ k ih =>
    rw [renderSamples_succ]
    change (fanOut x.ch k _ (o.renderSamples x k sm index).out).read (c, j) = _
    rw [fanOut_read (renderSamples_out_wf hw x k sm index), ih]
    by_cases hc : c < x.ch
    · by_cases hj : j = k
      · subst hj; simp [hc]
      · by_cases hjk : j < k
        · simp [hc, hj, hjk, Nat.lt_succ_of_lt hjk]
        · simp [hj, hjk, show ¬ j < k + 1 by omega]
    · simp [hc]

/-- What a render leaves (43_operator.md R165). -/
theorem render_eq (x : Ctx) (n : Nat) (sm : Bool) (index : Num) (o : Operator) :
    (o.render x n sm index).clock = (o.renderSamples x n sm index).clock ∧
      (o.render x n sm index).env = o.env ∧
      (o.render x n sm index).lastOutput = (o.renderSamples x n sm index).lastOutput ∧
      (o.render x n sm index).pm = clearPm x.blk o.pm ∧
      (o.render x n sm index).out = (o.renderSamples x n sm index).out := by
  have h := renderSamples_rest x n sm index o
  refine ⟨rfl, h.2, rfl, ?_, rfl⟩
  change clearPm x.blk (o.renderSamples x n sm index).pm = _
  rw [h.1]

/-- The clock of a settled operator during a render: it has moved by its frequency alone, whatever the modulation
(70_reset_and_hazards.md R296). -/
theorem renderSamples_clock {o : Operator} (h : o.clock.Settled) (x : Ctx) (n : Nat) (sm : Bool) (index : Num) :
    (o.renderSamples x n sm index).clock =
      { o.clock with mcounter := wrap1 (o.clock.mcounter + (n : Num) * o.clock.phaseInc) } := by
  induction n with
  | zero =>
    have : wrap1 o.clock.mcounter = o.clock.mcounter := wrap1_of_unit h.1 h.2.1
    simp [Operator.renderSamples, forUpTo_zero, this]
  | succ k ih =>
    rw [renderSamples_succ]
    change (((o.renderSamples x k sm index).clock.addPhaseOffset _ true).removePhaseOffset).advanceWrap 1 = _
    rw [sample_clock (by rw [ih]; exact ⟨wrap1_nonneg _, wrap1_lt_one _, h.2.2.1, h.2.2.2⟩), ih]
    simp only [Clock.mk.injEq, and_true]
    rw [wrap1_wrap1_add]
    congr 1
    push_cast
    ring

/-- Whatever the operator was, each sample leaves its clock settled but for the unused frequency offset. -/
theorem renderSamples_settled {o : Operator} (h : o.clock.Settled) (x : Ctx) (n : Nat) (sm : Bool) (index : Num) :
    (o.renderSamples x n sm index).clock.Settled := by
  rw [renderSamples_clock h]
  exact ⟨wrap1_nonneg _, wrap1_lt_one _, h.2.2.1, h.2.2.2⟩

/-- What self-feedback reads as sample `i` starts: the sample before it of the same block, or, as the block starts, the
last output of the block before (43_operator.md R165). -/
theorem renderSamples_lastOutput {o : Operator} (hw : o.out.wf = true) (x : Ctx) {n i : Nat} (sm : Bool) (index : Num)
    {c : Nat} (hc : c < x.ch) (hi : i ≤ n) :
    (o.renderSamples x i sm index).lastOutput =
      if i = 0 then o.lastOutput else (o.renderSamples x n sm index).out.read (c, i - 1) := by
  cases i with
  | zero => rfl
  | succ k =>
    rw [if_neg (Nat.succ_ne_zero k), renderSamples_out_read hw, if_pos ⟨hc, by omega⟩, renderSamples_succ]
    rfl

/-- The sample a settled operator gives, in closed form, whatever modulates it (43_operator.md R165). -/
theorem render_sample {o : Operator} (h : o.clock.Settled) (hw : o.out.wf = true) (x : Ctx) (n : Nat) (sm : Bool)
    (index : Num) {c i : Nat} (hc : c < x.ch) (hi : i < n) :
    (o.render x n sm index).out.read (c, i) =
      sampleInClosedForm x.hw.sine o.clock.mcounter o.clock.phaseInc
        ((o.renderSamples x i sm index).offsetAt sm index i) i := by
  rw [(render_eq x n sm index o).2.2.2.2, renderSamples_out_read hw, if_pos ⟨hc, hi⟩]
  unfold Operator.sampleAt Operator.bentClock sampleInClosedForm
  rw [addPhaseOffset_mcounter, oscRead_wrap1, renderSamples_clock h]
  rw [← oscRead_wrap1, wrap1_wrap1_add, oscRead_wrap1]

end Sys2Proof.Machine
end

