-- ==== Sys2Proof/Laws/Voice.lean ====
section
/-! SUPPORT. The laws of the voice: what a trigger, a render and the steal check leave. -/

namespace Sys2Proof.Machine

/-! ### Playing -/

theorem Env.isPlaying_iff (e : Env) : e.isPlaying = true ↔ e.state ≠ .off := by
  simp [Env.isPlaying]

theorem Env.not_isPlaying_iff (e : Env) : e.isPlaying = false ↔ e.state = .off := by
  simp [Env.isPlaying]

theorem Voice.isPlaying_eq (v : Voice) : v.isPlaying = v.masterEnv.isPlaying := rfl

/-- A voice that plays is told to steal (44_voice.md R183). -/
theorem Voice.noteOn_of_playing {v : Voice} (h : v.masterEnv.state ≠ .off) (x : Ctx) (ev : Event) :
    v.noteOn x ev = v.steal x ev := by
  simp [Voice.noteOn, Voice.isPlaying, Env.isPlaying, h]

/-- A voice that does not play starts the note (44_voice.md R183). -/
theorem Voice.noteOn_of_off {v : Voice} (h : v.masterEnv.state = .off) (x : Ctx) (ev : Event) :
    v.noteOn x ev = v.startNote x ev := by
  simp [Voice.noteOn, Voice.isPlaying, Env.isPlaying, h]

/-- After a note-on the voice plays, whichever branch it took. -/
theorem Voice.noteOn_plays (v : Voice) (x : Ctx) (ev : Event) : (v.noteOn x ev).isPlaying = true := by
  unfold Voice.noteOn
  split <;> rfl

/-! ### The operators of a voice -/

/-- A property of operators that a trigger keeps. -/
theorem Voice.startNote_ops {P : Operator → Prop} {v : Voice} (x : Ctx) (ev : Event)
    (h : ∀ o ∈ v.ops, ∀ f, P (o.noteOn x f)) : ∀ o ∈ (v.startNote x ev).ops, P o := by
  intro o ho
  obtain ⟨k, hk, rfl⟩ := List.mem_mapIdx.mp ho
  exact h _ (List.getElem_mem hk) _

/-- A property of operators that a release keeps. -/
theorem Voice.releaseOps_ops {P : Operator → Prop} {v : Voice} (x : Ctx)
    (h : ∀ o ∈ v.ops, P (o.noteOff x)) : ∀ o ∈ (v.releaseOps x).ops, P o := by
  intro o ho
  obtain ⟨o', ho', rfl⟩ := List.mem_map.mp ho
  exact h _ ho'

/-- A property of operators that the refresh of the frequencies keeps. -/
theorem Voice.refresh_ops {P : Operator → Prop} {v : Voice} (x : Ctx)
    (h : ∀ o ∈ v.ops, ∀ f, P { o with clock := o.clock.setFreq f x.sr }) : ∀ o ∈ (v.refresh x).ops, P o := by
  intro o ho
  obtain ⟨k, hk, rfl⟩ := List.mem_mapIdx.mp ho
  exact h _ (List.getElem_mem hk) _

theorem Voice.refresh_length (v : Voice) (x : Ctx) : (v.refresh x).ops.length = v.ops.length := by
  simp [Voice.refresh]

/-! ### The chain -/

theorem renderChain_length (x : Ctx) (n : Nat) (prev : Option Operator) (k : Nat) (ops : List Operator) :
    (renderChain x n prev k ops).length = ops.length := by
  induction ops generalizing prev k with
  | nil => rfl
  | cons o rest ih => simp [renderChain, ih]

/-- Operator `j` of the chain: rendered after the one before it, as rendered, was added to its input
(44_voice.md R189). -/
theorem renderChain_get (x : Ctx) (n : Nat) (prev : Option Operator) (k : Nat) (ops : List Operator) (j : Nat) :
    (renderChain x n prev k ops)[j]? = (ops[j]?).map (fun o =>
      (o.fedBy x (if j = 0 then prev else (renderChain x n prev k ops)[j - 1]?)).render x n
        (x.hw.selfMod.getD (k + j) false) (x.params.read (.modIndex (k + j)))) := by
  induction ops generalizing prev k j with
  | nil => simp [renderChain]
  | cons o rest ih =>
    cases j with
    | zero => simp [renderChain]
    | succ i =>
      simp only [renderChain, List.getElem?_cons_succ]
      rw [ih]
      cases i with
      | zero => simp
      | succ l => simp [show k + 1 + (l + 1) = k + (l + 1 + 1) by ring]

/-- A property of operators that feeding and rendering keep holds of every operator of the chain. -/
theorem renderChain_keeps {P : Operator → Prop} (x : Ctx) (n : Nat) {prev : Option Operator} {k : Nat}
    {ops : List Operator} (h : ∀ o ∈ ops, P o)
    (hs : ∀ o prev sm index, P o → P ((o.fedBy x prev).render x n sm index)) :
    ∀ o ∈ renderChain x n prev k ops, P o := by
  induction ops generalizing prev k with
  | nil => simp [renderChain]
  | cons o rest ih =>
    intro o' ho'
    simp only [renderChain, List.mem_cons] at ho'
    rcases ho' with rfl | ho'
    · exact hs _ _ _ _ (h o (by simp))
    · exact ih (fun p hp => h p (List.mem_cons_of_mem _ hp)) o' ho'

theorem fedBy_rest (x : Ctx) (prev : Option Operator) (o : Operator) :
    (o.fedBy x prev).clock = o.clock ∧ (o.fedBy x prev).env = o.env ∧
      (o.fedBy x prev).lastOutput = o.lastOutput ∧ (o.fedBy x prev).out = o.out := by
  cases prev <;> exact ⟨rfl, rfl, rfl, rfl⟩

/-- Whatever feeds it, an operator whose input was all zero has an all-zero input after its render
(20_memory.md R62). -/
theorem fedBy_render_pm {o : Operator} (h : o.pm = []) (x : Ctx) (n : Nat) (prev : Option Operator) (sm : Bool)
    (index : Num) : ((o.fedBy x prev).render x n sm index).pm = [] := by
  rw [(render_eq x n sm index _).2.2.2.1]
  cases prev with
  | none => simp only [Operator.fedBy, h, clearPm_nil]
  | some p =>
    have hw : o.pm.wf = true := by rw [h]; rfl
    refine clearPm_eq_nil (addPmSource_pm_wf hw x p) (fun c j hb => ?_)
    have := addPmSource_pm_read hw x p c j
    rw [if_neg hb, h] at this
    exact this

/-- Feeding and rendering keep a settled operator settled. -/
theorem fedBy_render_settled {o : Operator} (h : o.clock.Settled) (x : Ctx) (n : Nat) (prev : Option Operator)
    (sm : Bool) (index : Num) : ((o.fedBy x prev).render x n sm index).clock.Settled := by
  rw [(render_eq x n sm index _).1]
  exact renderSamples_settled (by rw [(fedBy_rest x prev o).1]; exact h) x n sm index

/-- Feeding and rendering keep an operator's own envelope (43_operator.md R169). -/
theorem fedBy_render_env (x : Ctx) (n : Nat) (prev : Option Operator) (sm : Bool) (index : Num) (o : Operator) :
    ((o.fedBy x prev).render x n sm index).env = o.env := by
  rw [(render_eq x n sm index _).2.1, (fedBy_rest x prev o).2.1]

/-- Feeding and rendering keep both arrays of an operator canonical and within the physical extent. -/
theorem fedBy_render_ok {hw : CfgHW} {o : Operator} (h : o.pm.Ok hw ∧ o.out.Ok hw) {x : Ctx} {n : Nat}
    (prev : Option Operator) (sm : Bool) (index : Num) (hch : x.ch ≤ 255) (hn : n ≤ hw.maxblkLimit)
    (hb : x.blk ≤ hw.maxblkLimit) :
    ((o.fedBy x prev).render x n sm index).pm.Ok hw ∧ ((o.fedBy x prev).render x n sm index).out.Ok hw := by
  have hp : (o.fedBy x prev).pm.Ok hw := by
    cases prev with
    | none => exact h.1
    | some p => exact addPmSource_pm_ok h.1 p hb
  have ho : (o.fedBy x prev).out.Ok hw := by rw [(fedBy_rest x prev o).2.2.2]; exact h.2
  refine ⟨?_, ?_⟩
  · rw [(render_eq x n sm index _).2.2.2.1]
    exact clearPm_ok hp hb
  · rw [(render_eq x n sm index _).2.2.2.2]
    exact forUpTo_keeps (P := fun o' : Operator => o'.out.Ok hw) ho (fun i _ hi h => fanOut_ok h _ hch (by omega))

/-! ### The steal check (44_voice.md R190) -/

/-- What the steal check does: nothing, unless the voice was stealing and its master envelope is Off; then the waiting
note starts, or the voice is free. -/
theorem Voice.stealCheck_cases (x : Ctx) (v : Voice) :
    (v.stealCheck x = v ∧ (v.isStealing = false ∨ v.masterEnv.state ≠ .off)) ∨
    (v.stealCheck x = v.finalize x ∧ v.isStealing = true ∧ v.masterEnv.state = .off ∧ v.pendingEvent = none) ∨
    (∃ ev, v.stealCheck x = (v.finalize x).startNote x ev ∧ v.isStealing = true ∧ v.masterEnv.state = .off ∧
      v.pendingEvent = some ev) := by
  unfold Voice.stealCheck
  by_cases hs : v.isStealing = true
  · by_cases ho : v.masterEnv.state = .off
    · have hp : v.isPlaying = false := by simp [Voice.isPlaying, Env.isPlaying, ho]
      rw [hs, hp]
      cases he : v.pendingEvent with
      | none => exact .inr (.inl ⟨rfl, rfl, ho, rfl⟩)
      | some ev =>
        refine .inr (.inr ⟨ev, ?_, rfl, ho, rfl⟩)
        exact Voice.noteOn_of_off (v := v.finalize x) ho x ev
    · have hp : v.isPlaying = true := by simp [Voice.isPlaying, Env.isPlaying, ho]
      rw [hs, hp]
      exact .inl ⟨rfl, .inr ho⟩
  · have hs' : v.isStealing = false := by simpa using hs
    rw [hs']
    exact .inl ⟨rfl, .inl rfl⟩

/-- The steal check leaves the voice's block and the operators' arrays alone. -/
theorem Voice.stealCheck_vout (x : Ctx) (v : Voice) : (v.stealCheck x).vout = v.vout := by
  rcases v.stealCheck_cases x with ⟨h, _⟩ | ⟨h, _⟩ | ⟨ev, h, _⟩ <;> rw [h] <;> rfl

/-- A property of operators that a release and a trigger keep survives the steal check. -/
theorem Voice.stealCheck_ops {P : Operator → Prop} {v : Voice} (x : Ctx) (h : ∀ o ∈ v.ops, P o)
    (hoff : ∀ o, P o → P (o.noteOff x)) (hon : ∀ o f, P o → P (o.noteOn x f)) : ∀ o ∈ (v.stealCheck x).ops, P o := by
  have hf : ∀ o ∈ (v.finalize x).ops, P o := Voice.releaseOps_ops x (fun o ho => hoff o (h o ho))
  rcases v.stealCheck_cases x with ⟨e, _⟩ | ⟨e, _⟩ | ⟨ev, e, _⟩ <;> rw [e]
  · exact h
  · exact hf
  · exact Voice.startNote_ops x ev (fun o ho f => hon o f (hf o ho))

theorem Voice.startNote_length (v : Voice) (x : Ctx) (ev : Event) :
    (v.startNote x ev).ops.length = v.ops.length := by
  simp [Voice.startNote]

theorem Voice.releaseOps_length (v : Voice) (x : Ctx) : (v.releaseOps x).ops.length = v.ops.length := by
  simp [Voice.releaseOps]

theorem Voice.finalize_length (v : Voice) (x : Ctx) : (v.finalize x).ops.length = v.ops.length :=
  v.releaseOps_length x

theorem Voice.stealCheck_length (x : Ctx) (v : Voice) : (v.stealCheck x).ops.length = v.ops.length := by
  rcases v.stealCheck_cases x with ⟨h, _⟩ | ⟨h, _⟩ | ⟨ev, h, _⟩ <;> rw [h]
  · exact v.finalize_length x
  · rw [Voice.startNote_length, Voice.finalize_length]

/-- The steal check changes no operator's output. -/
theorem Voice.stealCheck_out (x : Ctx) (v : Voice) (k : Nat) :
    ((v.stealCheck x).ops[k]?).map Operator.out = (v.ops[k]?).map Operator.out := by
  have hf : ((v.finalize x).ops[k]?).map Operator.out = (v.ops[k]?).map Operator.out := by
    simp only [Voice.finalize, Voice.releaseOps, List.getElem?_map, Option.map_map]
    rfl
  rcases v.stealCheck_cases x with ⟨h, _⟩ | ⟨h, _⟩ | ⟨ev, h, _⟩ <;> rw [h]
  · exact hf
  · rw [← hf]
    simp only [Voice.startNote, List.getElem?_mapIdx, Option.map_map]
    rfl

/-! ### Render (44_voice.md R189) -/

/-- What steps 1 to 4 of a render leave. -/
theorem Voice.renderBlock_eq (x : Ctx) (n : Nat) (v : Voice) :
    (v.renderBlock x n).ops = renderChain x n none 0 (v.refresh x).ops ∧
      (v.renderBlock x n).masterEnv = v.masterEnv.advances x.params x.sr n ∧
      (v.renderBlock x n).vout =
        mixBlock x n (v.masterEnv.renderValue x.params x.sr n) (renderChain x n none 0 (v.refresh x).ops) v.vout ∧
      (v.renderBlock x n).isStealing = v.isStealing ∧ (v.renderBlock x n).currentEvent = v.currentEvent ∧
      (v.renderBlock x n).pendingEvent = v.pendingEvent ∧ (v.renderBlock x n).note = v.note ∧
      (v.renderBlock x n).channel = v.channel ∧ (v.renderBlock x n).voiceId = v.voiceId :=
  ⟨rfl, rfl, rfl, rfl, rfl, rfl, rfl, rfl, rfl⟩

theorem Voice.render_length (x : Ctx) (n : Nat) (v : Voice) : (v.render x n).ops.length = v.ops.length := by
  rw [Voice.render, Voice.stealCheck_length, (v.renderBlock_eq x n).1, renderChain_length, Voice.refresh_length]

theorem Voice.render_vout (x : Ctx) (n : Nat) (v : Voice) :
    (v.render x n).vout =
      mixBlock x n (v.masterEnv.renderValue x.params x.sr n) (renderChain x n none 0 (v.refresh x).ops) v.vout := by
  rw [Voice.render, Voice.stealCheck_vout]; rfl

/-- A render's operators hold the outputs of the chain, whatever the steal check does (44_voice.md R189, R190). -/
theorem Voice.render_out (x : Ctx) (n : Nat) (v : Voice) (k : Nat) :
    ((v.render x n).ops[k]?).map Operator.out =
      ((renderChain x n none 0 (v.refresh x).ops)[k]?).map Operator.out :=
  Voice.stealCheck_out x (v.renderBlock x n) k

/-- A render that ends no steal leaves the operators of the chain (44_voice.md R189, R190). -/
theorem Voice.render_ops_of_no_steal {x : Ctx} {n : Nat} {v : Voice}
    (h : v.isStealing = false ∨ (v.masterEnv.advances x.params x.sr n).state ≠ .off) :
    (v.render x n).ops = renderChain x n none 0 (v.refresh x).ops := by
  rcases (v.renderBlock x n).stealCheck_cases x with ⟨e, _⟩ | ⟨_, hs, ho, _⟩ | ⟨_, _, hs, ho, _⟩
  · rw [Voice.render, e]; rfl
  · exact h.elim (fun h' => Bool.noConfusion (hs.symm.trans h')) (fun h' => absurd ho h')
  · exact h.elim (fun h' => Bool.noConfusion (hs.symm.trans h')) (fun h' => absurd ho h')

/-- What the operator before it adds to an operator's input of zeros: its samples, one for one, if they are the same in
every channel (43_operator.md R167). -/
theorem fedBy_pm_read {x : Ctx} {o : Operator} (h : o.pm = []) {prev : Option Operator} {c i : Nat} (hc : c < x.ch)
    (hi : i < x.blk) (hsame : ∀ p, prev = some p → ∀ c', c' < x.ch → p.out.read (c', i) = p.out.read (c, i)) :
    (o.fedBy x prev).pm.read (0, i) = prev.elim 0 (fun p => p.out.read (c, i)) := by
  cases prev with
  | none => simp [Operator.fedBy, h, Space.read]
  | some p =>
    change (o.addPmSource x p).pm.read (0, i) = _
    rw [addPmSource_pm_read (by rw [h]; rfl), if_pos ⟨rfl, hi⟩, h,
      channelMean_of_same (Nat.zero_lt_of_lt hc) (hsame p rfl)]
    simp [Space.read]

/-- A property of operators that the refresh, the chain, a release and a trigger keep survives a render. -/
theorem Voice.render_ops {P : Operator → Prop} {v : Voice} (x : Ctx) (n : Nat) (h : ∀ o ∈ v.ops, P o)
    (hfreq : ∀ o f, P o → P { o with clock := o.clock.setFreq f x.sr })
    (hren : ∀ o prev sm index, P o → P ((o.fedBy x prev).render x n sm index))
    (hoff : ∀ o, P o → P (o.noteOff x)) (hon : ∀ o f, P o → P (o.noteOn x f)) : ∀ o ∈ (v.render x n).ops, P o := by
  refine Voice.stealCheck_ops x ?_ hoff hon
  rw [(v.renderBlock_eq x n).1]
  exact renderChain_keeps x n (Voice.refresh_ops x (fun o ho f => hfreq o f (h o ho))) hren

/-! ### Note-off (44_voice.md R186) -/

/-- What a note-off does to a voice: nothing, a cancelled waiting note, or a release. -/
theorem Voice.noteOff_cases (x : Ctx) (e : Event) (v : Voice) :
    v.noteOff x e = v ∨ (v.isStealing = true ∧ v.noteOff x e = { v with pendingEvent := none }) ∨
      (v.isStealing = false ∧ v.noteOff x e = v.releaseNote x) := by
  unfold Voice.noteOff
  by_cases hs : v.isStealing = true
  · rw [if_pos hs]
    split
    · exact .inr (.inl ⟨hs, rfl⟩)
    · exact .inl rfl
  · rw [if_neg hs]
    split
    · exact .inr (.inr ⟨by simpa using hs, rfl⟩)
    · exact .inl rfl

theorem Voice.noteOff_length (x : Ctx) (e : Event) (v : Voice) : (v.noteOff x e).ops.length = v.ops.length := by
  rcases v.noteOff_cases x e with h | ⟨_, h⟩ | ⟨_, h⟩ <;> rw [h]
  exact v.releaseOps_length x

theorem Voice.noteOn_length (x : Ctx) (ev : Event) (v : Voice) : (v.noteOn x ev).ops.length = v.ops.length := by
  unfold Voice.noteOn
  split
  · rfl
  · exact v.startNote_length x ev

end Sys2Proof.Machine
end

