-- ==== Sys2Proof/Laws/VoicePool.lean ====
section
/-! SUPPORT. The laws of the voice pool: what a change of the active voices leaves, and what the resize loops do. -/

namespace Sys2Proof.Machine

/-! ### Changing active voices -/

theorem forActive_length (active : List Nat) (f : Voice → Voice) (voices : List Voice) :
    (forActive active f voices).length = voices.length := by
  induction active generalizing voices with
  | nil => rfl
  | cons v rest ih =>
    change (forActive rest f (voices.modify v f)).length = _
    rw [ih, List.length_modify]

/-- A voice that is not active is left alone (45_voice_pool.md R218). -/
theorem forActive_get_other {active : List Nat} {w : Nat} (h : w ∉ active) (f : Voice → Voice) (voices : List Voice) :
    (forActive active f voices)[w]? = voices[w]? := by
  induction active generalizing voices with
  | nil => rfl
  | cons v rest ih =>
    change (forActive rest f (voices.modify v f))[w]? = _
    rw [ih (fun hm => h (List.mem_cons_of_mem _ hm)), List.getElem?_modify]
    simp [show v ≠ w from fun e => h (by simp [e])]

/-- An active voice, listed once, is changed once. -/
theorem forActive_get {active : List Nat} (hn : active.Nodup) {w : Nat} (h : w ∈ active) (f : Voice → Voice)
    (voices : List Voice) : (forActive active f voices)[w]? = (voices[w]?).map f := by
  induction active generalizing voices with
  | nil => simp at h
  | cons v rest ih =>
    change (forActive rest f (voices.modify v f))[w]? = _
    obtain ⟨hv, hr⟩ := List.nodup_cons.mp hn
    by_cases e : w = v
    · subst e
      rw [forActive_get_other hv, List.getElem?_modify]
      simp
    · rw [ih hr (by simpa [e] using h), List.getElem?_modify]
      simp [Ne.symm e]

/-- A property of voices that the change keeps holds of every voice afterwards. -/
theorem forActive_keeps {P : Voice → Prop} {active : List Nat} {f : Voice → Voice} {voices : List Voice}
    (h : ∀ v ∈ voices, P v) (hf : ∀ v, P v → P (f v)) : ∀ v ∈ forActive active f voices, P v := by
  induction active generalizing voices with
  | nil => exact h
  | cons a rest ih =>
    refine ih (voices := voices.modify a f) (fun v hv => ?_)
    obtain ⟨i, hi⟩ := List.mem_iff_getElem?.mp hv
    rw [List.getElem?_modify] at hi
    obtain ⟨w, hw, rfl⟩ := Option.map_eq_some_iff.mp hi
    have hw' := h w (List.mem_of_getElem? hw)
    by_cases e : a = i
    · simpa [e] using hf w hw'
    · simpa [e] using hw'

theorem modifyActive_length (active : List Nat) (t : Nat) (f : Voice → Voice) (voices : List Voice) :
    (modifyActive active t f voices).length = voices.length := by
  unfold modifyActive
  split <;> simp

theorem modifyActive_get_other {active : List Nat} {w : Nat} (h : w ∉ active) (t : Nat) (f : Voice → Voice)
    (voices : List Voice) : (modifyActive active t f voices)[w]? = voices[w]? := by
  unfold modifyActive
  split
  · rfl
  · rename_i v hv
    rw [List.getElem?_modify]
    simp [show v ≠ w from fun e => h (by rw [← e]; exact List.mem_of_getElem? hv)]

theorem modifyActive_keeps {P : Voice → Prop} {active : List Nat} {t : Nat} {f : Voice → Voice} {voices : List Voice}
    (h : ∀ v ∈ voices, P v) (hf : ∀ v, P v → P (f v)) : ∀ v ∈ modifyActive active t f voices, P v := by
  unfold modifyActive
  split
  · exact h
  · rename_i a _
    intro v hv
    obtain ⟨i, hi⟩ := List.mem_iff_getElem?.mp hv
    rw [List.getElem?_modify] at hi
    obtain ⟨w, hw, rfl⟩ := Option.map_eq_some_iff.mp hi
    have hw' := h w (List.mem_of_getElem? hw)
    by_cases e : a = i
    · simpa [e] using hf w hw'
    · simpa [e] using hw'

/-! ### Ages -/

theorem ageRestarted_length (hw : CfgHW) (t : Nat) (age : List Nat) : (ageRestarted hw t age).length = age.length := by
  unfold ageRestarted
  split <;> simp

theorem agesGrown_length (voices : List Voice) (active age : List Nat) :
    (agesGrown voices active age).length = age.length := by
  simp [agesGrown]

/-- One age after the increment: one more for an active voice that plays (45_voice_pool.md R212). -/
theorem agesGrown_get (voices : List Voice) (active age : List Nat) (i : Nat) :
    (agesGrown voices active age)[i]? =
      (age[i]?).map (fun a => a + if (active[i]?).any (playingAt voices) then 1 else 0) := by
  unfold agesGrown
  rw [List.getElem?_mapIdx]
  cases age[i]? with
  | none => rfl
  | some a =>
    simp only [Option.map_some, Option.some.injEq]
    split <;> rfl

/-! ### Selection and resize -/

theorem oldest_lt {age : List Nat} (h : age ≠ []) : oldest age < age.length := by
  have hl : 0 < age.length := List.length_pos_of_ne_nil h
  exact forUpTo_keeps (P := fun t => t < age.length) hl (fun j t hj ht => by split <;> omega)

/-- One turn of the grow loop moves the first inactive voice to the end of the active list. -/
theorem growOne_cons {p : Pool} {v : Nat} {rest : List Nat} (h : p.inactive = v :: rest) :
    p.growOne = ⟨p.active ++ [v], p.age ++ [0], rest⟩ := by
  simp [Pool.growOne, h]

/-- One turn of the shrink loop parks the oldest active voice. -/
theorem shrinkOne_eq {p : Pool} {v : Nat} (h : p.active[oldest p.age]? = some v) :
    p.shrinkOne = ⟨p.active.eraseIdx (oldest p.age), p.age.eraseIdx (oldest p.age), p.inactive ++ [v]⟩ := by
  simp [Pool.shrinkOne, h]

/-- The grow loop keeps the pool's books: every voice number once, one age per active voice. -/
theorem growOne_consistent {m : Nat} {p : Pool} (h : p.Consistent m) : p.growOne.Consistent m := by
  cases hi : p.inactive with
  | nil => rw [show p.growOne = p by simp [Pool.growOne, hi]]; exact h
  | cons v rest =>
    rw [growOne_cons hi]
    refine ⟨by simp [h.1], ?_⟩
    have := h.2
    rw [hi] at this
    simpa using this

/-- The shrink loop keeps the pool's books. -/
theorem shrinkOne_consistent {m : Nat} {p : Pool} (h : p.Consistent m) : p.shrinkOne.Consistent m := by
  cases hv : p.active[oldest p.age]? with
  | none => rw [show p.shrinkOne = p by simp [Pool.shrinkOne, hv]]; exact h
  | some v =>
    rw [shrinkOne_eq hv]
    obtain ⟨hlt, hget⟩ := List.getElem?_eq_some_iff.mp hv
    refine ⟨by simp [List.length_eraseIdx, h.1], ?_⟩
    have hp : (p.active.eraseIdx (oldest p.age) ++ [v]).Perm p.active := by
      rw [← hget]
      exact (List.perm_append_comm).trans (List.getElem_cons_eraseIdx_perm hlt)
    have h3 : (p.active.eraseIdx (oldest p.age) ++ (p.inactive ++ [v])).Perm
        ((p.active.eraseIdx (oldest p.age) ++ [v]) ++ p.inactive) := by
      rw [List.append_assoc]
      exact (List.perm_append_comm).append_left _
    exact h3.trans ((hp.append_right _).trans h.2)

/-- A resize keeps the pool's books. -/
theorem resize_consistent {m : Nat} {p : Pool} (h : p.Consistent m) (n : Nat) : (p.resize n).Consistent m := by
  unfold Pool.resize
  exact forUpTo_keeps (P := fun p => Pool.Consistent m p)
    (forUpTo_keeps (P := fun p => Pool.Consistent m p) h (fun _ _ _ h => growOne_consistent h))
    (fun _ _ _ h => shrinkOne_consistent h)

/-- A pool grown by `k` voices (45_voice_pool.md R216). -/
theorem growLoop_eq {p : Pool} {k : Nat} (h : k ≤ p.inactive.length) :
    forUpTo k (fun _ p => p.growOne) p =
      ⟨p.active ++ p.inactive.take k, p.age ++ List.replicate k 0, p.inactive.drop k⟩ := by
  induction k with
  | zero => simp [forUpTo_zero]
  | succ j ih =>
    rw [forUpTo_succ, ih (by omega)]
    have hj : j < p.inactive.length := by omega
    rw [growOne_cons (v := p.inactive[j]) (rest := p.inactive.drop (j + 1)) (List.drop_eq_getElem_cons hj)]
    simp only [Pool.mk.injEq, List.append_assoc, and_true]
    refine ⟨?_, ?_⟩
    · rw [List.take_succ_eq_append_getElem hj]
    · rw [List.replicate_succ']

/-- The shrink loop takes one voice a turn. -/
theorem shrinkOne_length {p : Pool} (h : p.age.length = p.active.length) (hne : p.active ≠ []) :
    p.shrinkOne.active.length + 1 = p.active.length ∧ p.shrinkOne.age.length = p.shrinkOne.active.length := by
  have hage : p.age ≠ [] := by
    intro e; rw [e] at h; exact hne (List.length_eq_zero_iff.mp h.symm)
  have hlt : oldest p.age < p.active.length := h ▸ oldest_lt hage
  rw [shrinkOne_eq (List.getElem?_eq_getElem hlt)]
  simp only [List.length_eraseIdx, h, hlt, if_true, and_true]
  omega

/-- The length of a pool shrunk by `k` voices. -/
theorem shrinkLoop_length {p : Pool} (h : p.age.length = p.active.length) {k : Nat} (hk : k ≤ p.active.length) :
    (forUpTo k (fun _ p => p.shrinkOne) p).active.length + k = p.active.length ∧
      (forUpTo k (fun _ p => p.shrinkOne) p).age.length = (forUpTo k (fun _ p => p.shrinkOne) p).active.length := by
  induction k with
  | zero => exact ⟨rfl, h⟩
  | succ j ih =>
    obtain ⟨h1, h2⟩ := ih (by omega)
    rw [forUpTo_succ]
    have := shrinkOne_length h2 (by intro e; rw [e] at h1; simp at h1; omega)
    omega

/-- The polyphony after a resize (45_voice_pool.md R216). -/
theorem resize_length {p : Pool} (h : p.age.length = p.active.length) {n : Nat}
    (hn : n ≤ p.active.length + p.inactive.length) : (p.resize n).active.length = n := by
  unfold Pool.resize
  dsimp only
  by_cases hg : n ≤ p.active.length
  · rw [show n - p.active.length = 0 by omega, forUpTo_zero]
    have := (shrinkLoop_length h (k := p.active.length - n) (by omega)).1
    omega
  · rw [show p.active.length - n = 0 by omega, forUpTo_zero, growLoop_eq (by omega)]
    simp only [List.length_append, List.length_take]
    omega

end Sys2Proof.Machine
end

