-- ==== Sys2Proof/Laws/Commands.lean ====
section
/-! SUPPORT. Once for each command, everything it can do; and the same of a step. -/

namespace Sys2Proof.Machine

/-- What an INIT does (46_commands.md R243). -/
theorem execInit_cases (ch : BitVec 8) (poly : BitVec 16) (sr maxblk : BitVec 32) (s : State) :
    ∃ t, execInit ch poly sr maxblk s = .next t ∧
      ((s.fault ≠ 0 ∧ t = s.drop) ∨
        (s.fault = 0 ∧ initLegal s.hw ch poly sr maxblk = false ∧ t = s.raise .invalidConfig) ∨
        (s.fault = 0 ∧ initLegal s.hw ch poly sr maxblk = true ∧ t = (s.initialised ch poly sr maxblk).respond 0)) := by
  refine ⟨_, rfl, ?_⟩
  rcases State.unlessHalted_cases s (if initLegal s.hw ch poly sr maxblk then (s.initialised ch poly sr maxblk).respond 0
    else s.raise .invalidConfig) with ⟨h, e⟩ | ⟨h, e⟩
  · exact .inl ⟨h, e⟩
  · rw [e]
    cases hl : initLegal s.hw ch poly sr maxblk
    · exact .inr (.inl ⟨h, rfl, rfl⟩)
    · exact .inr (.inr ⟨h, rfl, rfl⟩)

/-- What a SETPOLY does (46_commands.md R245). -/
theorem execSetpoly_cases (n : BitVec 16) (s : State) :
    ∃ t, execSetpoly n s = .next t ∧
      ((s.fault ≠ 0 ∧ t = s.drop) ∨ (s.fault = 0 ∧ s.initd = false ∧ t = s.raise .notInitialized) ∨
        (s.fault = 0 ∧ s.initd = true ∧ polyLegal s.hw n = false ∧ t = s.raise .invalidPolyphony) ∨
        (s.fault = 0 ∧ s.initd = true ∧ polyLegal s.hw n = true ∧
          t = { s with pool := s.pool.resize n.toNat }.respond 0)) := by
  refine ⟨_, rfl, ?_⟩
  rcases State.unlessHalted_cases s (s.ifInitialised (if polyLegal s.hw n then
    { s with pool := s.pool.resize n.toNat }.respond 0 else s.raise .invalidPolyphony)) with ⟨h, e⟩ | ⟨h, e⟩
  · exact .inl ⟨h, e⟩
  · rw [e]
    rcases State.ifInitialised_cases s (if polyLegal s.hw n then
      { s with pool := s.pool.resize n.toNat }.respond 0 else s.raise .invalidPolyphony) with ⟨hi, e'⟩ | ⟨hi, e'⟩
    · exact .inr (.inl ⟨h, hi, e'⟩)
    · rw [e']
      cases hl : polyLegal s.hw n
      · exact .inr (.inr (.inl ⟨h, hi, rfl, rfl⟩))
      · exact .inr (.inr (.inr ⟨h, hi, rfl, rfl⟩))

/-- What a SETP does (46_commands.md R246). -/
theorem execSetp_cases (r : BitVec 8) (val : BitVec 32) (s : State) :
    ∃ t, execSetp r val s = .next t ∧
      ((s.fault ≠ 0 ∧ t = s.drop) ∨ (s.fault = 0 ∧ regOf s.hw.nOps r = none ∧ t = s.raise .illegalCommand) ∨
        ∃ reg, regOf s.hw.nOps r = some reg ∧ s.fault = 0 ∧
          ((reg.legal (q16 val) = false ∧ t = s.raise .paramRange) ∨
            (reg.legal (q16 val) = true ∧
              t = { s with params := s.params.write reg (q16 val) }.respond 0))) := by
  unfold execSetp
  cases hr : regOf s.hw.nOps r with
  | none =>
    refine ⟨_, rfl, ?_⟩
    rcases State.unlessHalted_cases s (s.raise .illegalCommand) with ⟨h, e⟩ | ⟨h, e⟩
    · exact .inl ⟨h, e⟩
    · exact .inr (.inl ⟨h, rfl, e⟩)
  | some reg =>
    refine ⟨_, rfl, ?_⟩
    rcases State.unlessHalted_cases s (if reg.legal (q16 val) then
      { s with params := s.params.write reg (q16 val) }.respond 0 else s.raise .paramRange) with ⟨h, e⟩ | ⟨h, e⟩
    · exact .inl ⟨h, e⟩
    · refine .inr (.inr ⟨reg, rfl, h, ?_⟩)
      cases hl : reg.legal (q16 val)
      · exact .inl ⟨rfl, e.trans (by rw [hl]; rfl)⟩
      · exact .inr ⟨rfl, e.trans (by rw [hl]; rfl)⟩

/-- What an RDSR does (46_commands.md R248, 60_exceptions.md R274). -/
theorem execRdsr_cases (bank : BitVec 8) (idx : BitVec 16) (s : State) :
    ∃ t, execRdsr bank idx s = .next t ∧
      ((∃ v, s.statusEntry bank idx = some v ∧ t = s.respond v) ∨
        (s.statusEntry bank idx = none ∧ s.fault ≠ 0 ∧ t = s.drop) ∨
        (s.statusEntry bank idx = none ∧ s.fault = 0 ∧ t = s.raise .illegalCommand)) := by
  unfold execRdsr
  cases he : s.statusEntry bank idx with
  | some v => exact ⟨_, rfl, .inl ⟨v, rfl, rfl⟩⟩
  | none =>
    refine ⟨_, rfl, .inr ?_⟩
    rcases State.unlessHalted_cases s (s.raise .illegalCommand) with ⟨h, e⟩ | ⟨h, e⟩
    · exact .inl ⟨rfl, h, e⟩
    · exact .inr ⟨rfl, h, e⟩

/-- What a NOTE_ON does (46_commands.md R250). -/
theorem execNoteOn_cases (vp : Bool) (note : BitVec 7) (channel : BitVec 4) (vid vel : BitVec 32) (s : State) :
    ∃ t, execNoteOn vp note channel vid vel s = .next t ∧
      ((s.fault ≠ 0 ∧ t = s.drop) ∨ (s.fault = 0 ∧ s.initd = false ∧ t = s.raise .notInitialized) ∨
        (s.fault = 0 ∧ s.initd = true ∧ velocityLegal (q16 vel) = false ∧ t = s.raise .paramRange) ∨
        (s.fault = 0 ∧ s.initd = true ∧ velocityLegal (q16 vel) = true ∧ s.pool.active = [] ∧
          t = s.raise .poolEmpty) ∨
        (s.fault = 0 ∧ s.initd = true ∧ velocityLegal (q16 vel) = true ∧ s.pool.active ≠ [] ∧
          t = s.poolNoteOn (onEvent vp note channel vid vel))) := by
  refine ⟨_, rfl, ?_⟩
  rcases State.unlessHalted_cases s (s.ifInitialised (if velocityLegal (q16 vel) then
    s.noteOnEvent (onEvent vp note channel vid vel) else s.raise .paramRange)) with ⟨h, e⟩ | ⟨h, e⟩
  · exact .inl ⟨h, e⟩
  · rw [e]
    rcases State.ifInitialised_cases s (if velocityLegal (q16 vel) then
      s.noteOnEvent (onEvent vp note channel vid vel) else s.raise .paramRange) with ⟨hi, e'⟩ | ⟨hi, e'⟩
    · exact .inr (.inl ⟨h, hi, e'⟩)
    · rw [e']
      cases hl : velocityLegal (q16 vel)
      · exact .inr (.inr (.inl ⟨h, hi, rfl, rfl⟩))
      · by_cases ha : s.pool.active = []
        · exact .inr (.inr (.inr (.inl ⟨h, hi, rfl, ha, by simp [State.noteOnEvent, ha]⟩)))
        · exact .inr (.inr (.inr (.inr ⟨h, hi, rfl, ha, by simp [State.noteOnEvent, ha]⟩)))

/-- What a NOTE_OFF does (46_commands.md R252). -/
theorem execNoteOff_cases (vp : Bool) (note : BitVec 7) (channel : BitVec 4) (vid : BitVec 32) (s : State) :
    ∃ t, execNoteOff vp note channel vid s = .next t ∧
      ((s.fault ≠ 0 ∧ t = s.drop) ∨ (s.fault = 0 ∧ s.initd = false ∧ t = s.raise .notInitialized) ∨
        (s.fault = 0 ∧ s.initd = true ∧ t = (s.noteOffEvent (offEvent vp note channel vid)).respond 0)) := by
  refine ⟨_, rfl, ?_⟩
  rcases State.unlessHalted_cases s (s.ifInitialised ((s.noteOffEvent (offEvent vp note channel vid)).respond 0)) with
    ⟨h, e⟩ | ⟨h, e⟩
  · exact .inl ⟨h, e⟩
  · rw [e]
    rcases State.ifInitialised_cases s ((s.noteOffEvent (offEvent vp note channel vid)).respond 0) with
      ⟨hi, e'⟩ | ⟨hi, e'⟩
    · exact .inr (.inl ⟨h, hi, e'⟩)
    · exact .inr (.inr ⟨h, hi, e'⟩)

/-- What a RENDER does (46_commands.md R254). -/
theorem execRender_cases (blockStart blockEnd : BitVec 32) (s : State) :
    ∃ t, execRender blockStart blockEnd s = .next t ∧
      ((s.fault ≠ 0 ∧ t = s.drop) ∨ (s.fault = 0 ∧ s.initd = false ∧ t = s.raise .notInitialized) ∨
        (s.fault = 0 ∧ s.initd = true ∧ blockLegal s blockStart blockEnd = false ∧ t = s.raise .blockRange) ∨
        (s.fault = 0 ∧ s.initd = true ∧ blockLegal s blockStart blockEnd = true ∧
          t = (s.poolRender blockStart.toNat blockEnd.toNat).respond 0)) := by
  refine ⟨_, rfl, ?_⟩
  rcases State.unlessHalted_cases s (s.ifInitialised (if blockLegal s blockStart blockEnd then
    (s.poolRender blockStart.toNat blockEnd.toNat).respond 0 else s.raise .blockRange)) with ⟨h, e⟩ | ⟨h, e⟩
  · exact .inl ⟨h, e⟩
  · rw [e]
    rcases State.ifInitialised_cases s (if blockLegal s blockStart blockEnd then
      (s.poolRender blockStart.toNat blockEnd.toNat).respond 0 else s.raise .blockRange) with ⟨hi, e'⟩ | ⟨hi, e'⟩
    · exact .inr (.inl ⟨h, hi, e'⟩)
    · rw [e']
      cases hl : blockLegal s blockStart blockEnd
      · exact .inr (.inr (.inl ⟨h, hi, rfl, rfl⟩))
      · exact .inr (.inr (.inr ⟨h, hi, rfl, rfl⟩))

/-- Every command answers a next state: none stops (60_exceptions.md R272). -/
theorem exec_next (i : Instr) (s : State) : ∃ t, exec i s = .next t := by
  cases i with
  | nop => exact ⟨_, rfl⟩
  | init ch poly sr maxblk => exact ⟨_, rfl⟩
  | setpoly n => exact ⟨_, rfl⟩
  | setp r val => exact ⟨_, rfl⟩
  | rdsr bank idx => exact ⟨_, rfl⟩
  | noteOn vp note channel vid vel => exact ⟨_, rfl⟩
  | noteOff vp note channel vid => exact ⟨_, rfl⟩
  | render a b => exact ⟨_, rfl⟩

/-- A property that a change of `FAULT` and the response cannot touch, and that the eight effects keep, is kept by
every command. -/
theorem exec_keeps {P : State → Prop} {i : Instr} {s t : State} (he : exec i s = .next t) (h : P s)
    (hresp : ∀ s v, P s → P (State.respond s v)) (hraise : ∀ s code, P s → P (State.raise s code))
    (hdrop : ∀ s, P s → P (State.drop s))
    (hinit : ∀ ch poly sr maxblk, s.fault = 0 → initLegal s.hw ch poly sr maxblk = true →
      P (s.initialised ch poly sr maxblk))
    (hpoly : ∀ n, s.initd = true → polyLegal s.hw n = true → P { s with pool := s.pool.resize n.toNat })
    (hsetp : ∀ r val reg, regOf s.hw.nOps r = some reg → reg.legal (q16 val) = true →
      P { s with params := s.params.write reg (q16 val) })
    (hon : ∀ ev, s.initd = true → s.pool.active ≠ [] → P (s.poolNoteOn ev))
    (hoff : ∀ e, s.initd = true → P (s.noteOffEvent e))
    (hren : ∀ a b : BitVec 32, s.initd = true → blockLegal s a b = true → P (s.poolRender a.toNat b.toNat)) :
    P t := by
  cases i with
  | nop =>
    obtain rfl := Host.Outcome.next.inj he
    exact hresp s 0 h
  | init ch poly sr maxblk =>
    obtain ⟨t', e, c⟩ := execInit_cases ch poly sr maxblk s
    obtain rfl := Host.Outcome.next.inj (e.symm.trans he)
    rcases c with ⟨_, rfl⟩ | ⟨_, _, rfl⟩ | ⟨h0, hl, rfl⟩
    · exact hdrop s h
    · exact hraise s _ h
    · exact hresp _ 0 (hinit ch poly sr maxblk h0 hl)
  | setpoly n =>
    obtain ⟨t', e, c⟩ := execSetpoly_cases n s
    obtain rfl := Host.Outcome.next.inj (e.symm.trans he)
    rcases c with ⟨_, rfl⟩ | ⟨_, _, rfl⟩ | ⟨_, _, _, rfl⟩ | ⟨_, hi, hl, rfl⟩
    · exact hdrop s h
    · exact hraise s _ h
    · exact hraise s _ h
    · exact hresp _ 0 (hpoly n hi hl)
  | setp r val =>
    obtain ⟨t', e, c⟩ := execSetp_cases r val s
    obtain rfl := Host.Outcome.next.inj (e.symm.trans he)
    rcases c with ⟨_, rfl⟩ | ⟨_, _, rfl⟩ | ⟨reg, hr, _, ⟨_, rfl⟩ | ⟨hl, rfl⟩⟩
    · exact hdrop s h
    · exact hraise s _ h
    · exact hraise s _ h
    · exact hresp _ 0 (hsetp r val reg hr hl)
  | rdsr bank idx =>
    obtain ⟨t', e, c⟩ := execRdsr_cases bank idx s
    obtain rfl := Host.Outcome.next.inj (e.symm.trans he)
    rcases c with ⟨v, _, rfl⟩ | ⟨_, _, rfl⟩ | ⟨_, _, rfl⟩
    · exact hresp s v h
    · exact hdrop s h
    · exact hraise s _ h
  | noteOn vp note channel vid vel =>
    obtain ⟨t', e, c⟩ := execNoteOn_cases vp note channel vid vel s
    obtain rfl := Host.Outcome.next.inj (e.symm.trans he)
    rcases c with ⟨_, rfl⟩ | ⟨_, _, rfl⟩ | ⟨_, _, _, rfl⟩ | ⟨_, _, _, _, rfl⟩ | ⟨_, hi, _, ha, rfl⟩
    · exact hdrop s h
    · exact hraise s _ h
    · exact hraise s _ h
    · exact hraise s _ h
    · exact hon _ hi ha
  | noteOff vp note channel vid =>
    obtain ⟨t', e, c⟩ := execNoteOff_cases vp note channel vid s
    obtain rfl := Host.Outcome.next.inj (e.symm.trans he)
    rcases c with ⟨_, rfl⟩ | ⟨_, _, rfl⟩ | ⟨_, hi, rfl⟩
    · exact hdrop s h
    · exact hraise s _ h
    · exact hresp _ 0 (hoff _ hi)
  | render a b =>
    obtain ⟨t', e, c⟩ := execRender_cases a b s
    obtain rfl := Host.Outcome.next.inj (e.symm.trans he)
    rcases c with ⟨_, rfl⟩ | ⟨_, _, rfl⟩ | ⟨_, _, _, rfl⟩ | ⟨_, hi, hl, rfl⟩
    · exact hdrop s h
    · exact hraise s _ h
    · exact hraise s _ h
    · exact hresp _ 0 (hren a b hi hl)

/-! ### The step -/

/-- What a step does, by what is presented first. -/
theorem step_cases (s : State) :
    (s.pending = [] ∧ step s = .next s) ∨
    (∃ w rest, s.pending = .command w :: rest ∧ step s = runWord w { s with pending := rest }) ∨
    (∃ c i v rest, s.pending = .writeOut c i v :: rest ∧ step s = hostWriteOut c i v { s with pending := rest }) ∨
    (∃ rest, s.pending = .reset :: rest ∧ step s = .next (State.hardReset { s with pending := rest })) := by
  unfold step takeInput
  cases h : s.pending with
  | nil => exact .inl ⟨rfl, rfl⟩
  | cons x rest =>
    cases x with
    | command w => exact .inr (.inl ⟨w, rest, rfl, rfl⟩)
    | writeOut c i v => exact .inr (.inr (.inl ⟨c, i, v, rest, rfl, rfl⟩))
    | reset => exact .inr (.inr (.inr ⟨rest, rfl, rfl⟩))

/-- A word runs the command it decodes to, or is illegal (46_commands.md R240). -/
theorem runWord_cases (w : Word) (s : State) :
    (∃ i, decode w = .ok i ∧ runWord w s = exec i s) ∨
      (∃ e, decode w = .error e ∧ runWord w s = .next s.illegalWord) := by
  unfold runWord
  cases h : decode w with
  | ok i => exact .inl ⟨i, rfl, rfl⟩
  | error e => exact .inr ⟨e, rfl, rfl⟩

/-- A host write stops exactly at an element that does not exist. -/
theorem hostWriteOut_cases (c i : Nat) (v : Num) (s : State) :
    (outExists s.hw c i = true ∧ hostWriteOut c i v s = .next { s with out := s.out.write (c, i) v }) ∨
      (outExists s.hw c i = false ∧ hostWriteOut c i v s = .fault (.noSuchElement c i)) := by
  unfold hostWriteOut
  cases h : outExists s.hw c i
  · exact .inr ⟨rfl, by simp⟩
  · exact .inl ⟨rfl, by simp⟩

/-- A property of states that no change of the inputs, of `FAULT` or of the response touches is kept by a step if
reset has it, host writes keep it and every command keeps it. -/
theorem step_keeps {P : State → Prop} {s t : State} (he : step s = .next t) (h : P s)
    (hpend : ∀ rest, P { s with pending := rest })
    (hraise : ∀ s code, P s → P (State.raise s code)) (hdrop : ∀ s, P s → P (State.drop s))
    (hreset : ∀ rest, P (State.hardReset { s with pending := rest }))
    (hout : ∀ rest c i v, outExists s.hw c i = true → P { s with pending := rest, out := s.out.write (c, i) v })
    (hexec : ∀ rest i, exec i { s with pending := rest } = .next t → P t) : P t := by
  rcases step_cases s with ⟨_, e⟩ | ⟨w, rest, _, e⟩ | ⟨c, i, v, rest, _, e⟩ | ⟨rest, _, e⟩
  · obtain rfl := Host.Outcome.next.inj (e.symm.trans he)
    exact h
  · rcases runWord_cases w { s with pending := rest } with ⟨i, _, e'⟩ | ⟨_, _, e'⟩
    · exact hexec rest i (e'.symm.trans (e.symm.trans he))
    · obtain rfl := Host.Outcome.next.inj (e'.symm.trans (e.symm.trans he))
      rcases State.unlessHalted_cases { s with pending := rest }
        (State.raise { s with pending := rest } .illegalCommand) with ⟨_, e2⟩ | ⟨_, e2⟩
      · rw [State.illegalWord, e2]; exact hdrop _ (hpend rest)
      · rw [State.illegalWord, e2]; exact hraise _ _ (hpend rest)
  · rcases hostWriteOut_cases c i v { s with pending := rest } with ⟨hx, e'⟩ | ⟨_, e'⟩
    · obtain rfl := Host.Outcome.next.inj (e'.symm.trans (e.symm.trans he))
      exact hout rest c i v hx
    · rw [e, e'] at he; cases he
  · obtain rfl := Host.Outcome.next.inj (e.symm.trans he)
    exact hreset rest

end Sys2Proof.Machine
end

