-- ==== Sys2Proof/Laws/Encoding.lean ====
section
/-! SUPPORT. The fields of a word, once for all: packing and taking apart are inverse, and a row of the opcode table
is hit field by field. -/

namespace Sys2Proof

/-- A packed word as a number. -/
theorem packWord_toNat (op f : BitVec 8) (g : BitVec 16) (a b c : BitVec 32) :
    (packWord op f g a b c).toNat =
      ((((op.toNat * 2 ^ 8 + f.toNat) * 2 ^ 16 + g.toNat) * 2 ^ 32 + a.toNat) * 2 ^ 32 + b.toNat) * 2 ^ 32 +
        c.toNat := by
  have e : packWord op f g a b c = op ++ f ++ g ++ a ++ b ++ c := rfl
  rw [e]
  simp only [BitVec.toNat_append]
  rw [← Nat.shiftLeft_add_eq_or_of_lt f.isLt, ← Nat.shiftLeft_add_eq_or_of_lt g.isLt,
    ← Nat.shiftLeft_add_eq_or_of_lt a.isLt, ← Nat.shiftLeft_add_eq_or_of_lt b.isLt,
    ← Nat.shiftLeft_add_eq_or_of_lt c.isLt]
  simp only [Nat.shiftLeft_eq]

/-- The six fields of a packed word. -/
theorem fields_packWord (op f : BitVec 8) (g : BitVec 16) (a b c : BitVec 32) :
    fieldOp (packWord op f g a b c) = op ∧ fieldF (packWord op f g a b c) = f ∧
      fieldG (packWord op f g a b c) = g ∧ fieldA (packWord op f g a b c) = a ∧
      fieldB (packWord op f g a b c) = b ∧ fieldC (packWord op f g a b c) = c := by
  have := op.isLt; have := f.isLt; have := g.isLt; have := a.isLt; have := b.isLt; have := c.isLt
  refine ⟨?_, ?_, ?_, ?_, ?_, ?_⟩ <;> apply BitVec.eq_of_toNat_eq <;>
    simp only [fieldOp, fieldF, fieldG, fieldA, fieldB, fieldC, BitVec.extractLsb'_toNat, packWord_toNat,
      Nat.shiftRight_eq_div_pow] <;> omega

/-- A word is packed from its fields. -/
theorem packWord_fields (w : Word) :
    packWord (fieldOp w) (fieldF w) (fieldG w) (fieldA w) (fieldB w) (fieldC w) = w := by
  have := w.isLt
  apply BitVec.eq_of_toNat_eq
  simp only [packWord_toNat, fieldOp, fieldF, fieldG, fieldA, fieldB, fieldC, BitVec.extractLsb'_toNat,
    Nat.shiftRight_eq_div_pow]
  omega

/-- Words with equal fields are equal. -/
theorem word_ext {w w' : Word} (hop : fieldOp w = fieldOp w') (hf : fieldF w = fieldF w') (hg : fieldG w = fieldG w')
    (ha : fieldA w = fieldA w') (hb : fieldB w = fieldB w') (hc : fieldC w = fieldC w') : w = w' := by
  rw [← packWord_fields w, ← packWord_fields w', hop, hf, hg, ha, hb, hc]

/-- The fields of a masked word are the masked fields. -/
theorem fields_and (w m : Word) :
    fieldOp (w &&& m) = fieldOp w &&& fieldOp m ∧ fieldF (w &&& m) = fieldF w &&& fieldF m ∧
      fieldG (w &&& m) = fieldG w &&& fieldG m ∧ fieldA (w &&& m) = fieldA w &&& fieldA m ∧
      fieldB (w &&& m) = fieldB w &&& fieldB m ∧ fieldC (w &&& m) = fieldC w &&& fieldC m :=
  ⟨BitVec.extractLsb'_and, BitVec.extractLsb'_and, BitVec.extractLsb'_and, BitVec.extractLsb'_and,
    BitVec.extractLsb'_and, BitVec.extractLsb'_and⟩

/-- A row is hit exactly when each field of the word, masked, is the row's. -/
theorem Row.hits_iff (r : Row) (w : Word) :
    r.hits w = true ↔
      fieldOp w &&& fieldOp r.mask = fieldOp r.pattern ∧ fieldF w &&& fieldF r.mask = fieldF r.pattern ∧
        fieldG w &&& fieldG r.mask = fieldG r.pattern ∧ fieldA w &&& fieldA r.mask = fieldA r.pattern ∧
        fieldB w &&& fieldB r.mask = fieldB r.pattern ∧ fieldC w &&& fieldC r.mask = fieldC r.pattern := by
  obtain ⟨h1, h2, h3, h4, h5, h6⟩ := fields_and w r.mask
  rw [Row.hits, beq_iff_eq, ← h1, ← h2, ← h3, ← h4, ← h5, ← h6]
  constructor
  · intro h
    rw [h]
    exact ⟨rfl, rfl, rfl, rfl, rfl, rfl⟩
  · rintro ⟨k1, k2, k3, k4, k5, k6⟩
    exact word_ext k1 k2 k3 k4 k5 k6

/-- `f` of a note command holds its presence bit and its note. -/
theorem note_fields (w : Word) (vp : Bool) (note : BitVec 7) (h : fieldF w = packNote vp note) :
    fieldVp w = vp ∧ fieldNote w = note := by
  have h1 : fieldVp w = (fieldF w).getLsbD 7 := by simp [fieldVp, fieldF]
  have h2 : fieldNote w = (fieldF w).extractLsb' 0 7 := by
    apply BitVec.eq_of_toNat_eq
    simp only [fieldNote, fieldF, BitVec.extractLsb'_toNat, Nat.shiftRight_eq_div_pow]
    omega
  rw [h1, h2, h]
  clear h h1 h2
  revert vp note
  decide

end Sys2Proof
end

