-- ==== Sys2Proof/Laws/PerInstr.lean ====
section
/-! SUPPORT. Facts stated once per command: the fields of its word. -/

namespace Sys2Proof.Laws.EncodeFields

/-- The word of a command has its opcode in `op` and 0 in the field `c`, reserved in every command (30_encoding.md
R81, R82, R86). -/
def Statement (i : Instr) : Prop := fieldOp (encode i) = i.opcode ∧ fieldC (encode i) = 0

/-- The fields `op` and `c` of a packed word are those it was packed from. -/
theorem pack_fields (op f : BitVec 8) (g : BitVec 16) (a b c : BitVec 32) :
    fieldOp (packWord op f g a b c) = op ∧ fieldC (packWord op f g a b c) = c := by
  refine ⟨?_, BitVec.extractLsb'_append_eq_right⟩
  simp only [fieldOp, packWord, BitVec.extractLsb'_append_eq_of_le (show 32 ≤ 120 by omega),
    BitVec.extractLsb'_append_eq_of_le (show 32 ≤ 120 - 32 by omega),
    BitVec.extractLsb'_append_eq_of_le (show 32 ≤ 120 - 32 - 32 by omega),
    BitVec.extractLsb'_append_eq_of_le (show 16 ≤ 120 - 32 - 32 - 32 by omega)]
  exact BitVec.extractLsb'_append_eq_left

theorem nop : Statement .nop := pack_fields _ _ _ _ _ _

theorem init (ch : BitVec 8) (poly : BitVec 16) (sr maxblk : BitVec 32) : Statement (.init ch poly sr maxblk) :=
  pack_fields _ _ _ _ _ _

theorem setpoly (n : BitVec 16) : Statement (.setpoly n) := pack_fields _ _ _ _ _ _

theorem setp (r : BitVec 8) (val : BitVec 32) : Statement (.setp r val) := pack_fields _ _ _ _ _ _

theorem rdsr (bank : BitVec 8) (idx : BitVec 16) : Statement (.rdsr bank idx) := pack_fields _ _ _ _ _ _

theorem noteOn (vp : Bool) (note : BitVec 7) (channel : BitVec 4) (vid vel : BitVec 32) :
    Statement (.noteOn vp note channel vid vel) := pack_fields _ _ _ _ _ _

theorem noteOff (vp : Bool) (note : BitVec 7) (channel : BitVec 4) (vid : BitVec 32) :
    Statement (.noteOff vp note channel vid) := pack_fields _ _ _ _ _ _

theorem render (blockStart blockEnd : BitVec 32) : Statement (.render blockStart blockEnd) :=
  pack_fields _ _ _ _ _ _

end Sys2Proof.Laws.EncodeFields
end

