-- ==== Sys2Proof/Tests/Slice0.lean ====
section
/-! SUPPORT. Small tests: well-formedness, words written out from the encoding tables, one-step vectors of
95_test_vectors.md, and for each statement with hypotheses a state and operands that meet them. -/

namespace Sys2Proof.Tests

-- One theorem after the other: many kernel evaluations waiting at once would each hold a thread.
set_option Elab.async false

open Sys2Proof Sys2Proof.Machine

/-! ### Well-formedness: what the checks refuse (30_encoding.md R85) -/

theorem test_wf_noteOn_absent_id : (Instr.noteOn false 60 0 1 0).wellFormed = false := by decide
theorem test_wf_noteOff_absent_id : (Instr.noteOff false 60 0 1).wellFormed = false := by decide
theorem test_wf_noteOn_present_id : (Instr.noteOn true 60 0 1 0).wellFormed = true := by decide

/-! ### Decoding: words of 95_test_vectors.md T-ENC1 to T-ENC12, and the words T-ENC20 to T-ENC30 that are illegal -/

theorem test_decode_nop : decode 0x00000000000000000000000000000000#128 = .ok .nop := by decide +kernel
theorem test_decode_init :
    decode 0x010200040000AC440000020000000000#128 = .ok (.init 2 4 44100 512) := by decide +kernel
theorem test_decode_setpoly : decode 0x02000004000000000000000000000000#128 = .ok (.setpoly 4) := by decide +kernel
theorem test_decode_setp :
    decode 0x03010000FFFF00000000000000000000#128 = .ok (.setp 1 0xFFFF0000) := by decide +kernel
theorem test_decode_rdsr : decode 0x04020001000000000000000000000000#128 = .ok (.rdsr 2 1) := by decide +kernel
theorem test_decode_noteOn :
    decode 0x10FF000F800000000000000000000000#128 = .ok (.noteOn true 127 15 0x80000000 0) := by decide +kernel
theorem test_decode_noteOff :
    decode 0x11BD0001000000070000000000000000#128 = .ok (.noteOff true 61 1 7) := by decide +kernel
theorem test_decode_render :
    decode 0x20000000000000020000000600000000#128 = .ok (.render 2 6) := by decide +kernel

theorem test_decode_refuses_unassigned :
    decode 0xFF000000000000000000000000000000#128 = .error (.unassignedOpcode 0xFF) ∧
      decode 0x05000000000000000000000000000000#128 = .error (.unassignedOpcode 0x05) := by decide +kernel
theorem test_decode_refuses_reserved :
    decode 0x00000000000000000000000000000001#128 = .error (.reservedField 0x00) ∧
      decode 0x01010001000006E00000000400000001#128 = .error (.reservedField 0x01) ∧
      decode 0x02010002000000000000000000000000#128 = .error (.reservedField 0x02) ∧
      decode 0x03030001000100000000000000000000#128 = .error (.reservedField 0x03) ∧
      decode 0x04000000000000010000000000000000#128 = .error (.reservedField 0x04) ∧
      decode 0x10450010000000000001000000000000#128 = .error (.reservedField 0x10) ∧
      decode 0x11450000000000000000000100000000#128 = .error (.reservedField 0x11) ∧
      decode 0x20010000000000000000000100000000#128 = .error (.reservedField 0x20) := by decide +kernel
theorem test_decode_refuses_absent_id :
    decode 0x10450000000000010001000000000000#128 = .error (.voiceIdNotPresent 0x10) ∧
      decode 0x11450000000000010000000000000000#128 = .error (.voiceIdNotPresent 0x11) := by decide +kernel

/-- The encoder writes the worked words of 30_encoding.md R95. -/
theorem test_encode :
    encode (.noteOn true 60 3 0xFFFFFFFE 0x00008000) = 0x10BC0003FFFFFFFE0000800000000000#128 ∧
      encode (.init 1 1 1760 4) = 0x01010001000006E00000000400000000#128 := by decide +kernel

/-! ### A small machine -/

/-- The notes of 95_test_vectors.md: 60 at 125 Hz, 61 at 250 Hz, every other at 440 Hz. -/
def notes : List Num := ((List.replicate 128 440).set 60 125).set 61 250

/-- Four voices of two operators, the triangle table, a shutdown of 2 ms (95_test_vectors.md, conventions). -/
def hw : CfgHW :=
  { maxVoices := 4, nOps := 2, sine := [0, 1, 0, -1], sineEps := 0, shutdownMs := 2, noteFreq := notes,
    selfMod := [true, false], ageResetOnNoteOn := true, maxblkLimit := 8 }

/-- Attack 4 ms, decay 2 ms, release 2 ms, sustain 1/2. -/
def params : Params := ⟨4, 2, 2, 1 / 2, [1, 2], [1 / 4, 0], [1 / 4, 1 / 2]⟩

/-- Reset, with nothing in `OUT`. -/
def cold : State := State.resetWith hw []

/-- A voice in its attack, sounding note 60. -/
def sounding : Voice :=
  { Voice.fresh 2 with
    ops := [{ Operator.fresh with clock := ⟨1 / 4, 1 / 8, 0, 0⟩, env := ⟨.attack, -1 / 4, 1 / 4⟩ },
      { Operator.fresh with clock := ⟨1 / 2, 1 / 4, 0, 0⟩, env := ⟨.attack, -1 / 4, 1 / 4⟩ }]
    masterEnv := ⟨.attack, 0, 1 / 4⟩, voiceId := some 7, note := 60, currentEvent := some ⟨60, 0, some 7, 1⟩ }

/-- The same voice told to steal, with note 61 waiting. -/
def stealing : Voice :=
  { sounding with masterEnv := ⟨.shutdown, 1 / 2, -1 / 4⟩, isStealing := true, pendingEvent := some ⟨61, 1, none, 1⟩ }

/-- Two voices active, the second free. -/
def half : State :=
  { cold with
    params := params, initd := true, cfgSr := 1000, cfgCh := 1, cfgMaxblk := 4, pool := ⟨[0, 1], [3, 1], [2, 3]⟩
    voices := [sounding, Voice.fresh 2, Voice.fresh 2, Voice.fresh 2] }

/-- Both active voices playing, of equal age, the second stealing. -/
def full : State :=
  { half with pool := ⟨[0, 1], [2, 2], [2, 3]⟩, voices := [sounding, stealing, Voice.fresh 2, Voice.fresh 2] }

/-- The next state, if there is one. -/
def after (s : State) : Option State :=
  match step s with
  | .next t => some t
  | .fault _ => none
  | .refused _ => none

theorem after_some {s : State} (h : (after s).isSome = true) : ∃ t, step s = .next t := by
  unfold after at h
  cases e : step s with
  | next t => exact ⟨t, rfl⟩
  | fault r => rw [e] at h; cases h
  | refused r => rw [e] at h; cases h

/-- One command word, run. -/
def run (s : State) (w : Nat) : Option State := after (s.withFetchWord 128 w)

/-! ### One step of each command -/

/-- 95_test_vectors.md T-CMD16: NOP while halted. -/
theorem test_nop_halted : (run { cold with fault := 2 } 0).map (fun t => (t.response, t.fault)) =
    some (some ⟨false, 0⟩, 2) := by decide +kernel

/-- 95_test_vectors.md Program 1, step 4: the lists after INIT. -/
theorem test_init : (run cold 0x01010001000006E00000000400000000).map (fun t => (t.pool, t.initd, t.cfgSr)) =
    some (⟨[0], [0], [1, 2, 3]⟩, true, 1760) := by decide +kernel
/-- T-CMD11: too low a sample rate for the shutdown time. -/
theorem test_init_rate : (run cold 0x01010001000001900000000400000000).map (fun t => (t.response, t.fault, t.initd)) =
    some (some ⟨true, 2⟩, 4, false) := by decide +kernel

/-- T-POOL5: the two oldest voices are evicted. -/
theorem test_setpoly_shrinks :
    (run { half with pool := ⟨[0, 1, 2, 3], [0, 5, 2, 4], []⟩ } 0x02000002000000000000000000000000).map State.pool =
      some ⟨[0, 2], [0, 2], [1, 3]⟩ := by decide +kernel
/-- T-POOL6: and come back. -/
theorem test_setpoly_grows :
    (run { half with pool := ⟨[0, 2], [0, 2], [1, 3]⟩ } 0x02000004000000000000000000000000).map State.pool =
      some ⟨[0, 2, 1, 3], [0, 2, 0, 0], []⟩ := by decide +kernel

/-- T-CMD3: a sustain level above 1. -/
theorem test_setp_range : (run cold 0x03030000000180000000000000000000).map (fun t => (t.response, t.params.sustain)) =
    some (some ⟨true, 4⟩, 0) := by decide +kernel
/-- 95_test_vectors.md Program 2, step 5: the second operator's ratio. -/
theorem test_setp_ratio1 : (run cold 0x03110000000100000000000000000000).map (fun t => t.params.ratio) =
    some [0, 1] := by decide +kernel

/-- 95_test_vectors.md Program 3, step 12: a stealing voice's status, its current note 60, its waiting note 61. -/
theorem test_rdsr_vstat : (run { full with voices := [stealing] } 0x04010000000000000000000000000000).map
    State.response = some (some ⟨false, 0x05E83CDF⟩) := by decide +kernel
/-- T-CMD16: no such bank, while halted. -/
theorem test_rdsr_dropped : (run { cold with fault := 2 } 0x04050000000000000000000000000000).map
    (fun t => (t.response, t.fault)) = some (some ⟨true, 31⟩, 2) := by decide +kernel

/-- T-POOL2: the free voice is taken, its age zeroed, then every playing voice ages. -/
theorem test_noteOn_free : (run { half with pool := ⟨[0, 1, 2], [3, 1, 0], [3]⟩, voices := [sounding, sounding, Voice.fresh 2] }
    0x103D0000000000000001000000000000).map (fun t => (t.pool.age, t.lastTarget)) = some ([4, 2, 1], 2) := by
  decide +kernel
/-- T-POOL2 continued: with none free the oldest is told to steal. -/
theorem test_noteOn_steals : (run { half with pool := ⟨[0, 1, 2], [4, 2, 1], [3]⟩, voices := [sounding, sounding, sounding] }
    0x103D0000000000000001000000000000).map (fun t => (t.pool.age, t.lastTarget, t.voices.map Voice.isStealing)) =
      some ([1, 3, 2], 0, [true, false, false]) := by decide +kernel

/-- T-POOL11: every active voice that matches is released. -/
theorem test_noteOff_broadcast :
    (run { half with voices := List.replicate 2 { sounding with voiceId := none, masterEnv := ⟨.sustain, 1 / 2, 0⟩ } }
      0x113C0000000000000000000000000000).map (fun t => t.voices.map Voice.masterEnv) =
        some [⟨.release, 1 / 2, -1 / 2⟩, ⟨.release, 1 / 2, -1 / 2⟩] := by decide +kernel
/-- T-VOI2: while stealing only the waiting note can be cancelled. -/
theorem test_noteOff_cancels :
    (run { full with voices := [stealing, stealing] } 0x113D0001000000000000000000000000).map
      (fun t => t.voices.map (fun v => (v.currentEvent.isSome, v.pendingEvent.isSome, v.isStealing))) =
        some [(true, false, true), (true, false, true)] := by decide +kernel

/-- 95_test_vectors.md Program 2 before its step 10. -/
def chain : State :=
  { cold with
    params := ⟨0, 0, 0, 1, [1 / 2, 1], [1 / 4, 0], [1 / 4, 1]⟩, initd := true, cfgSr := 1760, cfgCh := 2, cfgMaxblk := 8
    pool := ⟨[0], [1], []⟩
    voices := [{ Voice.fresh 2 with
      ops := [{ Operator.fresh with clock := ⟨3 / 4, 1 / 8, 0, 0⟩, lastOutput := -1 / 2 },
        { Operator.fresh with clock := ⟨1 / 2, 1 / 4, 0, 0⟩, lastOutput := -1 }]
      note := 69, masterEnv := ⟨.sustain, 1, 0⟩ }] }

/-- 95_test_vectors.md Program 2, step 10: the chain with self-feedback, two channels. -/
theorem test_render_chain : (run { chain with out := [((0, 6), 1), ((0, 7), 1)] } 0x20000000000000060000000800000000).map
    (fun t => t.out) = some [((0, 6), 7 / 8), ((0, 7), -1 / 4), ((1, 6), -1 / 8), ((1, 7), -5 / 4)] := by decide +kernel
/-- 95_test_vectors.md Program 2, step 10: the operators after it. -/
theorem test_render_operators : (run chain 0x20000000000000060000000800000000).map
    (fun t => (t.voices.flatMap Voice.ops).map (fun o => (o.clock.mcounter, o.lastOutput))) =
      some [(0, -1), (0, -1)] := by decide +kernel

/-! ### The hypotheses of the statements can be met: encoding and the step -/

theorem witness_DecodeOfEncode :
    (Instr.noteOn false 127 15 0 0xFFFFFFFF).wellFormed = true ∧
      (Instr.noteOff true 0 0 0x80000000).wellFormed = true := by decide
theorem witness_EncodeOfDecode :
    decode 0x10FF000F800000000000000000000000#128 = .ok (.noteOn true 127 15 0x80000000 0) := by decide +kernel
theorem witness_AtMostOneRowMatches :
    rowSetp ∈ opcodeTable ∧ rowSetp.hits 0x033FFFFF000000000000000000000000#128 = false ∧
      rowSetp.hits 0x033F0000FFFFFFFF0000000000000000#128 = true := by decide +kernel
theorem witness_RegisterIndexMap :
    regOf 16 0x03 = some .sustain ∧ regOf 16 0x04 = none ∧ regOf 16 0x1F = some (.ratio 15) ∧
      regOf 2 0x21 = some (.modIndex 1) ∧ regOf 2 0x32 = none ∧ regOf 1 0x30 = some (.mix 0) := by decide +kernel
theorem witness_StepRunsDecodedCommand :
    (half.withFetchWord 128 0x20000000000000000000000400000000).pending =
        [.command 0x20000000000000000000000400000000#128] ∧
      decode 0x20000000000000000000000400000000#128 = .ok (.render 0 4) := by decide +kernel
theorem witness_StepWithoutCommand_illegal :
    cold.fault = 0 ∧ decode 0xFF000000000000000000000000000000#128 = .error (.unassignedOpcode 0xFF) := by
  decide +kernel
theorem witness_StepWithoutCommand_idle : half.pending = [] := by decide +kernel
theorem witness_StepWithoutCommand_reset : { half with pending := [.reset] }.pending = .reset :: [] := by
  decide +kernel
theorem witness_StepWithoutCommand_writeOut :
    { half with pending := [.writeOut 254 7 (1 / 2)] }.pending = .writeOut 254 7 (1 / 2) :: [] ∧ 254 < 255 ∧
      7 < half.hw.maxblkLimit ∧ half.out.wf = true := by decide +kernel
theorem witness_HaltedAnswersOnlyNopAndRdsr :
    { half with fault := 2 }.fault ≠ 0 ∧ { half with fault := 2 }.statusEntry 1 3 = some 0 ∧
      { half with fault := 2 }.statusEntry 1 4 = none ∧ { half with fault := 2 }.statusEntry 5 0 = none ∧
      Instr.setpoly 1 ≠ .nop := by decide +kernel
theorem witness_FaultOneBitUntilReset :
    State.FaultOk { half with fault := 0x40 } ∧ (after { half with fault := 0x40, pending := [.reset] }).isSome ∧
      (run { half with fault := 0x40 } 0).isSome :=
  ⟨.inr ⟨.poolEmpty, by decide +kernel⟩, by decide +kernel, by decide +kernel⟩
theorem witness_FaultingCommandChangesNothing :
    ∃ t, exec (.setp 0x32 0) cold = .next t ∧ cold.fault = 0 ∧ t.response = some ⟨true, 0⟩ :=
  ⟨_, rfl, by decide +kernel, by decide +kernel⟩
theorem witness_NotInitializedBeforeInit : cold.fault = 0 ∧ cold.initd = false := by decide +kernel

/-! ### The commands -/

/-- Every operand check at the first value it refuses, none of which an earlier check refuses. -/
theorem witness_OperandChecksRaise :
    half.fault = 0 ∧ half.initd = true ∧ half.hw.maxblkLimit < (9 : BitVec 32).toNat ∧
      half.hw.maxVoices < (5 : BitVec 16).toNat ∧
      half.hw.shutdownMs * (((499 : BitVec 32).toNat : Nat) : Rat) < 1000 ∧ regOf half.hw.nOps 0x12 = none ∧
      regOf half.hw.nOps 0x00 = some .attackMs ∧ q16 0xFFFFFFFF < 0 ∧ regOf half.hw.nOps 0x31 = some (.mix 1) ∧
      1 < q16 0x00010001 ∧ half.hw.maxVoices ≤ (4 : BitVec 16).toNat ∧
      regOf half.hw.nOps ((0x04 : BitVec 16).setWidth 8) = none ∧
      half.cfgMaxblk.toNat < (5 : BitVec 32).toNat := by decide +kernel
theorem witness_InitLeavesSilentPool :
    half.fault = 0 ∧ (8 : BitVec 32).toNat ≤ half.hw.maxblkLimit ∧ (4 : BitVec 16).toNat ≤ half.hw.maxVoices ∧
      (1000 : Rat) ≤ half.hw.shutdownMs * (((500 : BitVec 32).toNat : Nat) : Rat) := by decide +kernel
theorem witness_SetpolyGrows :
    half.fault = 0 ∧ half.initd = true ∧ (4 : BitVec 16) ≠ 0 ∧ (4 : BitVec 16).toNat ≤ half.hw.maxVoices ∧
      half.pool.active.length ≤ (4 : BitVec 16).toNat ∧
      (4 : BitVec 16).toNat ≤ half.pool.active.length + half.pool.inactive.length := by decide +kernel
theorem witness_SetpolyShrinks :
    half.fault = 0 ∧ half.initd = true ∧ (1 : BitVec 16) ≠ 0 ∧ (1 : BitVec 16).toNat ≤ half.hw.maxVoices ∧
      (1 : BitVec 16).toNat ≤ half.pool.active.length ∧ half.pool.age.length = half.pool.active.length := by
  decide +kernel
theorem witness_SetpWritesOneRegister :
    half.fault = 0 ∧ half.params.Shaped half.hw.nOps ∧ regOf half.hw.nOps 0x03 = some .sustain ∧
      0 ≤ q16 0x00010000 ∧ q16 0x00010000 ≤ 1 ∧ regOf half.hw.nOps 0x02 = some .releaseMs ∧ 0 ≤ q16 0 ∧
      regOf half.hw.nOps 0x10 = some (.ratio 0) := by
  unfold Params.Shaped
  decide +kernel
theorem witness_SetpThenRdsrReadsBack :
    ∃ t, half.params.Shaped half.hw.nOps ∧ half.fault = 0 ∧ exec (.setp 0x11 0x80000000) half = .next t ∧
      t.response = some ⟨false, 0⟩ :=
  ⟨_, by unfold Params.Shaped; decide +kernel, by decide +kernel, rfl, by decide +kernel⟩
theorem witness_RdsrAnswersStatusMap :
    half.pool.active.length < 2 ^ 32 ∧ half.hw.maxVoices < 2 ^ 32 ∧ half.hw.nOps < 2 ^ 32 ∧
      half.hw.sine.length < 2 ^ 32 ∧ regOf half.hw.nOps 0x30 = some (.mix 0) ∧
      half.params.read (.mix 0) = q16 0x00004000 ∧ (3 : BitVec 16).toNat < half.hw.maxVoices ∧
      (1 : BitVec 16).toNat < half.pool.active.length ∧ half.pool.age[(1 : BitVec 16).toNat]? = some 1 ∧
      half.pool.active[(1 : BitVec 16).toNat]? = some 1 ∧
      half.pool.active.length ≤ (2 : BitVec 16).toNat := by decide +kernel
theorem witness_VstatLayout : full.voices[1]? = some stealing := by decide +kernel
theorem witness_NoteOnStartsFirstFreeVoice :
    half.fault = 0 ∧ half.initd = true ∧ 0 ≤ q16 0x00010000 ∧ q16 0x00010000 ≤ 1 ∧ half.pool.active[1]? = some 1 ∧
      half.voices[1]? = some (Voice.fresh 2) ∧ (Voice.fresh 2).masterEnv.state = .off ∧
      ∀ j w, j < 1 → half.pool.active[j]? = some w → playingAt half.voices w = true := by
  refine ⟨by decide +kernel, by decide +kernel, by decide +kernel, by decide +kernel, by decide +kernel,
    by decide +kernel, by decide +kernel, fun j w hj h => ?_⟩
  obtain rfl : j = 0 := by omega
  obtain rfl := Option.some.inj h
  decide +kernel
theorem witness_StartNoteRestartsOperators : ∃ o, sounding.ops[1]? = some o := ⟨_, rfl⟩
theorem witness_NoteOnStealsOldestVoice :
    full.fault = 0 ∧ full.initd = true ∧ 0 ≤ q16 0 ∧ q16 0 ≤ 1 ∧ full.pool.active ≠ [] ∧
      full.pool.age.length = full.pool.active.length ∧
      ∀ w ∈ full.pool.active, playingAt full.voices w = true := by decide +kernel
theorem witness_OldestIsLastMaximum : [0, 5, 2, 5] ≠ [] ∧ oldest [0, 5, 2, 5] = 3 := by decide +kernel
theorem witness_PoolEmptyUnreachable :
    { half with pool := ⟨[], [], []⟩ }.fault = 0 ∧ { half with pool := ⟨[], [], []⟩ }.initd = true ∧
      0 ≤ q16 0 ∧ q16 0 ≤ 1 := by decide +kernel
/-- Two active voices: the first stealing with a note that matches, the second sounding one that does not. -/
theorem witness_NoteOffReleasesEveryMatch :
    full.fault = 0 ∧ full.initd = true ∧ full.pool.active.Nodup ∧ stealing.isStealing = true ∧
      matchesEvent ⟨61, 1, none, 0⟩ stealing.pendingEvent = true ∧
      matchesEvent ⟨60, 0, none, 0⟩ stealing.pendingEvent = false ∧ sounding.isStealing = false ∧
      matchesEvent ⟨61, 1, none, 0⟩ sounding.currentEvent = false ∧
      matchesEvent ⟨0, 15, some 7, 0⟩ sounding.currentEvent = true ∧ 2 ∉ full.pool.active := by decide +kernel
theorem witness_RenderAccumulatesActiveVoices :
    half.fault = 0 ∧ half.initd = true ∧ (1 : BitVec 32).toNat ≤ (4 : BitVec 32).toNat ∧
      (4 : BitVec 32).toNat ≤ half.cfgMaxblk.toNat ∧ half.out.wf = true ∧ half.pool.active.Nodup := by
  decide +kernel

/-! ### Rendering -/

theorem settled_sounding : ∀ o ∈ sounding.ops, o.clock.Settled ∧ o.pm = [] ∧ o.out.wf = true := by
  unfold Clock.Settled
  decide +kernel
theorem witness_VoiceBlockIsScaledMix : sounding.vout.wf = true ∧ 0 < half.ctx.ch := by decide +kernel
theorem witness_OperatorSamplesInClosedForm :
    (⟨1 / 4, 1 / 8, 0, 0⟩ : Clock).Settled ∧ (⟨0, -1 / 8, 0, 0⟩ : Clock).Settled ∧ Operator.fresh.out.wf = true := by
  unfold Clock.Settled
  decide +kernel
theorem witness_ChainModulatesNextOperator :
    ∃ o p p', (∀ o ∈ sounding.ops, o.clock.Settled ∧ o.pm = [] ∧ o.out.wf = true) ∧ 4 ≤ half.ctx.blk ∧
      sounding.ops[0 + 1]? = some o ∧ half.hw.selfMod.getD (0 + 1) false = false ∧
      (renderChain half.ctx 4 none 0 sounding.ops)[0]? = some p ∧
      (renderChain half.ctx 4 none 0 sounding.ops)[0 + 1]? = some p' ∧ 0 < half.ctx.ch :=
  ⟨_, _, _, settled_sounding, by decide +kernel, rfl, by decide +kernel, rfl, rfl, by decide +kernel⟩
/-- The voice's clause: the first operator, with self-feedback, and the last; a block that ends no steal. -/
theorem witness_ChainModulatesNextOperator_voice :
    (∀ o ∈ sounding.ops, o.clock.Settled ∧ o.pm = [] ∧ o.out.wf = true) ∧ 4 ≤ half.ctx.blk ∧
      sounding.ops[0]?.isSome ∧ half.ctx.hw.selfMod.getD 0 false = true ∧ sounding.ops[1]?.isSome ∧
      half.ctx.hw.selfMod.getD 1 false = false ∧ 0 < half.ctx.ch ∧ sounding.isStealing = false ∧
      (stealing.masterEnv.advances half.ctx.params half.ctx.sr 1).state ≠ .off :=
  ⟨settled_sounding, by decide +kernel⟩
theorem witness_OperatorFansOutBoundedSamples :
    half.ctx.hw.SineOk ∧ Operator.fresh.out.wf = true ∧ 0 < half.ctx.ch := by decide +kernel
theorem witness_SplitBlockAdvancesAlike : Operator.fresh.pm = [] := by decide +kernel
theorem witness_FirstBlockOfNoteIsSilent :
    (Voice.fresh 2).masterEnv.state = .off ∧ (Voice.fresh 2).vout.wf = true ∧ 0 < half.ctx.params.attackMs ∧
      0 < half.ctx.sr ∧ 0 < half.ctx.ch := by decide +kernel
theorem legal_params : params.Legal := by
  intro r
  have h : ∀ x : Rat, x ∈ [0, 1 / 4, 1 / 2, 1, 2, 4] → ∃ pat : BitVec 32, x = q16 pat := by
    intro x hx
    refine ⟨patternOf x, ?_⟩
    revert x
    decide +kernel
  cases r with
  | attackMs => exact ⟨h _ (by decide +kernel), by decide +kernel⟩
  | decayMs => exact ⟨h _ (by decide +kernel), by decide +kernel⟩
  | releaseMs => exact ⟨h _ (by decide +kernel), by decide +kernel⟩
  | sustain => exact ⟨h _ (by decide +kernel), by decide +kernel⟩
  | ratio k =>
    rcases k with _ | _ | k
    · exact ⟨h _ (by decide +kernel), rfl⟩
    · exact ⟨h _ (by decide +kernel), rfl⟩
    · exact ⟨h _ (List.mem_cons_self ..), rfl⟩
  | modIndex k =>
    rcases k with _ | _ | k
    · exact ⟨h _ (by decide +kernel), by decide +kernel⟩
    · exact ⟨h _ (by decide +kernel), by decide +kernel⟩
    · exact ⟨h _ (List.mem_cons_self ..), (by decide +kernel : decide ((0 : Rat) ≤ 0) = true)⟩
  | mix k =>
    rcases k with _ | _ | k
    · exact ⟨h _ (by decide +kernel), by decide +kernel⟩
    · exact ⟨h _ (by decide +kernel), by decide +kernel⟩
    · exact ⟨h _ (List.mem_cons_self ..), (by decide +kernel : (decide ((0 : Rat) ≤ 0) && decide ((0 : Rat) ≤ 1)) = true)⟩
theorem bounded_sounding : sounding.masterEnv.Bounded ∧ ∀ o ∈ sounding.ops, o.env.Bounded := by
  refine ⟨⟨by decide +kernel, by decide +kernel, by decide +kernel⟩, fun o ho => ?_⟩
  have : o.env = ⟨.attack, -1 / 4, 1 / 4⟩ := by revert o; decide +kernel
  rw [this]
  exact ⟨by decide +kernel, by decide +kernel, by decide +kernel⟩
theorem witness_VoiceBlockBoundedByMix :
    half.ctx.hw.SineOk ∧ half.ctx.params.Legal ∧ sounding.masterEnv.Bounded ∧ sounding.vout.wf = true ∧
      (∀ o ∈ sounding.ops, o.out.wf = true) ∧ 0 < half.ctx.ch :=
  ⟨by decide +kernel, legal_params, bounded_sounding.1, by decide +kernel, by decide +kernel, by decide +kernel⟩

/-! ### Clock, oscillator, envelope, stealing -/

theorem witness_WrapIsPhaseModuloOne :
    wrap1 0 = 0 ∧ wrap1 1 = 0 ∧ wrap1 (-1) = 0 ∧ wrap1 (-1 / 4) = 3 / 4 ∧ wrap1 (2999 / 1000) = 999 / 1000 := by
  decide +kernel
theorem witness_OffsetFoldedAndRemovedIsGone :
    (0 : Rat) ≤ 3 / 4 ∧ (3 / 4 : Rat) < 1 ∧ (⟨3 / 4, 1 / 4, 0, 0⟩ : Clock).phaseOffset = 0 ∧
      ((⟨3 / 4, 1 / 4, 0, 0⟩ : Clock).addPhaseOffset (-1) true).mcounter = 3 / 4 := by decide +kernel
theorem witness_Oscillator :
    hw.SineOk ∧ hw.sine.length % 4 = 0 ∧ (0 : Rat) ≤ 0 ∧ (0 : Rat) ≤ 7 / 8 ∧ (7 / 8 : Rat) < 1 ∧ (0 : Rat) < 1 / 4 ∧
      1 / 4 * (hw.sine.length : Rat) ≤ 1 ∧ 3 < hw.sine.length := by decide +kernel
theorem witness_Oscillator_close : hw.SineClose := Config.filler_close
/-- An attack of 4 1/2 samples: the last advance below 1 and the one that reaches Decay (T-ENV2); one of 4, exactly. -/
theorem witness_AttackReachesDecayAfterItsTime :
    (0 : Rat) < 9 / 2 ∧ (0 : Rat) < 1500 ∧ (3 : Rat) * 1500 = 1000 * (9 / 2) ∧ ((4 : Nat) : Rat) < 9 / 2 ∧
      (9 / 2 : Rat) ≤ ((5 : Nat) : Rat) ∧ ((5 : Nat) : Rat) < 9 / 2 + 1 ∧ params.attackMs * 1000 = 1000 * 4 ∧
      (4 : Rat) ≤ ((4 : Nat) : Rat) ∧ ((4 : Nat) : Rat) < 4 + 1 := by decide +kernel
theorem witness_DecayAndReleaseRunToTheirEnds :
    (0 : Rat) < 3 ∧ (0 : Rat) < 1500 ∧ params.decayMs * 1500 = 1000 * 3 ∧ params.releaseMs * 1500 = 1000 * 3 ∧
      (0 : Rat) < 1 / 2 ∧ params.releaseMs * 250 = 1000 * (1 / 2) ∧
      stealing.masterEnv.state ≠ .off ∧ 0 < stealing.masterEnv.outputValue := by decide +kernel
theorem witness_ZeroTimesEndAtNextAdvance :
    chain.params.attackMs = 0 ∧ chain.params.decayMs = 0 ∧ chain.params.releaseMs = 0 ∧
      (⟨.attack, -1 / 4, 1 / 4⟩ : Env).state ≠ .off ∧ (⟨.attack, -1 / 4, 1 / 4⟩ : Env).outputValue ≤ 0 ∧
      (⟨.sustain, 0, 0⟩ : Env).outputValue ≤ 0 := by decide +kernel
theorem witness_ShutdownEndsInTime :
    0 < hw.shutdownMs ∧ 1000 ≤ hw.shutdownMs * 500 ∧ hw.shutdownMs * 500 / 1000 ≤ ((1 : Nat) : Rat) := by
  decide +kernel
/-- The steal check's three cases: not stealing, stealing with a note waiting, stealing with none. -/
theorem witness_StealCheckAfterRender :
    sounding.isStealing = false ∧ stealing.isStealing = true ∧
      (stealing.masterEnv.advances half.ctx.params half.ctx.sr 1).state ≠ .off ∧
      (stealing.masterEnv.advances half.ctx.params half.ctx.sr 2).state = .off ∧
      stealing.pendingEvent = some ⟨61, 1, none, 1⟩ ∧
      ({ stealing with pendingEvent := none }).pendingEvent = none := by decide +kernel
theorem witness_StealEndsInTime :
    sounding.masterEnv.state ≠ .off ∧ 0 < half.ctx.hw.shutdownMs ∧ 1000 ≤ half.ctx.hw.shutdownMs * half.ctx.sr ∧
      half.ctx.hw.shutdownMs * half.ctx.sr / 1000 ≤ (([1, 0, 1].sum : Nat) : Rat) := by decide +kernel

/-! ### Every invariant holds of a playing state that takes a RENDER -/

/-- `full`, with a RENDER of the whole block presented. -/
def busy : State := full.withFetchWord 128 0x20000000000000000000000400000000

theorem busy_steps : ∃ t, step busy = .next t := after_some (by decide +kernel)
theorem witness_EachPieceHasItsWriters : ∃ t, exec (.render 0 4) full = .next t := ⟨_, rfl⟩
theorem witness_VelocityHasNoEffect :
    (∃ t, half.mute = ({ half with voices := [{ sounding with currentEvent := some ⟨60, 0, some 7, 0⟩ },
      Voice.fresh 2, Voice.fresh 2, Voice.fresh 2] } : State).mute ∧ exec (.render 0 4) half = .next t) ∧
      0 ≤ q16 0 ∧ q16 0 ≤ 1 ∧ 0 ≤ q16 0x00010000 ∧ q16 0x00010000 ≤ 1 :=
  ⟨⟨_, by decide +kernel, rfl⟩, by decide +kernel⟩
theorem witness_NoRunStops :
    (∀ x ∈ busy.pending, x.Proper busy.hw) ∧ ∃ t, Reaches busy t ∧ t.pending = [] := by
  refine ⟨fun x hx => ?_, ?_⟩
  · obtain rfl := List.mem_singleton.mp hx
    trivial
  · have h : (after busy).map State.pending = some [] := by decide +kernel
    obtain ⟨t, ht⟩ := busy_steps
    refine ⟨t, .further .here ht, ?_⟩
    rw [after, ht] at h
    exact Option.some.inj h
theorem witness_StepKeepsShape : busy.Shaped ∧ ∃ t, step busy = .next t :=
  ⟨by unfold State.Shaped Params.Shaped; decide +kernel, busy_steps⟩
theorem witness_StepKeepsPool : busy.PoolOk ∧ ∃ t, step busy = .next t :=
  ⟨by unfold State.PoolOk Pool.Consistent; decide +kernel, busy_steps⟩
theorem witness_StepKeepsArrays : busy.ConfigOk ∧ busy.ArraysOk ∧ ∃ t, step busy = .next t :=
  ⟨by unfold State.ConfigOk; decide +kernel, by unfold State.ArraysOk Space.Ok; decide +kernel, busy_steps⟩
theorem witness_StepKeepsOperatorsSettled : busy.OperatorsSettled ∧ ∃ t, step busy = .next t :=
  ⟨by unfold State.OperatorsSettled Clock.Settled; decide +kernel, busy_steps⟩
theorem witness_StepKeepsParamsLegal : busy.params.Legal ∧ ∃ t, step busy = .next t := ⟨legal_params, busy_steps⟩
theorem bounded_busy : busy.EnvelopesBounded := by
  have hf : Env.silent.Bounded := ⟨by decide +kernel, by decide +kernel, by decide +kernel⟩
  have hv : ∀ v ∈ busy.voices, v = sounding ∨ v = stealing ∨ v = Voice.fresh 2 := by decide +kernel
  intro v h
  rcases hv v h with rfl | rfl | rfl
  · exact bounded_sounding
  · exact ⟨⟨by decide +kernel, by decide +kernel, by decide +kernel⟩, bounded_sounding.2⟩
  · refine ⟨hf, fun o ho => ?_⟩
    rw [List.eq_of_mem_replicate ho]
    exact hf
theorem witness_StepKeepsEnvelopesBounded :
    0 < busy.hw.shutdownMs ∧ busy.params.Legal ∧ busy.ConfigOk ∧ busy.EnvelopesBounded ∧
      ∃ t, step busy = .next t :=
  ⟨by decide +kernel, legal_params, witness_StepKeepsArrays.1, bounded_busy, busy_steps⟩
theorem witness_StepKeepsVoiceControl : busy.ControlOk ∧ ∃ t, step busy = .next t :=
  ⟨by unfold State.ControlOk Voice.ControlOk; decide +kernel, busy_steps⟩
theorem witness_RenderGrowthBounded :
    ∃ t, full.hw.Wf ∧ full.Shaped ∧ full.params.Legal ∧ full.EnvelopesBounded ∧ full.ArraysOk ∧
      full.pool.active.Nodup ∧ full.fault = 0 ∧ exec (.render 0 4) full = .next t :=
  ⟨_, by decide +kernel, witness_StepKeepsShape.1, legal_params, bounded_busy, witness_StepKeepsArrays.2.1,
    by decide +kernel, by decide +kernel, rfl⟩

end Sys2Proof.Tests
end

/-! PROOF. The fields of `VSTAT[v]` (10_state.md R28): where each stands in the 32-bit word of a voice, and what the
word of a physical voice is. -/

namespace Sys2Proof.Machine

/-! ### The values of the fields -/

theorem Env.isPlaying_eq (e : Env) : e.isPlaying = (e.state != .off) := rfl

theorem noteOf_eq_elim (e : Option Event) : noteOf e = e.elim 0 Event.note := by
  cases e <;> rfl

theorem channelOf_eq_elim (e : Option Event) : channelOf e = e.elim 0 Event.channel := by
  cases e <;> rfl

/-! ### The places of the fields

The word is a concatenation with bit 0 on the right, so the fields below the one that is read fall off one after
the other, each with its width. The rule for width 1 stands apart: the word's own type is 32 bits wide and does not
show that `playing` is the last part of a sum. -/

section
variable (vc : Voice) (active : Bool)

/-- The one-bit fields. -/
theorem Voice.status_flags :
    (vc.status active).getLsbD 0 = vc.isPlaying ∧
    (vc.status active).getLsbD 1 = vc.isStealing ∧
    (vc.status active).getLsbD 2 = vc.currentEvent.isSome ∧
    (vc.status active).getLsbD 3 = vc.pendingEvent.isSome ∧
    (vc.status active).getLsbD 7 = active := by
  refine ⟨?_, ?_, ?_, ?_, ?_⟩ <;>
    simp only [Voice.status, BitVec.getLsbD_append (m := 1), BitVec.getLsbD_append, BitVec.getLsbD_ofBool,
      Nat.reduceSub, Nat.reduceLT, if_true, if_false, decide_true, Bool.true_and]

/-- The fields of more than one bit, from bit 4 up. -/
theorem Voice.status_fields :
    (vc.status active).extractLsb' 4 3 = vc.masterEnv.state.code ∧
    (vc.status active).extractLsb' 8 7 = noteOf vc.currentEvent ∧
    (vc.status active).extractLsb' 15 4 = channelOf vc.currentEvent ∧
    (vc.status active).extractLsb' 19 7 = noteOf vc.pendingEvent ∧
    (vc.status active).extractLsb' 26 4 = channelOf vc.pendingEvent ∧
    (vc.status active).extractLsb' 30 2 = 0 := by
  refine ⟨?_, ?_, ?_, ?_, ?_, ?_⟩ <;>
    simp only [Voice.status, BitVec.extractLsb'_append_eq_of_le (w := 1), BitVec.extractLsb'_append_eq_of_le,
      BitVec.extractLsb'_append_eq_right, BitVec.extractLsb'_eq_self, Nat.reduceLeDiff, Nat.reduceSub]

end

/-- The view of a physical voice that exists is the word of that voice. -/
theorem State.vstat_eq_status {s : State} {v : Nat} {vc : Voice} (h : s.voices[v]? = some vc) :
    s.vstat v = vc.status (s.pool.active.contains v) := by
  rw [State.vstat, List.getD_eq_getElem?_getD, h, Option.getD_some]

/-- Settles O22: the view is the voice's word, and each field is read off that word. -/
theorem vstatLayout : Obligations.VstatLayout := by
  unfold Obligations.VstatLayout
  intro s v vc h
  obtain ⟨playing, stealing, curValid, pendValid, active⟩ := vc.status_flags (s.pool.active.contains v)
  obtain ⟨env, curNote, curChannel, pendNote, pendChannel, reserved⟩ :=
    vc.status_fields (s.pool.active.contains v)
  rw [State.vstat_eq_status h, ← noteOf_eq_elim, ← noteOf_eq_elim, ← channelOf_eq_elim, ← channelOf_eq_elim]
  refine ⟨playing.trans (vc.isPlaying_eq.trans vc.masterEnv.isPlaying_eq), stealing, curValid, pendValid, ?_, ?_,
    curNote, curChannel, pendNote, pendChannel, reserved⟩
  · rw [env]
    cases vc.masterEnv.state <;> rfl
  · rw [active, List.contains_eq_mem]

end Sys2Proof.Machine

/-! PROOF. Two operand forms: the value of a Q16.16 pattern and the pattern found again from it (30_encoding.md R84,
10_state.md R27 bank 4), and which index names which parameter register (10_state.md R21, 30_encoding.md R90). -/

namespace Sys2Proof.Machine

/-! ### Q16.16 values -/

theorem q16_mul_eq_toInt (p : BitVec 32) : q16 p * 65536 = ((p.toInt : Int) : Num) :=
  div_mul_cancel₀ _ (by norm_num)

/-- The least value is that of the pattern with the sign bit alone. -/
theorem neg_le_q16 (p : BitVec 32) : -32768 ≤ q16 p := by
  have hp : (-2147483648 : Num) ≤ (p.toInt : Num) := by exact_mod_cast p.le_toInt
  rw [q16, le_div_iff₀ (by norm_num)]
  linarith only [hp]

theorem q16_lt (p : BitVec 32) : q16 p < 32768 := by
  have hp : (p.toInt : Num) < 2147483648 := by exact_mod_cast p.toInt_lt
  rw [q16, div_lt_iff₀ (by norm_num)]
  linarith only [hp]

/-- A pattern is found again from its value: the value times 65536 is a whole number, so the floor drops nothing. -/
theorem patternOf_q16 (p : BitVec 32) : patternOf (q16 p) = p := by
  rw [patternOf, q16_mul_eq_toInt, Int.floor_intCast, BitVec.ofInt_toInt]

/-- Settles O6. -/
theorem q16ValueAndPattern : Obligations.Q16ValueAndPattern := by
  unfold Obligations.Q16ValueAndPattern
  exact fun p => ⟨q16_mul_eq_toInt p, neg_le_q16 p, q16_lt p, patternOf_q16 p⟩

/-! ### Parameter register indices

An index has two hexadecimal digits: the upper one is the row of the register map, the lower one the place in it. -/

theorem regIndex_row (r : BitVec 8) : (r.extractLsb' 4 4).toNat = r.toNat / 16 := by
  have := r.isLt
  rw [BitVec.extractLsb'_toNat, Nat.shiftRight_eq_div_pow]
  omega

theorem regIndex_place (r : BitVec 8) : (r.extractLsb' 0 4).toNat = r.toNat % 16 := by
  rw [BitVec.extractLsb'_toNat, Nat.shiftRight_zero]

/-- The register map by the two digits of the index: row 0 holds the four scalars, rows 1 to 3 one register per
operator. -/
theorem regOf_eq_some_iff (n : Nat) (r : BitVec 8) (reg : Reg) :
    regOf n r = some reg ↔
      (r.toNat = 0x00 ∧ reg = .attackMs) ∨ (r.toNat = 0x01 ∧ reg = .decayMs) ∨
      (r.toNat = 0x02 ∧ reg = .releaseMs) ∨ (r.toNat = 0x03 ∧ reg = .sustain) ∨
      (r.toNat / 16 = 1 ∧ r.toNat % 16 < n ∧ reg = .ratio (r.toNat % 16)) ∨
      (r.toNat / 16 = 2 ∧ r.toNat % 16 < n ∧ reg = .modIndex (r.toNat % 16)) ∨
      (r.toNat / 16 = 3 ∧ r.toNat % 16 < n ∧ reg = .mix (r.toNat % 16)) := by
  simp only [regOf, regIndex_row, regIndex_place]
  split
  case h_1 => split <;> grind -- row 0: the place selects the scalar
  all_goals grind -- rows 1 to 3 and the rows without registers

/-- In a row of one register per operator, `16 * row + k` is the index of operator `k`'s register. The bound keeps
`k` within one digit. -/
theorem exists_operator_index_iff {n : Nat} (hn : n ≤ 16) (row x : Nat) (f : Nat → Reg) (reg : Reg) :
    (∃ k, k < n ∧ x = 16 * row + k ∧ reg = f k) ↔ x / 16 = row ∧ x % 16 < n ∧ reg = f (x % 16) := by
  constructor
  · rintro ⟨k, hk, rfl, rfl⟩
    have hplace : (16 * row + k) % 16 = k := by omega
    rw [hplace]
    exact ⟨by omega, hk, rfl⟩
  · rintro ⟨hrow, hplace, rfl⟩
    exact ⟨x % 16, hplace, by omega, rfl⟩

/-- Settles O7: each row of operator registers, read by digits, is the range of indices the map gives it. -/
theorem registerIndexMap : Obligations.RegisterIndexMap := by
  unfold Obligations.RegisterIndexMap
  intro n r reg hn
  rw [regOf_eq_some_iff, ← exists_operator_index_iff hn 1, ← exists_operator_index_iff hn 2,
    ← exists_operator_index_iff hn 3]

end Sys2Proof.Machine

/-! PROOF. The voice's note rules: what starting a note writes (44_voice.md R184) and which note a NOTE_OFF matches
(44_voice.md R185). -/

namespace Sys2Proof.Machine

/-! ### Starting a note -/

/-- The note-on level lies one attack step below 0, so that the first advance reaches 0 (42_envelope.md R133). -/
theorem Env.noteOn_eq (p : Params) (sr : Num) :
    Env.noteOn p sr = ⟨.attack, 0 - segStep p.attackMs sr, segStep p.attackMs sr⟩ := rfl

theorem opFreq_eq (x : Ctx) (note : BitVec 7) (k : Nat) :
    opFreq x note k = x.hw.noteFreq.getD note.toNat 0 * x.params.ratio.getD k 0 := rfl

/-- A restarted and retuned clock keeps nothing of what it was (40_clock.md R101, R108). -/
theorem Clock.restart_setFreq (c : Clock) (freqHz sr : Num) :
    c.restart.setFreq freqHz sr = ⟨0, freqHz / sr, 0, 0⟩ := rfl

/-- Of an operator only the two arrays survive a note-on (43_operator.md R163). -/
theorem Operator.noteOn_eq (x : Ctx) (freqHz : Num) (o : Operator) :
    o.noteOn x freqHz =
      { clock := ⟨0, freqHz / x.sr, 0, 0⟩, env := Env.noteOn x.params x.sr, lastOutput := 0,
        pm := o.pm, out := o.out } := by
  rw [Operator.noteOn, Clock.restart_setFreq]

/-- Starting a note triggers operator `k` at its own frequency (44_voice.md R182, R184). -/
theorem Voice.startNote_getElem? {v : Voice} {k : Nat} {o : Operator} (h : v.ops[k]? = some o) (x : Ctx)
    (ev : Event) : (v.startNote x ev).ops[k]? = some (o.noteOn x (opFreq x ev.note k)) := by
  rw [Voice.startNote, List.getElem?_mapIdx, h, Option.map_some]

/-- Settles O24: the voice's own fields are written or kept as the record update says, and each operator is the one
its note-on leaves. -/
theorem startNoteRestartsOperators : Obligations.StartNoteRestartsOperators := by
  unfold Obligations.StartNoteRestartsOperators
  intro x ev v
  refine ⟨rfl, rfl, rfl, rfl, Env.noteOn_eq x.params x.sr, rfl, rfl, rfl, v.startNote_length x ev, ?_⟩
  intro k o ho
  rw [Voice.startNote_getElem? ho, Operator.noteOn_eq, opFreq_eq, Env.noteOn_eq, segStep]

/-! ### The match rule -/

/-- Ids match when both are present and equal; an absent id matches none, not even another absent one
(44_voice.md R185). -/
theorem sameVoiceId_eq_true_iff (i j : Option Reg32) :
    sameVoiceId i j = true ↔ ∃ a, i = some a ∧ j = some a := by
  cases i with
  | none => simp [sameVoiceId]
  | some a =>
    cases j with
    | none => simp [sameVoiceId]
    | some b =>
      rw [sameVoiceId, beq_iff_eq]
      constructor
      · rintro rfl
        exact ⟨a, rfl, rfl⟩
      · rintro ⟨c, hi, hj⟩
        exact Option.some.inj (hi.trans hj.symm)

theorem matchesEvent_none (e : Event) : matchesEvent e none = false := rfl

theorem matchesEvent_some (e s : Event) :
    matchesEvent e (some s) =
      (sameVoiceId e.voiceId s.voiceId || (e.channel == s.channel && e.note == s.note)) := rfl

/-- Settles O29: the two alternatives of the match rule, the first one by the rule for two ids. -/
theorem matchByIdElseChannelAndNote : Obligations.MatchByIdElseChannelAndNote := by
  unfold Obligations.MatchByIdElseChannelAndNote
  refine fun e => ⟨matchesEvent_none e, fun s => ?_⟩
  rw [matchesEvent_some, Bool.or_eq_true, sameVoiceId_eq_true_iff, Bool.and_eq_true, beq_iff_eq, beq_iff_eq]

end Sys2Proof.Machine

/-! PROOF. The voice pool's commands: the oldest-voice selection (45_voice_pool.md R211), the broadcast of a NOTE_OFF
(45_voice_pool.md R215, 44_voice.md R186), and the rendering of a block into `OUT` (45_voice_pool.md R222). -/

namespace Sys2Proof.Machine

/-! ### Oldest-voice selection -/

/-- A property of the loop variable and the number of turns taken, kept from each turn to the next. -/
theorem forUpTo_induction {α : Type} {P : Nat → α → Prop} {f : Nat → α → α} {n : Nat} {a : α} (h0 : P 0 a)
    (hs : ∀ i a, P i a → P (i + 1) (f i a)) : P n (forUpTo n f a) := by
  induction n with
  | zero => exact h0
  | succ n ih => exact hs n _ ih

/-- The selection's loop invariant: among the indices up to `n`, `t` is the last with the largest age. -/
def IsLastOldest (age : List Nat) (n t : Nat) : Prop :=
  ∀ j, j ≤ n → age.getD j 0 ≤ age.getD t 0 ∧ (age.getD j 0 = age.getD t 0 → j ≤ t)

/-- One turn: the next index replaces the target unless it is strictly younger, so equal ages move the target up. -/
theorem IsLastOldest.succ {age : List Nat} {n t : Nat} (h : IsLastOldest age n t) :
    IsLastOldest age (n + 1) (if age.getD t 0 ≤ age.getD (n + 1) 0 then n + 1 else t) := by
  intro j hj
  split
  case isTrue hle =>
    refine ⟨?_, fun _ => hj⟩
    obtain hlt | rfl := Nat.lt_or_eq_of_le hj
    · exact (h j (by omega)).1.trans hle
    · exact le_rfl
  case isFalse hlt =>
    obtain hj' | rfl := Nat.lt_or_eq_of_le hj
    · exact h j (by omega)
    · exact ⟨by omega, fun heq => absurd heq.ge hlt⟩

theorem isLastOldest_oldest (age : List Nat) : IsLastOldest age (age.length - 1) (oldest age) := by
  refine forUpTo_induction (P := IsLastOldest age) (fun j hj => ?_) (fun _ _ h => h.succ)
  obtain rfl : j = 0 := by omega
  exact ⟨le_rfl, fun _ => le_rfl⟩

/-- Settles O26: the invariant of the selection loop once every index has been looked at. -/
theorem oldestIsLastMaximum : Obligations.OldestIsLastMaximum := by
  unfold Obligations.OldestIsLastMaximum
  intro age hne
  refine ⟨age.getD (oldest age) 0, ?_, fun j a ha => ?_⟩
  · rw [List.getD_eq_getElem _ _ (oldest_lt hne), List.getElem?_eq_getElem (oldest_lt hne)]
  · obtain ⟨hj, rfl⟩ := List.getElem?_eq_some_iff.mp ha
    rw [← List.getD_eq_getElem age 0 hj]
    exact isLastOldest_oldest age j (by omega)

/-! ### NOTE_OFF -/

/-- While stealing, a note-off can only cancel the waiting note (44_voice.md R186). -/
theorem Voice.noteOff_of_stealing {v : Voice} (h : v.isStealing = true) (x : Ctx) (e : Event) :
    v.noteOff x e = if matchesEvent e v.pendingEvent then { v with pendingEvent := none } else v := by
  rw [Voice.noteOff, if_pos h]

/-- Otherwise it can only release the sounding note (44_voice.md R186). -/
theorem Voice.noteOff_of_not_stealing {v : Voice} (h : v.isStealing = false) (x : Ctx) (e : Event) :
    v.noteOff x e = if matchesEvent e v.currentEvent then v.releaseNote x else v := by
  rw [Voice.noteOff, if_neg (ne_true_of_eq_false h)]

/-- A release in terms of its envelopes (43_operator.md R164, 44_voice.md R186). -/
theorem Voice.releaseNote_eq (x : Ctx) (v : Voice) :
    v.releaseNote x =
      { v with
        ops := v.ops.map (fun o => { o with env := o.env.noteOff x.params x.sr })
        masterEnv := v.masterEnv.noteOff x.params x.sr
        currentEvent := none } := rfl

/-- The event of a NOTE_OFF (30_encoding.md R85, 46_commands.md R252). -/
theorem offEvent_eq (vp : Bool) (note : BitVec 7) (ch : BitVec 4) (vid : BitVec 32) :
    offEvent vp note ch vid = ⟨note, ch, if vp then some vid else none, 0⟩ := rfl

/-- A NOTE_OFF that passes the guards is the broadcast of its event (46_commands.md R252). -/
theorem exec_noteOff_of_ready {s : State} (hf : s.fault = 0) (hi : s.initd = true) (vp : Bool) (note : BitVec 7)
    (ch : BitVec 4) (vid : BitVec 32) :
    exec (.noteOff vp note ch vid) s = .next ((s.noteOffEvent (offEvent vp note ch vid)).respond 0) := by
  rw [exec, execNoteOff, State.unlessHalted_run _ _ hf, State.ifInitialised_run _ _ hi]

/-- Settles O28: the broadcast applies the voice's own note-off to each active voice once, and that note-off splits
on stealing and on the match. -/
theorem noteOffReleasesEveryMatch : Obligations.NoteOffReleasesEveryMatch := by
  unfold Obligations.NoteOffReleasesEveryMatch
  intro s vp note ch vid hf hi hn
  refine ⟨(s.noteOffEvent (offEvent vp note ch vid)).voices, exec_noteOff_of_ready hf hi vp note ch vid,
    forActive_length _ _ _, fun v vc hv => ⟨fun hmem => ?_, fun hmem => ?_⟩⟩
  · rw [State.noteOffEvent_voices, forActive_get_other hmem, hv]
  · have hvs : (s.noteOffEvent (offEvent vp note ch vid)).voices[v]? =
        some (vc.noteOff s.ctx ⟨note, ch, if vp then some vid else none, 0⟩) := by
      rw [State.noteOffEvent_voices, forActive_get hn hmem, hv, Option.map_some, offEvent_eq]
    rw [hvs]
    refine ⟨fun hs hm => ?_, fun hs hm => ?_, fun hs hm => ?_, fun hs hm => ?_⟩
    · rw [Voice.noteOff_of_stealing hs, if_pos hm]
    · rw [Voice.noteOff_of_stealing hs, if_neg (ne_true_of_eq_false hm)]
    · rw [Voice.noteOff_of_not_stealing hs, if_neg (ne_true_of_eq_false hm)]
    · rw [Voice.noteOff_of_not_stealing hs, if_pos hm, Voice.releaseNote_eq, State.ctx_params, State.ctx_sr]

/-! ### RENDER -/

theorem blockLegal_iff (s : State) (a b : BitVec 32) :
    blockLegal s a b = true ↔ a.toNat ≤ b.toNat ∧ b.toNat ≤ s.cfgMaxblk.toNat := by
  rw [blockLegal, Bool.and_eq_true, decide_eq_true_iff, decide_eq_true_iff]

/-- A RENDER that passes the guards and its operand check is the pool's render (46_commands.md R254). -/
theorem exec_render_of_legal {s : State} (hf : s.fault = 0) (hi : s.initd = true) {a b : BitVec 32}
    (hl : blockLegal s a b = true) :
    exec (.render a b) s = .next ((s.poolRender a.toNat b.toNat).respond 0) := by
  rw [exec, execRender, State.unlessHalted_run _ _ hf, State.ifInitialised_run _ _ hi, if_pos hl]

section
variable (s : State) (a b : Nat)

/-- A render writes voices and `OUT`, nothing else. -/
theorem State.poolRender_frame :
    s.poolRender a b = { s with voices := (s.poolRender a b).voices, out := (s.poolRender a b).out } := by
  by_cases hn : b - a = 0
  · rw [State.poolRender_empty s hn]
  · rw [State.poolRender_block s hn]

theorem State.poolRender_voices_length : (s.poolRender a b).voices.length = s.voices.length := by
  by_cases hn : b - a = 0
  · rw [State.poolRender_empty s hn]
  · rw [State.poolRender_block s hn]
    exact forActive_length _ _ _

/-- Each active voice renders the block, unless it is empty; a parked voice does not. -/
theorem State.poolRender_voice (hact : s.pool.active.Nodup) (v : Nat) :
    (s.poolRender a b).voices[v]? =
      (s.voices[v]?).map (fun vc => if v ∈ s.pool.active ∧ a < b then vc.render s.ctx (b - a) else vc) := by
  by_cases hn : b - a = 0
  · have hab : ¬ a < b := by omega
    simp only [State.poolRender_empty s hn, hab, and_false, if_false, Option.map_id']
  · have hab : a < b := by omega
    simp only [State.poolRender_block s hn, hab, and_true]
    by_cases hmem : v ∈ s.pool.active
    · simp only [forActive_get hact hmem, hmem, if_true]
    · simp only [forActive_get_other hmem, hmem, if_false, Option.map_id']

/-- What a render adds to an element of `OUT`: the blocks the active voices hold after it. -/
theorem State.poolRender_out_read (hout : s.out.wf = true) (c j : Nat) :
    (s.poolRender a b).out.read (c, j) = s.out.read (c, j) +
      (if c < s.cfgCh.toNat ∧ a ≤ j ∧ j < b then
        (s.pool.active.map (fun v =>
          ((s.poolRender a b).voices[v]?).elim 0 (fun w => w.vout.read (c, j - a)))).sum
      else 0) := by
  by_cases hn : b - a = 0
  · have hempty : ¬ (c < s.cfgCh.toNat ∧ a ≤ j ∧ j < b) := by omega
    rw [State.poolRender_empty s hn, if_neg hempty, add_zero]
  · have hend : a + (b - a) = b := by omega
    rw [State.poolRender_block s hn, (accumulateActive_read hout _ _ _ _ _ c j).1, State.ctx_ch, hend]

end

/-- Settles O30: what the pool's render leaves of the voices, of `OUT` and of the rest. -/
theorem renderAccumulatesActiveVoices : Obligations.RenderAccumulatesActiveVoices := by
  unfold Obligations.RenderAccumulatesActiveVoices
  intro s a b hf hi hab hb hout hact
  refine ⟨(s.poolRender a.toNat b.toNat).voices, (s.poolRender a.toNat b.toNat).out, ?_,
    s.poolRender_voices_length _ _, fun v vc hv => ?_, s.poolRender_out_read _ _ hout⟩
  · rw [exec_render_of_legal hf hi ((blockLegal_iff s a b).mpr ⟨hab, hb⟩)]
    exact congrArg (fun t => Host.Outcome.next (t.respond 0)) (s.poolRender_frame a.toNat b.toNat)
  · rw [s.poolRender_voice _ _ hact, hv, Option.map_some]

end Sys2Proof.Machine

/-! PROOF. The command encoding (30_encoding.md R81 to R88): which words each row of the opcode table takes, that no
word is taken by two rows, and that decoding and encoding are inverse to each other. -/

namespace Sys2Proof

/-! ### Which words a row takes

A row fixes the opcode and, of each other field, the bits of its mask to 0. -/

/-- A row's test field by field, for a mask that covers the whole opcode. -/
theorem Row.hits_iff_of_packed {r : Row} {op mf : BitVec 8} {mg : BitVec 16} {ma mb mc : BitVec 32}
    (hp : r.pattern = packWord op 0 0 0 0 0) (hm : r.mask = packWord (.allOnes 8) mf mg ma mb mc) (w : Word) :
    r.hits w = true ↔
      fieldOp w = op ∧ fieldF w &&& mf = 0 ∧ fieldG w &&& mg = 0 ∧ fieldA w &&& ma = 0 ∧ fieldB w &&& mb = 0 ∧
        fieldC w &&& mc = 0 := by
  obtain ⟨p1, p2, p3, p4, p5, p6⟩ := fields_packWord op 0 0 0 0 0
  obtain ⟨m1, m2, m3, m4, m5, m6⟩ := fields_packWord (.allOnes 8) mf mg ma mb mc
  rw [Row.hits_iff, hp, hm, p1, p2, p3, p4, p5, p6, m1, m2, m3, m4, m5, m6, BitVec.and_allOnes]

@[simp] theorem rowNop_hits_iff (w : Word) :
    rowNop.hits w = true ↔ fieldOp w = 0x00 ∧ fieldF w = 0 ∧ fieldG w = 0 ∧ fieldA w = 0 ∧ fieldB w = 0 ∧
      fieldC w = 0 := by
  rw [Row.hits_iff_of_packed (op := 0x00) (mf := .allOnes 8) (mg := .allOnes 16) (ma := .allOnes 32)
    (mb := .allOnes 32) (mc := .allOnes 32) (by decide) (by decide)]
  simp only [BitVec.and_allOnes]

@[simp] theorem rowInit_hits_iff (w : Word) : rowInit.hits w = true ↔ fieldOp w = 0x01 ∧ fieldC w = 0 := by
  rw [Row.hits_iff_of_packed (op := 0x01) (mf := 0) (mg := 0) (ma := 0) (mb := 0) (mc := .allOnes 32)
    (by decide) (by decide)]
  simp [-BitVec.reduceAllOnes]

@[simp] theorem rowSetpoly_hits_iff (w : Word) :
    rowSetpoly.hits w = true ↔ fieldOp w = 0x02 ∧ fieldF w = 0 ∧ fieldA w = 0 ∧ fieldB w = 0 ∧ fieldC w = 0 := by
  rw [Row.hits_iff_of_packed (op := 0x02) (mf := .allOnes 8) (mg := 0) (ma := .allOnes 32) (mb := .allOnes 32)
    (mc := .allOnes 32) (by decide) (by decide)]
  simp [-BitVec.reduceAllOnes]

@[simp] theorem rowSetp_hits_iff (w : Word) :
    rowSetp.hits w = true ↔ fieldOp w = 0x03 ∧ fieldG w = 0 ∧ fieldB w = 0 ∧ fieldC w = 0 := by
  rw [Row.hits_iff_of_packed (op := 0x03) (mf := 0) (mg := .allOnes 16) (ma := 0) (mb := .allOnes 32)
    (mc := .allOnes 32) (by decide) (by decide)]
  simp [-BitVec.reduceAllOnes]

@[simp] theorem rowRdsr_hits_iff (w : Word) :
    rowRdsr.hits w = true ↔ fieldOp w = 0x04 ∧ fieldA w = 0 ∧ fieldB w = 0 ∧ fieldC w = 0 := by
  rw [Row.hits_iff_of_packed (op := 0x04) (mf := 0) (mg := 0) (ma := .allOnes 32) (mb := .allOnes 32)
    (mc := .allOnes 32) (by decide) (by decide)]
  simp [-BitVec.reduceAllOnes]

@[simp] theorem rowNoteOn_hits_iff (w : Word) :
    rowNoteOn.hits w = true ↔ fieldOp w = 0x10 ∧ fieldG w &&& 0xFFF0#16 = 0#16 ∧ fieldC w = 0 := by
  rw [Row.hits_iff_of_packed (op := 0x10) (mf := 0) (mg := 0xFFF0) (ma := 0) (mb := 0) (mc := .allOnes 32)
    (by decide) (by decide)]
  simp [-BitVec.reduceAllOnes]

@[simp] theorem rowNoteOff_hits_iff (w : Word) :
    rowNoteOff.hits w = true ↔ fieldOp w = 0x11 ∧ fieldG w &&& 0xFFF0#16 = 0#16 ∧ fieldB w = 0 ∧ fieldC w = 0 := by
  rw [Row.hits_iff_of_packed (op := 0x11) (mf := 0) (mg := 0xFFF0) (ma := 0) (mb := .allOnes 32)
    (mc := .allOnes 32) (by decide) (by decide)]
  simp [-BitVec.reduceAllOnes]

@[simp] theorem rowRender_hits_iff (w : Word) :
    rowRender.hits w = true ↔ fieldOp w = 0x20 ∧ fieldF w = 0 ∧ fieldG w = 0 ∧ fieldC w = 0 := by
  rw [Row.hits_iff_of_packed (op := 0x20) (mf := .allOnes 8) (mg := .allOnes 16) (ma := 0) (mb := 0)
    (mc := .allOnes 32) (by decide) (by decide)]
  simp [-BitVec.reduceAllOnes]

/-! ### One row at most -/

/-- A word that a row takes has the row's opcode. -/
theorem fieldOp_of_hits {r : Row} (hr : r ∈ opcodeTable) {w : Word} (h : r.hits w = true) :
    fieldOp w = fieldOp r.pattern := by
  have hmask : ∀ r ∈ opcodeTable, fieldOp r.mask = BitVec.allOnes 8 := by decide
  rw [← ((Row.hits_iff r w).mp h).1, hmask r hr, BitVec.and_allOnes]

/-- Settles O3: the rows have different opcodes, and a word that a row takes has the row's. -/
theorem atMostOneRowMatches : Obligations.AtMostOneRowMatches := by
  unfold Obligations.AtMostOneRowMatches
  intro w r hr r' hr' h h'
  have opcodes_differ : ∀ r ∈ opcodeTable, ∀ r' ∈ opcodeTable, fieldOp r.pattern = fieldOp r'.pattern → r = r' := by
    decide
  exact opcodes_differ r hr r' hr' ((fieldOp_of_hits hr h).symm.trans (fieldOp_of_hits hr' h'))

/-! ### The note and the channel in their fields -/

theorem fieldVp_eq (w : Word) : fieldVp w = (fieldF w).getLsbD 7 := by
  simp [fieldVp, fieldF]

theorem fieldNote_eq (w : Word) : fieldNote w = (fieldF w).extractLsb' 0 7 := by
  ext i hi
  simp [fieldNote, fieldF]
  omega

theorem fieldChannel_eq (w : Word) : fieldChannel w = (fieldG w).extractLsb' 0 4 := by
  ext i hi
  simp [fieldChannel, fieldG]
  omega

/-- A note field is put together again from its presence bit and its note. -/
theorem packNote_fields (w : Word) : packNote (fieldVp w) (fieldNote w) = fieldF w := by
  have split_note : ∀ f : BitVec 8, packNote (f.getLsbD 7) (f.extractLsb' 0 7) = f := by decide
  rw [fieldVp_eq, fieldNote_eq, split_note]

/-- A channel field without reserved bits is its channel. -/
theorem packChannel_field {w : Word} (h : fieldG w &&& 0xFFF0 = 0) : packChannel (fieldChannel w) = fieldG w := by
  have reserved : (fieldG w).extractLsb' 4 12 = 0 := by
    have hand := congrArg (BitVec.extractLsb' 4 12) h
    rw [BitVec.extractLsb'_and] at hand
    exact BitVec.and_allOnes.symm.trans hand
  rw [packChannel, fieldChannel_eq, ← reserved]
  exact BitVec.extractLsb'_append_extractLsb'

theorem packChannel_reserved (channel : BitVec 4) : packChannel channel &&& 0xFFF0 = 0 := by
  revert channel
  decide

theorem fieldChannel_of_pack {w : Word} {channel : BitVec 4} (h : fieldG w = packChannel channel) :
    fieldChannel w = channel := by
  rw [fieldChannel_eq, h]
  exact BitVec.extractLsb'_append_eq_right

/-- The voice id is refused when it is absent and its field is not 0 (30_encoding.md R85). -/
theorem not_voiceIdOk_iff (w : Word) : ¬ voiceIdOk w = true ↔ fieldVp w = false ∧ fieldA w ≠ 0 := by
  simp [voiceIdOk]

/-! ### Decoding by rows -/

/-- A word is taken by one of the rows, or by none. -/
theorem hits_cases (w : Word) :
    rowNop.hits w = true ∨ rowInit.hits w = true ∨ rowSetpoly.hits w = true ∨ rowSetp.hits w = true ∨
      rowRdsr.hits w = true ∨ rowNoteOn.hits w = true ∨ rowNoteOff.hits w = true ∨ rowRender.hits w = true ∨
        ∀ r ∈ opcodeTable, r.hits w = false := by
  by_cases hany : ∃ r ∈ opcodeTable, r.hits w = true
  · obtain ⟨r, hr, h⟩ := hany
    simp only [opcodeTable, List.mem_cons, List.not_mem_nil, or_false] at hr
    rcases hr with rfl | rfl | rfl | rfl | rfl | rfl | rfl | rfl <;> simp only [h, true_or, or_true]
  · have hnone : ∀ r ∈ opcodeTable, r.hits w = false := fun r hr =>
      Bool.eq_false_of_not_eq_true (fun h => hany ⟨r, hr, h⟩)
    iterate 8 right
    exact hnone

section
variable {w : Word}

theorem decode_of_nop (h : rowNop.hits w = true) : decode w = .ok .nop := by
  rw [decode, if_pos h]

theorem decode_of_init (h : rowInit.hits w = true) :
    decode w = .ok (.init (fieldF w) (fieldG w) (fieldA w) (fieldB w)) := by
  obtain ⟨hop, hc⟩ := (rowInit_hits_iff w).mp h
  simp [decode, hop, hc]

theorem decode_of_setpoly (h : rowSetpoly.hits w = true) : decode w = .ok (.setpoly (fieldG w)) := by
  obtain ⟨hop, hf, ha, hb, hc⟩ := (rowSetpoly_hits_iff w).mp h
  simp [decode, hop, hf, ha, hb, hc]

theorem decode_of_setp (h : rowSetp.hits w = true) : decode w = .ok (.setp (fieldF w) (fieldA w)) := by
  obtain ⟨hop, hg, hb, hc⟩ := (rowSetp_hits_iff w).mp h
  simp [decode, hop, hg, hb, hc]

theorem decode_of_rdsr (h : rowRdsr.hits w = true) : decode w = .ok (.rdsr (fieldF w) (fieldG w)) := by
  obtain ⟨hop, ha, hb, hc⟩ := (rowRdsr_hits_iff w).mp h
  simp [decode, hop, ha, hb, hc]

theorem decode_of_noteOn (h : rowNoteOn.hits w = true) :
    decode w =
      if voiceIdOk w then .ok (.noteOn (fieldVp w) (fieldNote w) (fieldChannel w) (fieldA w) (fieldB w))
      else .error (.voiceIdNotPresent (fieldOp w)) := by
  obtain ⟨hop, hg, hc⟩ := (rowNoteOn_hits_iff w).mp h
  simp [decode, hop, hg, hc]

theorem decode_of_noteOff (h : rowNoteOff.hits w = true) :
    decode w =
      if voiceIdOk w then .ok (.noteOff (fieldVp w) (fieldNote w) (fieldChannel w) (fieldA w))
      else .error (.voiceIdNotPresent (fieldOp w)) := by
  obtain ⟨hop, hg, hb, hc⟩ := (rowNoteOff_hits_iff w).mp h
  simp [decode, hop, hg, hb, hc]

theorem decode_of_render (h : rowRender.hits w = true) : decode w = .ok (.render (fieldA w) (fieldB w)) := by
  obtain ⟨hop, hf, hg, hc⟩ := (rowRender_hits_iff w).mp h
  simp [decode, hop, hf, hg, hc]

theorem decode_of_no_row (h : ∀ r ∈ opcodeTable, r.hits w = false) : decode w = .error (noRow w) := by
  have hno : ∀ r ∈ opcodeTable, ¬ r.hits w = true := fun r hr => ne_true_of_eq_false (h r hr)
  rw [decode, if_neg (hno rowNop (by decide)), if_neg (hno rowInit (by decide)), if_neg (hno rowSetpoly (by decide)),
    if_neg (hno rowSetp (by decide)), if_neg (hno rowRdsr (by decide)), if_neg (hno rowNoteOn (by decide)),
    if_neg (hno rowNoteOff (by decide)), if_neg (hno rowRender (by decide))]

/-- The word of a command whose six fields a word has is that word. -/
theorem packWord_eq_of_fields {op f : BitVec 8} {g : BitVec 16} {a b c : BitVec 32} (hop : fieldOp w = op)
    (hf : fieldF w = f) (hg : fieldG w = g) (ha : fieldA w = a) (hb : fieldB w = b) (hc : fieldC w = c) :
    packWord op f g a b c = w := by
  rw [← hop, ← hf, ← hg, ← ha, ← hb, ← hc, packWord_fields]

end

/-! ### The statements -/

/-- Settles O2, row by row: the row's test gives the opcode and the reserved fields, and the operands are the fields
that are left. -/
theorem encodeOfDecode : Obligations.EncodeOfDecode := by
  unfold Obligations.EncodeOfDecode
  intro w i h
  rcases hits_cases w with hr | hr | hr | hr | hr | hr | hr | hr | hr
  · obtain rfl := Except.ok.inj ((decode_of_nop hr).symm.trans h)
    obtain ⟨hop, hf, hg, ha, hb, hc⟩ := (rowNop_hits_iff w).mp hr
    exact ⟨rfl, packWord_eq_of_fields hop hf hg ha hb hc⟩
  · obtain rfl := Except.ok.inj ((decode_of_init hr).symm.trans h)
    obtain ⟨hop, hc⟩ := (rowInit_hits_iff w).mp hr
    exact ⟨rfl, packWord_eq_of_fields hop rfl rfl rfl rfl hc⟩
  · obtain rfl := Except.ok.inj ((decode_of_setpoly hr).symm.trans h)
    obtain ⟨hop, hf, ha, hb, hc⟩ := (rowSetpoly_hits_iff w).mp hr
    exact ⟨rfl, packWord_eq_of_fields hop hf rfl ha hb hc⟩
  · obtain rfl := Except.ok.inj ((decode_of_setp hr).symm.trans h)
    obtain ⟨hop, hg, hb, hc⟩ := (rowSetp_hits_iff w).mp hr
    exact ⟨rfl, packWord_eq_of_fields hop rfl hg rfl hb hc⟩
  · obtain rfl := Except.ok.inj ((decode_of_rdsr hr).symm.trans h)
    obtain ⟨hop, ha, hb, hc⟩ := (rowRdsr_hits_iff w).mp hr
    exact ⟨rfl, packWord_eq_of_fields hop rfl rfl ha hb hc⟩
  · rw [decode_of_noteOn hr] at h
    split at h
    case isFalse => cases h
    case isTrue hv =>
      obtain rfl := Except.ok.inj h
      obtain ⟨hop, hg, hc⟩ := (rowNoteOn_hits_iff w).mp hr
      exact ⟨hv, packWord_eq_of_fields hop (packNote_fields w).symm (packChannel_field hg).symm rfl rfl hc⟩
  · rw [decode_of_noteOff hr] at h
    split at h
    case isFalse => cases h
    case isTrue hv =>
      obtain rfl := Except.ok.inj h
      obtain ⟨hop, hg, hb, hc⟩ := (rowNoteOff_hits_iff w).mp hr
      exact ⟨hv, packWord_eq_of_fields hop (packNote_fields w).symm (packChannel_field hg).symm rfl hb hc⟩
  · obtain rfl := Except.ok.inj ((decode_of_render hr).symm.trans h)
    obtain ⟨hop, hf, hg, hc⟩ := (rowRender_hits_iff w).mp hr
    exact ⟨rfl, packWord_eq_of_fields hop hf hg rfl rfl hc⟩
  · rw [decode_of_no_row hr] at h
    cases h

/-- Settles O1: the six fields of a command's word are known, so its row takes the word and reads the operands. -/
theorem decodeOfEncode : Obligations.DecodeOfEncode := by
  unfold Obligations.DecodeOfEncode
  intro i hi
  cases i with
  | nop =>
    exact decode_of_nop ((rowNop_hits_iff _).mpr (fields_packWord 0x00 0 0 0 0 0))
  | init ch poly sr maxblk =>
    obtain ⟨hop, hf, hg, ha, hb, hc⟩ := fields_packWord 0x01 ch poly sr maxblk 0
    rw [encode, decode_of_init ((rowInit_hits_iff _).mpr ⟨hop, hc⟩), hf, hg, ha, hb]
  | setpoly n =>
    obtain ⟨hop, hf, hg, ha, hb, hc⟩ := fields_packWord 0x02 0 n 0 0 0
    rw [encode, decode_of_setpoly ((rowSetpoly_hits_iff _).mpr ⟨hop, hf, ha, hb, hc⟩), hg]
  | setp r val =>
    obtain ⟨hop, hf, hg, ha, hb, hc⟩ := fields_packWord 0x03 r 0 val 0 0
    rw [encode, decode_of_setp ((rowSetp_hits_iff _).mpr ⟨hop, hg, hb, hc⟩), hf, ha]
  | rdsr bank idx =>
    obtain ⟨hop, hf, hg, ha, hb, hc⟩ := fields_packWord 0x04 bank idx 0 0 0
    rw [encode, decode_of_rdsr ((rowRdsr_hits_iff _).mpr ⟨hop, ha, hb, hc⟩), hf, hg]
  | noteOn vp note channel vid vel =>
    obtain ⟨hop, hf, hg, ha, hb, hc⟩ := fields_packWord 0x10 (packNote vp note) (packChannel channel) vid vel 0
    obtain ⟨hvp, hnote⟩ := note_fields _ vp note hf
    have hres := (congrArg (· &&& 0xFFF0#16) hg).trans (packChannel_reserved channel)
    have hrow := (rowNoteOn_hits_iff _).mpr ⟨hop, hres, hc⟩
    have hv : voiceIdOk (encode (.noteOn vp note channel vid vel)) = true := by
      rw [voiceIdOk, encode, hvp, ha]; exact hi
    rw [encode, decode_of_noteOn hrow, ← encode, if_pos hv, encode, hvp, hnote, fieldChannel_of_pack hg, ha, hb]
  | noteOff vp note channel vid =>
    obtain ⟨hop, hf, hg, ha, hb, hc⟩ := fields_packWord 0x11 (packNote vp note) (packChannel channel) vid 0 0
    obtain ⟨hvp, hnote⟩ := note_fields _ vp note hf
    have hres := (congrArg (· &&& 0xFFF0#16) hg).trans (packChannel_reserved channel)
    have hrow := (rowNoteOff_hits_iff _).mpr ⟨hop, hres, hb, hc⟩
    have hv : voiceIdOk (encode (.noteOff vp note channel vid)) = true := by
      rw [voiceIdOk, encode, hvp, ha]; exact hi
    rw [encode, decode_of_noteOff hrow, ← encode, if_pos hv, encode, hvp, hnote, fieldChannel_of_pack hg, ha]
  | render a b =>
    obtain ⟨hop, hf, hg, ha, hb, hc⟩ := fields_packWord 0x20 0 0 a b 0
    rw [encode, decode_of_render ((rowRender_hits_iff _).mpr ⟨hop, hf, hg, hc⟩), ha, hb]

/-- Settles O4: a word of the six other rows always decodes, the note rows go by the voice id, and without a row there is
nothing to read. -/
theorem illegalWordsExactly : Obligations.IllegalWordsExactly := by
  unfold Obligations.IllegalWordsExactly
  intro w
  constructor
  · rintro ⟨e, he⟩
    rcases hits_cases w with hr | hr | hr | hr | hr | hr | hr | hr | hr
    · cases (decode_of_nop hr).symm.trans he
    · cases (decode_of_init hr).symm.trans he
    · cases (decode_of_setpoly hr).symm.trans he
    · cases (decode_of_setp hr).symm.trans he
    · cases (decode_of_rdsr hr).symm.trans he
    · refine .inr ⟨.inl hr, (not_voiceIdOk_iff w).mp fun hv => ?_⟩
      rw [decode_of_noteOn hr, if_pos hv] at he
      cases he
    · refine .inr ⟨.inr hr, (not_voiceIdOk_iff w).mp fun hv => ?_⟩
      rw [decode_of_noteOff hr, if_pos hv] at he
      cases he
    · cases (decode_of_render hr).symm.trans he
    · exact .inl hr
  · rintro (hr | ⟨hr | hr, hv⟩)
    · exact ⟨_, decode_of_no_row hr⟩
    · exact ⟨_, (decode_of_noteOn hr).trans (if_neg ((not_voiceIdOk_iff w).mpr hv))⟩
    · exact ⟨_, (decode_of_noteOff hr).trans (if_neg ((not_voiceIdOk_iff w).mpr hv))⟩

/-- Settles O5: each worked encoding is the word the encoder gives its command. -/
theorem workedEncodingsDecode : Obligations.WorkedEncodingsDecode := by
  unfold Obligations.WorkedEncodingsDecode
  exact ⟨decodeOfEncode (.init 1 1 1760 4) rfl, decodeOfEncode (.setpoly 2) rfl,
    decodeOfEncode (.setp 3 0x00010000) rfl, decodeOfEncode (.setp 0x00 0x000A0000) rfl,
    decodeOfEncode (.setp 0x10 0x00008000) rfl, decodeOfEncode (.rdsr 1 0) rfl,
    decodeOfEncode (.noteOn false 69 0 0 0x00010000) rfl, decodeOfEncode (.noteOn true 60 3 0xFFFFFFFE 0x00008000) rfl,
    decodeOfEncode (.noteOff false 69 0 0) rfl, decodeOfEncode (.render 0 1) rfl⟩

end Sys2Proof

/-! PROOF. What every step keeps: the sizes of the lists, the pool, the arrays, the operators, the parameters, the
envelopes and the control states (00_scope.md R10, 10_state.md R21, R24, R30, R31, R38, 20_memory.md R60,
42_envelope.md R145, 44_voice.md R193, 45_voice_pool.md R224); and that the reset state has all of it. -/

namespace Sys2Proof.Machine

/-! ### Invariants -/

/-- A property of states that each effect a step can have keeps. What a step does to `FAULT`, the response and the
inputs is one effect: no invariant here reads them. -/
structure Kept (P : State → Prop) : Prop where
  books : ∀ s fault response pending, P s → P { s with fault := fault, response := response, pending := pending }
  reset : ∀ s, P s → P s.hardReset
  hostWrite : ∀ s c i v, P s → outExists s.hw c i = true → P { s with out := s.out.write (c, i) v }
  init : ∀ s ch poly sr maxblk, P s → initLegal s.hw ch poly sr maxblk = true → P (s.initialised ch poly sr maxblk)
  setpoly : ∀ s n, P s → polyLegal s.hw n = true → P { s with pool := s.pool.resize n.toNat }
  setp : ∀ s reg val, P s → reg.legal (q16 val) = true → P { s with params := s.params.write reg (q16 val) }
  noteOn : ∀ s ev, P s → s.initd = true → P (s.poolNoteOn ev)
  noteOff : ∀ s e, P s → s.initd = true → P (s.noteOffEvent e)
  render : ∀ s (a b : BitVec 32), P s → s.initd = true → blockLegal s a b = true → P (s.poolRender a.toNat b.toNat)

/-- Whatever a step does is one of the effects, or one after the books have changed. -/
theorem Kept.step {P : State → Prop} (k : Kept P) {s t : State} (h : P s) (he : step s = .next t) : P t := by
  have hpend (rest) : P { s with pending := rest } := k.books s s.fault s.response rest h
  refine step_keeps he h hpend (fun s _ h => k.books s _ _ s.pending h) (fun s h => k.books s s.fault _ s.pending h)
    (fun rest => k.reset _ (hpend rest)) (fun rest c i v hx => k.hostWrite _ c i v (hpend rest) hx) (fun rest i hi => ?_)
  exact exec_keeps hi (hpend rest) (fun s _ h => k.books s s.fault _ s.pending h)
    (fun s _ h => k.books s _ _ s.pending h) (fun s h => k.books s s.fault _ s.pending h)
    (fun ch poly sr maxblk _ hl => k.init _ ch poly sr maxblk (hpend rest) hl)
    (fun n _ hl => k.setpoly _ n (hpend rest) hl) (fun _ val reg _ hl => k.setp _ reg val (hpend rest) hl)
    (fun ev hi _ => k.noteOn _ ev (hpend rest) hi) (fun e hi => k.noteOff _ e (hpend rest) hi)
    (fun a b hi hl => k.render _ a b (hpend rest) hi hl)

/-! ### Changes of voices -/

/-- A property of voices that a render keeps holds of every voice after the pool's render. -/
theorem poolRender_keeps_voices {V : Voice → Prop} {s : State} {a b : Nat} (h : ∀ v ∈ s.voices, V v)
    (hr : ∀ v, V v → V (v.render s.ctx (b - a))) : ∀ v ∈ (s.poolRender a b).voices, V v := by
  by_cases hn : b - a = 0
  · rw [State.poolRender_empty s hn]
    exact h
  · rw [State.poolRender_block s hn]
    exact forActive_keeps h hr

/-- A property of operators that a trigger keeps survives a note-on of their voice. -/
theorem Voice.noteOn_ops {P : Operator → Prop} {v : Voice} (x : Ctx) (ev : Event) (h : ∀ o ∈ v.ops, P o)
    (hon : ∀ o f, P o → P (o.noteOn x f)) : ∀ o ∈ (v.noteOn x ev).ops, P o := by
  by_cases hp : v.masterEnv.state = .off
  · rw [Voice.noteOn_of_off hp]
    exact Voice.startNote_ops x ev (fun o ho f => hon o f (h o ho))
  · rw [Voice.noteOn_of_playing hp]
    exact h

/-- A property of operators that a release keeps survives a note-off of their voice. -/
theorem Voice.noteOff_ops {P : Operator → Prop} {v : Voice} (x : Ctx) (e : Event) (h : ∀ o ∈ v.ops, P o)
    (hoff : ∀ o, P o → P (o.noteOff x)) : ∀ o ∈ (v.noteOff x e).ops, P o := by
  rcases v.noteOff_cases x e with heq | ⟨_, heq⟩ | ⟨_, heq⟩ <;> rw [heq]
  · exact h
  · exact h
  · exact Voice.releaseOps_ops x (fun o ho => hoff o (h o ho))

/-! ### The pool -/

theorem parked_consistent (m : Nat) : (Pool.parked m).Consistent m := ⟨rfl, .refl _⟩

/-- With its books kept a pool has a voice for every place a legal polyphony asks for. -/
theorem Pool.Consistent.length_add {m : Nat} {p : Pool} (h : p.Consistent m) :
    p.active.length + p.inactive.length = m := by
  simpa using h.2.length_eq

theorem polyLegal_iff (hw : CfgHW) (n : BitVec 16) : polyLegal hw n = true ↔ n ≠ 0 ∧ n.toNat ≤ hw.maxVoices := by
  simp [polyLegal]

/-- The operands INIT accepts (46_commands.md R243). -/
theorem initLegal_iff (hw : CfgHW) (ch : BitVec 8) (poly : BitVec 16) (sr maxblk : BitVec 32) :
    initLegal hw ch poly sr maxblk = true ↔
      sr ≠ 0 ∧ ch ≠ 0 ∧ maxblk ≠ 0 ∧ maxblk.toNat ≤ hw.maxblkLimit ∧ poly ≠ 0 ∧ poly.toNat ≤ hw.maxVoices ∧
        1000 ≤ hw.shutdownMs * (sr.toNat : Num) := by
  simp [initLegal, and_assoc]

theorem toNat_pos_of_ne_zero {w : Nat} {x : BitVec w} (h : x ≠ 0) : 1 ≤ x.toNat :=
  Nat.pos_of_ne_zero fun h0 => h (BitVec.eq_of_toNat_eq (by simpa using h0))

theorem poolOk_resize {m : Nat} {p : Pool} (h : p.Consistent m) {n : BitVec 16} (h0 : n ≠ 0) (hn : n.toNat ≤ m) :
    1 ≤ (p.resize n.toNat).active.length := by
  rw [resize_length h.1 (h.length_add ▸ hn)]
  exact toNat_pos_of_ne_zero h0

theorem kept_poolOk : Kept State.PoolOk where
  books _ _ _ _ h := h
  reset s _ := ⟨parked_consistent _, fun hi => Bool.noConfusion hi⟩
  hostWrite _ _ _ _ h _ := h
  init s _ poly _ _ _ hl := by
    obtain ⟨_, _, _, _, h0, hn, _⟩ := (initLegal_iff _ _ _ _ _).mp hl
    exact ⟨resize_consistent (parked_consistent _) _, fun _ => poolOk_resize (parked_consistent _) h0 hn⟩
  setpoly s n h hl := by
    obtain ⟨h0, hn⟩ := (polyLegal_iff _ _).mp hl
    exact ⟨resize_consistent h.1 _, fun _ => poolOk_resize h.1 h0 hn⟩
  setp _ _ _ h _ := h
  noteOn s ev h hi := by
    refine ⟨⟨?_, h.1.2⟩, h.2⟩
    rw [State.poolNoteOn_pool]
    exact (agesGrown_length _ _ _).trans ((ageRestarted_length _ _ _).trans h.1.1)
  noteOff _ _ h _ := h
  render s a b h _ _ := by
    simpa [State.PoolOk] using h

/-- Settles O54. -/
theorem stepKeepsPool : Obligations.StepKeepsPool := by
  unfold Obligations.StepKeepsPool
  exact fun _ _ h he => kept_poolOk.step h he

/-! ### The sizes of the lists -/

theorem Params.write_shaped {n : Nat} {p : Params} (h : p.Shaped n) (r : Reg) (v : Num) : (p.write r v).Shaped n := by
  obtain ⟨hr, hm, hx⟩ := h
  cases r <;> simp [Params.Shaped, Params.write, hr, hm, hx]

theorem fresh_shaped (m n : Nat) :
    (List.replicate m (Voice.fresh n)).length = m ∧ ∀ v ∈ List.replicate m (Voice.fresh n), v.ops.length = n := by
  refine ⟨List.length_replicate, fun v hv => ?_⟩
  rw [List.eq_of_mem_replicate hv]
  exact List.length_replicate

theorem kept_shaped : Kept State.Shaped where
  books _ _ _ _ h := h
  reset s _ := ⟨⟨List.length_replicate, List.length_replicate, List.length_replicate⟩, fresh_shaped _ _⟩
  hostWrite _ _ _ _ h _ := h
  init s _ _ _ _ h _ := ⟨h.1, fresh_shaped _ _⟩
  setpoly _ _ h _ := h
  setp s r v h _ := ⟨Params.write_shaped h.1 r _, h.2⟩
  noteOn s ev h _ := ⟨h.1, (modifyActive_length _ _ _ _).trans h.2.1,
    modifyActive_keeps h.2.2 (fun v hv => (v.noteOn_length _ _).trans hv)⟩
  noteOff s e h _ := ⟨h.1, (forActive_length _ _ _).trans h.2.1,
    forActive_keeps h.2.2 (fun v hv => (v.noteOff_length _ _).trans hv)⟩
  render s a b h _ _ := by
    obtain ⟨hp, hl, ho⟩ := h
    have hops := poolRender_keeps_voices (a := a.toNat) (b := b.toNat) ho (fun v hv => (v.render_length _ _).trans hv)
    simpa [State.Shaped, State.poolRender_voices_length, hp, hl] using hops

/-- Settles O53. -/
theorem stepKeepsShape : Obligations.StepKeepsShape := by
  unfold Obligations.StepKeepsShape
  exact fun _ _ h he => kept_shaped.step h he

/-! ### The parameters -/

/-- A write changes the register it names, if that exists, and no other. -/
theorem Params.read_write_cases (p : Params) (r r' : Reg) (v : Num) :
    (p.write r v).read r' = p.read r' ∨ (r' = r ∧ (p.write r v).read r' = v) := by
  have list_case (l : List Num) (k k' : Nat) :
      (l.set k v).getD k' 0 = l.getD k' 0 ∨ (k' = k ∧ (l.set k v).getD k' 0 = v) := by
    by_cases hk : k' = k
    · subst hk
      by_cases hl : k' < l.length
      · exact .inr ⟨rfl, by simp [hl]⟩
      · exact .inl (by simp [List.set_eq_of_length_le (Nat.le_of_not_lt hl)])
    · exact .inl (by simp [List.getD_eq_getElem?_getD, Ne.symm hk])
  cases r with
  | ratio k => cases r' with
    | ratio k' => simpa [Params.write, Params.read] using list_case p.ratio k k'
    | _ => exact .inl rfl
  | modIndex k => cases r' with
    | modIndex k' => simpa [Params.write, Params.read] using list_case p.modIndex k k'
    | _ => exact .inl rfl
  | mix k => cases r' with
    | mix k' => simpa [Params.write, Params.read] using list_case p.mix k k'
    | _ => exact .inl rfl
  | attackMs => cases r' with
    | attackMs => exact .inr ⟨rfl, rfl⟩
    | _ => exact .inl rfl
  | decayMs => cases r' with
    | decayMs => exact .inr ⟨rfl, rfl⟩
    | _ => exact .inl rfl
  | releaseMs => cases r' with
    | releaseMs => exact .inr ⟨rfl, rfl⟩
    | _ => exact .inl rfl
  | sustain => cases r' with
    | sustain => exact .inr ⟨rfl, rfl⟩
    | _ => exact .inl rfl

theorem Params.zero_read (n : Nat) (r : Reg) : (Params.zero n).read r = 0 := by
  cases r <;> simp [Params.zero, Params.read]

theorem Params.zero_legal (n : Nat) : (Params.zero n).Legal := by
  intro r
  rw [Params.zero_read]
  exact ⟨⟨0, by simp [q16]⟩, by cases r <;> simp [Reg.legal]⟩

theorem Params.write_legal {p : Params} (h : p.Legal) {r : Reg} {val : BitVec 32} (hl : r.legal (q16 val) = true) :
    (p.write r (q16 val)).Legal := by
  intro r'
  rcases p.read_write_cases r r' (q16 val) with e | ⟨rfl, e⟩
  · rw [e]
    exact h r'
  · rw [e]
    exact ⟨⟨val, rfl⟩, hl⟩

theorem kept_paramsLegal : Kept (fun s => s.params.Legal) where
  books _ _ _ _ h := h
  reset _ _ := Params.zero_legal _
  hostWrite _ _ _ _ h _ := h
  init _ _ _ _ _ h _ := h
  setpoly _ _ h _ := h
  setp _ _ _ h hl := Params.write_legal h hl
  noteOn _ _ h _ := h
  noteOff _ _ h _ := h
  render s a b h _ _ := by rwa [State.poolRender_params]

/-- Settles O57. -/
theorem stepKeepsParamsLegal : Obligations.StepKeepsParamsLegal := by
  unfold Obligations.StepKeepsParamsLegal
  exact fun _ _ h he => kept_paramsLegal.step h he

/-! ### The operators -/

theorem Clock.zero_settled : Clock.zero.Settled := ⟨le_rfl, zero_lt_one, rfl, rfl⟩

/-- What an operator is between commands (10_state.md R30, R38). -/
def Operator.AtRest (o : Operator) : Prop := o.clock.Settled ∧ o.pm = []

theorem Operator.noteOn_atRest (x : Ctx) {o : Operator} (f : Num) (h : o.AtRest) : (o.noteOn x f).AtRest :=
  ⟨Clock.zero_settled, h.2⟩

theorem Operator.noteOff_atRest (x : Ctx) {o : Operator} (h : o.AtRest) : (o.noteOff x).AtRest := h

/-- A new frequency moves no phase (40_clock.md R101). -/
theorem Operator.setFreq_atRest (x : Ctx) {o : Operator} (f : Num) (h : o.AtRest) :
    Operator.AtRest { o with clock := o.clock.setFreq f x.sr } := h

theorem fresh_ops {P : Operator → Prop} (h : P Operator.fresh) {m n : Nat} :
    ∀ v ∈ List.replicate m (Voice.fresh n), ∀ o ∈ v.ops, P o := by
  intro v hv o ho
  rw [List.eq_of_mem_replicate hv] at ho
  rw [List.eq_of_mem_replicate ho]
  exact h

theorem fresh_atRest (m n : Nat) : ∀ v ∈ List.replicate m (Voice.fresh n), ∀ o ∈ v.ops, o.AtRest :=
  fresh_ops ⟨Clock.zero_settled, rfl⟩

theorem kept_operatorsSettled : Kept State.OperatorsSettled where
  books _ _ _ _ h := h
  reset _ _ := fresh_atRest _ _
  hostWrite _ _ _ _ h _ := h
  init _ _ _ _ _ _ _ := fresh_atRest _ _
  setpoly _ _ h _ := h
  setp _ _ _ h _ := h
  noteOn s ev h _ := modifyActive_keeps (P := fun v => ∀ o ∈ v.ops, o.AtRest) h
    (fun _ hv => Voice.noteOn_ops s.ctx ev hv (fun _ f => Operator.noteOn_atRest s.ctx f))
  noteOff s e h _ := forActive_keeps (P := fun v => ∀ o ∈ v.ops, o.AtRest) h
    (fun _ hv => Voice.noteOff_ops s.ctx e hv (fun _ => Operator.noteOff_atRest s.ctx))
  render s _ _ h _ _ := poolRender_keeps_voices (V := fun v => ∀ o ∈ v.ops, o.AtRest) h
    (fun _ hv => Voice.render_ops s.ctx _ hv (fun _ f => Operator.setFreq_atRest s.ctx f)
      (fun _ prev sm index ho =>
        ⟨fedBy_render_settled ho.1 s.ctx _ prev sm index, fedBy_render_pm ho.2 s.ctx _ prev sm index⟩)
      (fun _ => Operator.noteOff_atRest s.ctx) (fun _ f => Operator.noteOn_atRest s.ctx f))

/-- Settles O56. -/
theorem stepKeepsOperatorsSettled : Obligations.StepKeepsOperatorsSettled := by
  unfold Obligations.StepKeepsOperatorsSettled
  exact fun _ _ h he => kept_operatorsSettled.step h he

/-! ### The arrays and the configuration -/

theorem kept_configOk : Kept State.ConfigOk where
  books _ _ _ _ h := h
  reset _ _ hi := Bool.noConfusion hi
  hostWrite _ _ _ _ h _ := h
  init s ch poly sr maxblk _ hl _ := by
    obtain ⟨hsr, hch, hblk, hlim, _, _, hrate⟩ := (initLegal_iff _ _ _ _ _).mp hl
    exact ⟨toNat_pos_of_ne_zero hsr, toNat_pos_of_ne_zero hch, toNat_pos_of_ne_zero hblk, hlim, hrate⟩
  setpoly _ _ h _ := h
  setp _ _ _ h _ := h
  noteOn _ _ h _ := h
  noteOff _ _ h _ := h
  render s a b h _ _ := by simpa [State.ConfigOk] using h

/-- The arrays of an operator and of a voice within the physical extent (20_memory.md R60). -/
def Operator.ArraysOk (hw : CfgHW) (o : Operator) : Prop := o.pm.Ok hw ∧ o.out.Ok hw

def Voice.ArraysOk (hw : CfgHW) (v : Voice) : Prop := v.vout.Ok hw ∧ ∀ o ∈ v.ops, o.ArraysOk hw

theorem fresh_arraysOk (hw : CfgHW) (m n : Nat) : ∀ v ∈ List.replicate m (Voice.fresh n), v.ArraysOk hw := by
  intro v hv
  refine ⟨?_, fresh_ops (P := Operator.ArraysOk hw) ⟨Space.nil_ok hw, Space.nil_ok hw⟩ v hv⟩
  rw [List.eq_of_mem_replicate hv]
  exact Space.nil_ok hw

theorem Voice.noteOn_vout (x : Ctx) (ev : Event) (v : Voice) : (v.noteOn x ev).vout = v.vout := by
  rw [Voice.noteOn]
  split <;> rfl

theorem Voice.noteOff_vout (x : Ctx) (e : Event) (v : Voice) : (v.noteOff x e).vout = v.vout := by
  rcases v.noteOff_cases x e with heq | ⟨_, heq⟩ | ⟨_, heq⟩ <;> rw [heq]
  rfl

/-- A render writes the first `n` samples of at most 255 channels, all of which exist. -/
theorem Voice.render_arraysOk {hw : CfgHW} {x : Ctx} {n : Nat} {v : Voice} (h : v.ArraysOk hw) (hch : x.ch ≤ 255)
    (hn : n ≤ hw.maxblkLimit) (hb : x.blk ≤ hw.maxblkLimit) : (v.render x n).ArraysOk hw := by
  refine ⟨?_, ?_⟩
  · rw [Voice.render_vout]
    exact mixBlock_ok h.1 _ _ hch hn
  · exact Voice.render_ops (P := Operator.ArraysOk hw) x n h.2 (fun _ _ ho => ho)
      (fun _ prev sm index ho => fedBy_render_ok ho prev sm index hch hn hb) (fun _ ho => ho) (fun _ _ ho => ho)

theorem cfgCh_le (s : State) : s.ctx.ch ≤ 255 := Nat.le_of_lt_succ s.cfgCh.isLt

/-- A legal configuration keeps every array within its extent: a block and its place in `OUT` end before
`CFG_MAXBLK` (46_commands.md R254). -/
theorem kept_arraysOk : Kept (fun s => s.ConfigOk ∧ s.ArraysOk) where
  books s f r p h := ⟨kept_configOk.books s f r p h.1, h.2⟩
  reset s h := ⟨kept_configOk.reset s h.1, h.2.1, fresh_arraysOk _ _ _⟩
  hostWrite _ _ _ _ h hx := ⟨h.1, Space.write_ok _ h.2.1 hx, h.2.2⟩
  init s ch poly sr maxblk h hl := ⟨kept_configOk.init s ch poly sr maxblk h.1 hl, h.2.1, fresh_arraysOk _ _ _⟩
  setpoly _ _ h _ := h
  setp _ _ _ h _ := h
  noteOn s ev h _ := ⟨h.1, h.2.1, modifyActive_keeps (P := Voice.ArraysOk s.hw) h.2.2 (fun v hv =>
    ⟨(v.noteOn_vout s.ctx ev).symm ▸ hv.1,
      Voice.noteOn_ops (P := Operator.ArraysOk s.hw) s.ctx ev hv.2 (fun _ _ ho => ho)⟩)⟩
  noteOff s e h _ := ⟨h.1, h.2.1, forActive_keeps (P := Voice.ArraysOk s.hw) h.2.2 (fun v hv =>
    ⟨(v.noteOff_vout s.ctx e).symm ▸ hv.1,
      Voice.noteOff_ops (P := Operator.ArraysOk s.hw) s.ctx e hv.2 (fun _ ho => ho)⟩)⟩
  render s a b h hi hl := by
    obtain ⟨hc, hout, hv⟩ := h
    obtain ⟨_, _, _, hlim, _⟩ := hc hi
    obtain ⟨hab, hb⟩ := (blockLegal_iff s a b).mp hl
    refine ⟨kept_configOk.render s a b hc hi hl, ?_, ?_⟩
    · rw [State.poolRender_hw]
      by_cases hn : b.toNat - a.toNat = 0
      · rwa [State.poolRender_empty s hn]
      · rw [State.poolRender_block s hn]
        exact accumulateActive_ok hout _ _ (cfgCh_le s) (by omega)
    · rw [State.poolRender_hw]
      exact poolRender_keeps_voices (V := Voice.ArraysOk s.hw) hv
        (fun v hv => Voice.render_arraysOk hv (cfgCh_le s) (by omega) hlim)

/-- Settles O55. -/
theorem stepKeepsArrays : Obligations.StepKeepsArrays := by
  unfold Obligations.StepKeepsArrays
  exact fun _ _ hc ha he => kept_arraysOk.step ⟨hc, ha⟩ he

/-! ### The envelopes -/

/-- What the parameter file holds, register by register (46_commands.md R246). -/
theorem Params.Legal.times {p : Params} (h : p.Legal) : 0 ≤ p.attackMs ∧ 0 ≤ p.decayMs ∧ 0 ≤ p.releaseMs :=
  ⟨of_decide_eq_true (h .attackMs).2, of_decide_eq_true (h .decayMs).2, of_decide_eq_true (h .releaseMs).2⟩

theorem Params.Legal.sustain_bounds {p : Params} (h : p.Legal) : 0 ≤ p.sustain ∧ p.sustain ≤ 1 := by
  have hs := (h .sustain).2
  rw [Reg.legal, Bool.and_eq_true, decide_eq_true_iff, decide_eq_true_iff] at hs
  exact hs

theorem Env.silent_bounded : Env.silent.Bounded := ⟨zero_le_one, rfl, rfl⟩

theorem Env.toOff_bounded : Env.toOff.Bounded := ⟨zero_le_one, rfl, rfl⟩

section
variable {p : Params} {sr : Num} {e : Env}

/-- A fresh Attack is one step below 0 (42_envelope.md R133). -/
theorem Env.noteOn_bounded (hp : p.Legal) (hsr : 0 ≤ sr) : (Env.noteOn p sr).Bounded := by
  have hstep := segStep_nonneg hp.times.1 hsr
  rw [Env.noteOn_eq]
  refine ⟨?_, ?_, hstep⟩
  · change 0 - segStep p.attackMs sr ≤ 1
    linarith
  · change 0 ≤ 0 - segStep p.attackMs sr + segStep p.attackMs sr
    linarith

theorem Env.noteOff_bounded (hp : p.Legal) (hsr : 0 ≤ sr) (h : e.Bounded) : (e.noteOff p sr).Bounded := by
  have hstep := segStep_nonneg hp.times.2.2 hsr
  rw [Env.noteOff]
  split_ifs with hoff hpos
  · exact h
  · exact ⟨h.1, hpos.le, neg_nonpos.mpr hstep⟩
  · exact Env.toOff_bounded

/-- The first step of a shutdown of at least one sample lifts no level from below 0 above it (42_envelope.md R135). -/
theorem shutdown_first_step_nonpos {o k : Num} (ho : o ≤ 0) (hk : 1000 ≤ k) : o + - o * 1000 / k ≤ 0 := by
  have hdiv : - o * 1000 / k ≤ - o := by
    rw [div_le_iff₀ (by linarith)]
    exact mul_le_mul_of_nonneg_left hk (by linarith)
  linarith

/-- A shutdown of at least one sample falls from a level above 0 (42_envelope.md R135, R145). -/
theorem Env.shutdown_bounded {hw : CfgHW} (hk : 1000 ≤ hw.shutdownMs * sr) (h : e.Bounded) :
    (e.shutdown hw sr).Bounded := by
  have hk0 : 0 < hw.shutdownMs * sr := by linarith
  refine ⟨h.1, fun hpos => ?_, fun hneg => shutdown_first_step_nonpos hneg hk⟩
  change - e.outputValue * 1000 / (hw.shutdownMs * sr) ≤ 0
  change 0 < e.outputValue at hpos
  exact div_nonpos_of_nonpos_of_nonneg (by linarith) hk0.le

/-- An advance stays within the bounds of its state, or enters the next state at its first level; and it leaves a level
of at least 0 (42_envelope.md R136 to R141, R145). -/
theorem Env.advance_bounded (hp : p.Legal) (hsr : 0 ≤ sr) (h : e.Bounded) :
    0 ≤ (e.advance p sr).outputValue ∧ (e.advance p sr).Bounded := by
  have hdecay := segStep_nonneg hp.times.2.1 hsr
  obtain ⟨hs0, hs1⟩ := hp.sustain_bounds
  obtain ⟨state, o, i⟩ := e
  obtain ⟨hle, hstate⟩ := h
  simp only at hle
  cases state with
  | off => exact ⟨hstate.1.ge, hle, hstate⟩
  | sustain => exact ⟨hstate.1, hle, hstate⟩
  | attack =>
    obtain ⟨h0, hi⟩ := hstate
    simp only [Env.stepped] at h0 hi
    by_cases hend : 1 ≤ o + i ∨ p.attackMs = 0
    · rw [advance_attack_end hend]
      exact ⟨zero_le_one, le_rfl, zero_le_one, neg_nonpos.mpr hdecay⟩
    · obtain ⟨hlt, ha⟩ := not_or.mp hend
      rw [advance_attack_on (not_le.mp hlt) ha]
      exact ⟨h0, (not_le.mp hlt).le, add_nonneg h0 hi, hi⟩
  | decay =>
    obtain ⟨h0, hi⟩ := hstate
    simp only at h0 hi
    by_cases hend : o + i ≤ p.sustain ∨ p.decayMs = 0
    · rw [advance_decay_end hend]
      exact ⟨hs0, hs1, hs0, rfl⟩
    · obtain ⟨hlt, hd⟩ := not_or.mp hend
      have hlevel : 0 ≤ o + i := hs0.trans (not_le.mp hlt).le
      rw [advance_decay_on (not_le.mp hlt) hd]
      exact ⟨hlevel, by simp only; linarith, hlevel, hi⟩
  | release =>
    obtain ⟨h0, hi⟩ := hstate
    simp only at h0 hi
    by_cases hend : o + i ≤ 0 ∨ p.releaseMs = 0
    · rw [advance_release_end hend]
      exact ⟨le_rfl, Env.toOff_bounded⟩
    · obtain ⟨hlt, hr⟩ := not_or.mp hend
      have hlevel : 0 ≤ o + i := (not_le.mp hlt).le
      rw [advance_release_on (not_le.mp hlt) hr]
      exact ⟨hlevel, by simp only; linarith, hlevel, hi⟩
  | shutdown =>
    obtain ⟨hpos, hneg⟩ := hstate
    simp only [Env.stepped] at hpos hneg
    by_cases hend : o + i ≤ 0
    · rw [advance_shutdown_end hend]
      exact ⟨le_rfl, Env.toOff_bounded⟩
    · have hlt := not_le.mp hend
      have ho : 0 < o := not_le.mp (fun ho => hend (hneg ho))
      rw [advance_shutdown_on hlt]
      exact ⟨hlt.le, by simp only; linarith [hpos ho], fun _ => hpos ho, fun hle => absurd hlt (not_lt.mpr hle)⟩

theorem Env.advances_bounded (hp : p.Legal) (hsr : 0 ≤ sr) (h : e.Bounded) (n : Nat) : (e.advances p sr n).Bounded :=
  forUpTo_keeps (P := Env.Bounded) h (fun _ _ _ he => (Env.advance_bounded hp hsr he).2)

end

/-- The master envelope and every operator's own within their bounds. -/
def Voice.EnvelopesBounded (v : Voice) : Prop := v.masterEnv.Bounded ∧ ∀ o ∈ v.ops, o.env.Bounded

theorem fresh_envelopesBounded (m n : Nat) : ∀ v ∈ List.replicate m (Voice.fresh n), v.EnvelopesBounded := by
  intro v hv
  refine ⟨?_, fresh_ops (P := fun o => o.env.Bounded) Env.silent_bounded v hv⟩
  rw [List.eq_of_mem_replicate hv]
  exact Env.silent_bounded

section
variable {x : Ctx} {v : Voice}

theorem Voice.noteOn_bounded (hp : x.params.Legal) (hsr : 0 ≤ x.sr) (hk : 1000 ≤ x.hw.shutdownMs * x.sr) (ev : Event)
    (h : v.EnvelopesBounded) : (v.noteOn x ev).EnvelopesBounded := by
  refine ⟨?_, Voice.noteOn_ops (P := fun o => o.env.Bounded) x ev h.2 (fun _ _ _ => Env.noteOn_bounded hp hsr)⟩
  rw [Voice.noteOn]
  split
  · exact Env.shutdown_bounded hk h.1
  · exact Env.noteOn_bounded hp hsr

theorem Voice.noteOff_bounded (hp : x.params.Legal) (hsr : 0 ≤ x.sr) (e : Event) (h : v.EnvelopesBounded) :
    (v.noteOff x e).EnvelopesBounded := by
  refine ⟨?_, Voice.noteOff_ops (P := fun o => o.env.Bounded) x e h.2 (fun _ => Env.noteOff_bounded hp hsr)⟩
  rcases v.noteOff_cases x e with heq | ⟨_, heq⟩ | ⟨_, heq⟩ <;> rw [heq]
  · exact h.1
  · exact h.1
  · exact Env.noteOff_bounded hp hsr h.1

/-- A render advances the master envelope; an operator's own envelope moves only where a steal ends (43_operator.md
R169, 44_voice.md R190). -/
theorem Voice.render_bounded (hp : x.params.Legal) (hsr : 0 ≤ x.sr) (n : Nat) (h : v.EnvelopesBounded) :
    (v.render x n).EnvelopesBounded := by
  refine ⟨?_, Voice.render_ops (P := fun o => o.env.Bounded) x n h.2 (fun _ _ ho => ho)
    (fun o prev sm index ho => by rwa [fedBy_render_env]) (fun _ => Env.noteOff_bounded hp hsr)
    (fun _ _ _ => Env.noteOn_bounded hp hsr)⟩
  have hadv := Env.advances_bounded hp hsr h.1 n
  rcases (v.renderBlock x n).stealCheck_cases x with ⟨heq, _⟩ | ⟨heq, _⟩ | ⟨ev, heq, _⟩ <;> rw [Voice.render, heq]
  · exact hadv
  · exact hadv
  · exact Env.noteOn_bounded hp hsr

end

theorem State.ctx_sr_nonneg (s : State) : 0 ≤ s.ctx.sr := Nat.cast_nonneg _

/-- The parameters and the configuration that the bounds of an envelope rest on, and the bounds. -/
def State.EnvelopeInvariant (s : State) : Prop := s.params.Legal ∧ s.ConfigOk ∧ s.EnvelopesBounded

theorem kept_envelopesBounded : Kept State.EnvelopeInvariant where
  books _ _ _ _ h := h
  reset s h := ⟨Params.zero_legal _, kept_configOk.reset s h.2.1, fresh_envelopesBounded _ _⟩
  hostWrite _ _ _ _ h _ := h
  init s ch poly sr maxblk h hl := ⟨h.1, kept_configOk.init s ch poly sr maxblk h.2.1 hl, fresh_envelopesBounded _ _⟩
  setpoly _ _ h _ := h
  setp _ _ _ h hl := ⟨Params.write_legal h.1 hl, h.2⟩
  noteOn s ev h hi := by
    obtain ⟨hp, hc, hv⟩ := h
    obtain ⟨_, _, _, _, hk⟩ := hc hi
    exact ⟨hp, hc, modifyActive_keeps (P := Voice.EnvelopesBounded) hv
      (fun _ => Voice.noteOn_bounded hp s.ctx_sr_nonneg hk ev)⟩
  noteOff s e h _ := ⟨h.1, h.2.1, forActive_keeps (P := Voice.EnvelopesBounded) h.2.2
    (fun _ => Voice.noteOff_bounded h.1 s.ctx_sr_nonneg e)⟩
  render s a b h hi hl := ⟨kept_paramsLegal.render s a b h.1 hi hl, kept_configOk.render s a b h.2.1 hi hl,
    poolRender_keeps_voices (V := Voice.EnvelopesBounded) h.2.2 (fun _ => Voice.render_bounded h.1 s.ctx_sr_nonneg _)⟩

/-- Settles O58. -/
theorem stepKeepsEnvelopesBounded : Obligations.StepKeepsEnvelopesBounded := by
  unfold Obligations.StepKeepsEnvelopesBounded
  intro s t _ hp hc hb he
  exact (kept_envelopesBounded.step ⟨hp, hc, hb⟩ he).2.2

/-! ### The control states -/

theorem fresh_controlOk (m n : Nat) : ∀ v ∈ List.replicate m (Voice.fresh n), v.ControlOk := by
  intro v hv
  rw [List.eq_of_mem_replicate hv]
  exact ⟨by simp [Voice.fresh, Env.silent], fun _ => rfl, fun _ => rfl⟩

theorem Env.noteOff_state (p : Params) (sr : Num) (e : Env) :
    (e.noteOff p sr).state = .off ∨ (e.noteOff p sr).state = .release := by
  rw [Env.noteOff]
  split_ifs with hoff
  · exact .inl hoff
  · exact .inr rfl
  · exact .inl rfl

/-- Advances enter Shutdown from nowhere and leave it for Off alone; to Off or Release they come only from one of the
three (42_envelope.md R143). -/
theorem Env.advances_state (p : Params) (sr : Num) (n : Nat) (e : Env) :
    (e.state = .shutdown → (e.advances p sr n).state = .shutdown ∨ (e.advances p sr n).state = .off) ∧
    (e.state ≠ .shutdown → (e.advances p sr n).state ≠ .shutdown ∧
      ((e.advances p sr n).state = .off ∨ (e.advances p sr n).state = .release → e.state = .off ∨ e.state = .release)) := by
  induction n with
  | zero => exact ⟨.inl, fun h => ⟨h, id⟩⟩
  | succ n ih =>
    rw [Env.advances_succ]
    generalize e.advances p sr n = e' at ih
    obtain ⟨hshut, hother⟩ := ih
    rcases e'.advance_state p sr with h | ⟨h, h'⟩ | ⟨h, h'⟩ | ⟨h, h'⟩
    · rw [h]
      exact ⟨hshut, hother⟩
    · rw [h']
      exact ⟨fun hs => by simpa [h] using hshut hs, fun _ => by simp⟩
    · rw [h']
      exact ⟨fun hs => by simpa [h] using hshut hs, fun _ => by simp⟩
    · rw [h']
      refine ⟨fun _ => .inr rfl, fun hs => ⟨by simp [Env.toOff], fun _ => ?_⟩⟩
      exact (hother hs).2 (h.elim .inr (fun h => absurd h (hother hs).1))

section
variable {x : Ctx} {v : Voice}

theorem Voice.noteOn_controlOk (ev : Event) (h : v.ControlOk) : (v.noteOn x ev).ControlOk := by
  obtain ⟨hiff, hpend, _⟩ := h
  by_cases hp : v.masterEnv.state = .off
  · have hs : v.isStealing = false := by simpa [hp] using hiff
    rw [Voice.noteOn_of_off hp]
    exact ⟨by simp [Voice.startNote, Env.noteOn, hs], fun _ => hpend hs, by simp [Voice.startNote, Env.noteOn]⟩
  · rw [Voice.noteOn_of_playing hp]
    exact ⟨by simp [Voice.steal, Env.shutdown], by simp [Voice.steal], by simp [Voice.steal, Env.shutdown]⟩

theorem Voice.noteOff_controlOk (e : Event) (h : v.ControlOk) : (v.noteOff x e).ControlOk := by
  obtain ⟨hiff, hpend, hcur⟩ := h
  rcases v.noteOff_cases x e with heq | ⟨_, heq⟩ | ⟨hs, heq⟩ <;> rw [heq]
  · exact ⟨hiff, hpend, hcur⟩
  · exact ⟨hiff, fun _ => rfl, hcur⟩
  · have hstate : (v.releaseNote x).masterEnv.state ≠ .shutdown := by
      rcases v.masterEnv.noteOff_state x.params x.sr with hst | hst <;> simp [Voice.releaseNote_eq, hst]
    exact ⟨iff_of_false (ne_true_of_eq_false hs) hstate, fun _ => hpend hs, fun _ => rfl⟩

/-- A voice that steals stays in Shutdown until it is Off, and there the steal check ends the steal
(44_voice.md R190, R193). -/
theorem Voice.render_controlOk (n : Nat) (h : v.ControlOk) : (v.render x n).ControlOk := by
  obtain ⟨hiff, hpend, hcur⟩ := h
  obtain ⟨hshut, hother⟩ := v.masterEnv.advances_state x.params x.sr n
  rcases (v.renderBlock x n).stealCheck_cases x with ⟨heq, hno⟩ | ⟨heq, _, hoff, hnone⟩ | ⟨ev, heq, _⟩ <;>
    rw [Voice.render, heq]
  · cases hs : v.isStealing with
    | true =>
      have hst := (hshut (hiff.mp hs)).resolve_right (hno.resolve_left (by simp [(v.renderBlock_eq x n).2.2.2.1, hs]))
      exact ⟨iff_of_true hs hst, fun hs' => absurd (hs.symm.trans hs') (by simp),
        fun hor => hor.elim (fun h => absurd (hst.symm.trans h) (by decide)) (fun h => absurd (hst.symm.trans h) (by decide))⟩
    | false =>
      have hne : v.masterEnv.state ≠ .shutdown := fun h => by simp [hiff.mpr h] at hs
      exact ⟨iff_of_false (ne_true_of_eq_false hs) (hother hne).1, fun _ => hpend hs, fun hor => hcur ((hother hne).2 hor)⟩
  · exact ⟨iff_of_false Bool.false_ne_true (by simp [Voice.finalize, Voice.releaseOps, hoff]), fun _ => rfl,
      fun _ => hnone⟩
  · exact ⟨by simp [Voice.startNote, Voice.finalize, Env.noteOn], fun _ => rfl, by simp [Voice.startNote, Env.noteOn]⟩

end

theorem kept_controlOk : Kept State.ControlOk where
  books _ _ _ _ h := h
  reset _ _ := fresh_controlOk _ _
  hostWrite _ _ _ _ h _ := h
  init _ _ _ _ _ _ _ := fresh_controlOk _ _
  setpoly _ _ h _ := h
  setp _ _ _ h _ := h
  noteOn _ ev h _ := modifyActive_keeps h (fun _ => Voice.noteOn_controlOk ev)
  noteOff _ e h _ := forActive_keeps h (fun _ => Voice.noteOff_controlOk e)
  render _ _ _ h _ _ := poolRender_keeps_voices h (fun _ => Voice.render_controlOk _)

/-- Settles O59. -/
theorem stepKeepsVoiceControl : Obligations.StepKeepsVoiceControl := by
  unfold Obligations.StepKeepsVoiceControl
  exact fun _ _ h he => kept_controlOk.step h he

/-! ### Reset -/

/-- Settles O60: the record at reset is legal by its type, and every register and voice holds its reset value. -/
theorem resetMeetsInvariants : Obligations.ResetMeetsInvariants := by
  unfold Obligations.ResetMeetsInvariants
  exact ⟨Config.hw_legal.1, Config.hw_legal.2,
    ⟨⟨List.length_replicate, List.length_replicate, List.length_replicate⟩, fresh_shaped _ _⟩,
    ⟨parked_consistent _, fun hi => Bool.noConfusion hi⟩, fun hi => Bool.noConfusion hi,
    ⟨launchOut_ok _, fresh_arraysOk _ _ _⟩, fresh_atRest _ _, Params.zero_legal _, fresh_envelopesBounded _ _,
    fresh_controlOk _ _, .inl rfl⟩

end Sys2Proof.Machine

/-! PROOF. How a command ends (46_commands.md R240, R241, 60_exceptions.md R272, R274): dropped, with a fault, or
completed; and what follows for `FAULT`, the response, each piece of the state and the whole run. -/

namespace Sys2Proof.Machine

/-! ### The three ends of a command -/

/-- The state that each command leaves when it completes, with the checks it has passed. -/
inductive Completes (s : State) : Instr → State → Prop where
  | nop : Completes s .nop (s.respond 0)
  | init {ch : BitVec 8} {poly : BitVec 16} {sr maxblk : BitVec 32} (hf : s.fault = 0)
      (hl : initLegal s.hw ch poly sr maxblk = true) :
      Completes s (.init ch poly sr maxblk) ((s.initialised ch poly sr maxblk).respond 0)
  | setpoly {n : BitVec 16} (hf : s.fault = 0) (hi : s.initd = true) (hl : polyLegal s.hw n = true) :
      Completes s (.setpoly n) ({ s with pool := s.pool.resize n.toNat }.respond 0)
  | setp {r : BitVec 8} {val : BitVec 32} {reg : Reg} (hf : s.fault = 0) (hr : regOf s.hw.nOps r = some reg)
      (hl : reg.legal (q16 val) = true) :
      Completes s (.setp r val) ({ s with params := s.params.write reg (q16 val) }.respond 0)
  | rdsr {bank : BitVec 8} {idx : BitVec 16} {v : Reg32} (he : s.statusEntry bank idx = some v) :
      Completes s (.rdsr bank idx) (s.respond v)
  | noteOn {vp : Bool} {note : BitVec 7} {channel : BitVec 4} {vid vel : BitVec 32} (hf : s.fault = 0)
      (hi : s.initd = true) (hl : velocityLegal (q16 vel) = true) (ha : s.pool.active ≠ []) :
      Completes s (.noteOn vp note channel vid vel) (s.poolNoteOn (onEvent vp note channel vid vel))
  | noteOff {vp : Bool} {note : BitVec 7} {channel : BitVec 4} {vid : BitVec 32} (hf : s.fault = 0)
      (hi : s.initd = true) :
      Completes s (.noteOff vp note channel vid) ((s.noteOffEvent (offEvent vp note channel vid)).respond 0)
  | render {a b : BitVec 32} (hf : s.fault = 0) (hi : s.initd = true) (hl : blockLegal s a b = true) :
      Completes s (.render a b) ((s.poolRender a.toNat b.toNat).respond 0)

/-- The end with a fault: some code is raised, `PoolEmpty` only on an empty active list (45_voice_pool.md R214). -/
def Raises (s t : State) : Prop :=
  ∃ code, t = s.raise code ∧ (code = .poolEmpty → s.initd = true ∧ s.pool.active = [])

theorem raises_of_ne {s : State} {code : FaultCode} (h : code ≠ .poolEmpty) : Raises s (s.raise code) :=
  ⟨code, rfl, fun e => absurd e h⟩

/-- The three ends: dropped while halted, a fault while running, completion. -/
theorem exec_outcome {i : Instr} {s t : State} (he : exec i s = .next t) :
    (s.fault ≠ 0 ∧ t = s.drop) ∨ (s.fault = 0 ∧ Raises s t) ∨ Completes s i t := by
  cases i with
  | nop =>
    obtain rfl := Host.Outcome.next.inj he
    exact .inr (.inr .nop)
  | init ch poly sr maxblk =>
    obtain ⟨t', e, c⟩ := execInit_cases ch poly sr maxblk s
    obtain rfl := Host.Outcome.next.inj (e.symm.trans he)
    rcases c with h | ⟨hf, _, rfl⟩ | ⟨hf, hl, rfl⟩
    · exact .inl h
    · exact .inr (.inl ⟨hf, raises_of_ne (by decide)⟩)
    · exact .inr (.inr (.init hf hl))
  | setpoly n =>
    obtain ⟨t', e, c⟩ := execSetpoly_cases n s
    obtain rfl := Host.Outcome.next.inj (e.symm.trans he)
    rcases c with h | ⟨hf, _, rfl⟩ | ⟨hf, _, _, rfl⟩ | ⟨hf, hi, hl, rfl⟩
    · exact .inl h
    · exact .inr (.inl ⟨hf, raises_of_ne (by decide)⟩)
    · exact .inr (.inl ⟨hf, raises_of_ne (by decide)⟩)
    · exact .inr (.inr (.setpoly hf hi hl))
  | setp r val =>
    obtain ⟨t', e, c⟩ := execSetp_cases r val s
    obtain rfl := Host.Outcome.next.inj (e.symm.trans he)
    rcases c with h | ⟨hf, _, rfl⟩ | ⟨reg, hr, hf, ⟨_, rfl⟩ | ⟨hl, rfl⟩⟩
    · exact .inl h
    · exact .inr (.inl ⟨hf, raises_of_ne (by decide)⟩)
    · exact .inr (.inl ⟨hf, raises_of_ne (by decide)⟩)
    · exact .inr (.inr (.setp hf hr hl))
  | rdsr bank idx =>
    obtain ⟨t', e, c⟩ := execRdsr_cases bank idx s
    obtain rfl := Host.Outcome.next.inj (e.symm.trans he)
    rcases c with ⟨v, hv, rfl⟩ | ⟨_, h⟩ | ⟨_, hf, rfl⟩
    · exact .inr (.inr (.rdsr hv))
    · exact .inl h
    · exact .inr (.inl ⟨hf, raises_of_ne (by decide)⟩)
  | noteOn vp note channel vid vel =>
    obtain ⟨t', e, c⟩ := execNoteOn_cases vp note channel vid vel s
    obtain rfl := Host.Outcome.next.inj (e.symm.trans he)
    rcases c with h | ⟨hf, _, rfl⟩ | ⟨hf, _, _, rfl⟩ | ⟨hf, hi, _, ha, rfl⟩ | ⟨hf, hi, hl, ha, rfl⟩
    · exact .inl h
    · exact .inr (.inl ⟨hf, raises_of_ne (by decide)⟩)
    · exact .inr (.inl ⟨hf, raises_of_ne (by decide)⟩)
    · exact .inr (.inl ⟨hf, .poolEmpty, rfl, fun _ => ⟨hi, ha⟩⟩)
    · exact .inr (.inr (.noteOn hf hi hl ha))
  | noteOff vp note channel vid =>
    obtain ⟨t', e, c⟩ := execNoteOff_cases vp note channel vid s
    obtain rfl := Host.Outcome.next.inj (e.symm.trans he)
    rcases c with h | ⟨hf, _, rfl⟩ | ⟨hf, hi, rfl⟩
    · exact .inl h
    · exact .inr (.inl ⟨hf, raises_of_ne (by decide)⟩)
    · exact .inr (.inr (.noteOff hf hi))
  | render a b =>
    obtain ⟨t', e, c⟩ := execRender_cases a b s
    obtain rfl := Host.Outcome.next.inj (e.symm.trans he)
    rcases c with h | ⟨hf, _, rfl⟩ | ⟨hf, _, _, rfl⟩ | ⟨hf, hi, hl, rfl⟩
    · exact .inl h
    · exact .inr (.inl ⟨hf, raises_of_ne (by decide)⟩)
    · exact .inr (.inl ⟨hf, raises_of_ne (by decide)⟩)
    · exact .inr (.inr (.render hf hi hl))

theorem Completes.fault {s t : State} {i : Instr} (h : Completes s i t) : t.fault = s.fault := by
  cases h <;> simp

theorem Completes.response {s t : State} {i : Instr} (h : Completes s i t) :
    ∃ v, t.response = some ⟨false, v⟩ := by
  cases h <;> exact ⟨_, rfl⟩

theorem FaultCode.bit_le (code : FaultCode) : code.bit ≤ 6 := by
  cases code <;> decide

/-- The first fault sets its own bit and no other. -/
theorem State.raise_of_running {s : State} (h : s.fault = 0) (code : FaultCode) :
    s.raise code = { s with fault := 1#32 <<< code.bit, response := some ⟨true, BitVec.ofNat 32 code.bit⟩ } := by
  simp [State.raise, h, FaultCode.mask]

/-- Settles O12: an answer with `err = 1` is neither a completion's nor, while FMCORE runs, a dropped word's. -/
theorem faultingCommandChangesNothing : Obligations.FaultingCommandChangesNothing := by
  unfold Obligations.FaultingCommandChangesNothing
  intro i s t value hf he hresp
  rcases exec_outcome he with ⟨hne, _⟩ | ⟨_, code, rfl, _⟩ | hc
  · exact absurd hf hne
  · have hvalue : BitVec.ofNat 32 code.bit = value := by simpa using hresp
    exact ⟨code, by rw [State.raise_of_running hf, hvalue], hvalue.symm, code.bit_le⟩
  · obtain ⟨v, hv⟩ := hc.response
    simp [hv] at hresp

/-! ### `FAULT` -/

theorem exec_fault {i : Instr} {s t : State} (he : exec i s = .next t) :
    t.fault = s.fault ∨ (s.fault = 0 ∧ ∃ code : FaultCode, t.fault = code.mask) := by
  rcases exec_outcome he with ⟨_, rfl⟩ | ⟨hf, code, rfl, _⟩ | hc
  · exact .inl rfl
  · exact .inr ⟨hf, code, by simp [hf]⟩
  · exact .inl hc.fault

theorem runWord_fault {w : Word} {s t : State} (he : runWord w s = .next t) :
    t.fault = s.fault ∨ (s.fault = 0 ∧ ∃ code : FaultCode, t.fault = code.mask) := by
  rcases runWord_cases w s with ⟨i, _, e⟩ | ⟨_, _, e⟩
  · exact exec_fault (e.symm.trans he)
  · obtain rfl := Host.Outcome.next.inj (e.symm.trans he)
    rcases State.unlessHalted_cases s (s.raise .illegalCommand) with ⟨_, e'⟩ | ⟨hf, e'⟩ <;> rw [State.illegalWord, e']
    · exact .inl rfl
    · exact .inr ⟨hf, .illegalCommand, by simp [hf]⟩

/-- Without a reset a step leaves `FAULT`, or sets one bit of a `FAULT` that was 0. -/
theorem step_fault {s t : State} (he : step s = .next t) :
    (∃ rest, s.pending = .reset :: rest ∧ t.fault = 0) ∨
      ((∀ rest, s.pending ≠ .reset :: rest) ∧
        (t.fault = s.fault ∨ (s.fault = 0 ∧ ∃ code : FaultCode, t.fault = code.mask))) := by
  rcases step_cases s with ⟨hp, e⟩ | ⟨w, rest, hp, e⟩ | ⟨c, i, v, rest, hp, e⟩ | ⟨rest, hp, e⟩
  · obtain rfl := Host.Outcome.next.inj (e.symm.trans he)
    exact .inr ⟨by simp [hp], .inl rfl⟩
  · have hw := runWord_fault (e.symm.trans he)
    exact .inr ⟨by simp [hp], hw⟩
  · rcases hostWriteOut_cases c i v { s with pending := rest } with ⟨_, e'⟩ | ⟨_, e'⟩
    · obtain rfl := Host.Outcome.next.inj (e'.symm.trans (e.symm.trans he))
      exact .inr ⟨by simp [hp], .inl rfl⟩
    · rw [e, e'] at he
      cases he
  · obtain rfl := Host.Outcome.next.inj (e.symm.trans he)
    exact .inl ⟨rest, hp, rfl⟩

/-- Settles O11. -/
theorem faultOneBitUntilReset : Obligations.FaultOneBitUntilReset := by
  unfold Obligations.FaultOneBitUntilReset
  intro s t he
  rcases step_fault he with ⟨rest, hp, h0⟩ | ⟨hno, h⟩
  · exact ⟨fun _ => .inl h0, fun hno => absurd hp (hno rest), fun _ _ => h0⟩
  · refine ⟨fun hok => ?_, fun _ hne => h.resolve_right (fun h0 => hne h0.1), fun rest hp => absurd hp (hno rest)⟩
    rcases h with h | ⟨_, code, h⟩
    · rwa [State.FaultOk, h]
    · exact .inr ⟨code, h⟩

/-! ### While halted -/

theorem exec_rdsr_of_entry {s : State} {bank : BitVec 8} {idx : BitVec 16} {v : Reg32}
    (h : s.statusEntry bank idx = some v) : exec (.rdsr bank idx) s = .next (s.respond v) := by
  simp only [exec, execRdsr, h]

theorem exec_rdsr_of_no_entry {s : State} {bank : BitVec 8} {idx : BitVec 16} (h : s.statusEntry bank idx = none) :
    exec (.rdsr bank idx) s = .next (s.unlessHalted (s.raise .illegalCommand)) := by
  simp only [exec, execRdsr, h]

/-- Every command but NOP and RDSR is dropped while halted. -/
theorem exec_of_halted {s : State} (h : s.fault ≠ 0) {i : Instr} (hnop : i ≠ .nop)
    (hrdsr : ∀ bank idx, i ≠ .rdsr bank idx) : exec i s = .next s.drop := by
  obtain ⟨t, he⟩ := exec_next i s
  rw [he]
  rcases exec_outcome he with ⟨_, rfl⟩ | ⟨hf, _⟩ | hc
  · rfl
  · exact absurd hf h
  · cases hc with
    | nop => exact absurd rfl hnop
    | rdsr => exact absurd rfl (hrdsr _ _)
    | _ => exact absurd (by assumption) h

/-- A step that finds a command word runs it. -/
theorem step_of_command {s : State} {w : Word} {rest : List HostInput} (h : s.pending = .command w :: rest) :
    step s = runWord w { s with pending := rest } := by
  simp only [step, takeInput, h, runInput]

theorem runWord_of_decode {w : Word} {i : Instr} (h : decode w = .ok i) (s : State) : runWord w s = exec i s := by
  simp only [runWord, h]

theorem runWord_of_illegal {w : Word} {e : Illegal} (h : decode w = .error e) (s : State) :
    runWord w s = .next s.illegalWord := by
  simp only [runWord, h]

/-- Settles O8. -/
theorem stepRunsDecodedCommand : Obligations.StepRunsDecodedCommand := by
  unfold Obligations.StepRunsDecodedCommand
  intro s w rest i hp hd
  rw [step_of_command hp, runWord_of_decode hd]

/-- What a word is answered while halted, by what it decodes to; a word that does not decode is dropped like a
command. -/
theorem runWord_of_halted {s : State} (hf : s.fault ≠ 0) (w : Word) :
    ∃ r : Response, runWord w s = .next { s with response := some r } ∧
      (decode w = .ok .nop → r = ⟨false, 0⟩) ∧
      (∀ bank idx v, decode w = .ok (.rdsr bank idx) → s.statusEntry bank idx = some v → r = ⟨false, v⟩) ∧
      (∀ bank idx, decode w = .ok (.rdsr bank idx) → s.statusEntry bank idx = none → r = ⟨true, 31⟩) ∧
      ((∀ i, decode w = .ok i → i ≠ .nop ∧ ∀ bank idx, i ≠ .rdsr bank idx) → r = ⟨true, 31⟩) := by
  cases hd : decode w with
  | error e =>
    refine ⟨⟨true, 31⟩, ?_, nofun, nofun, fun _ _ _ _ => rfl, fun _ => rfl⟩
    rw [runWord_of_illegal hd, State.illegalWord, State.unlessHalted_drop _ _ hf]
    rfl
  | ok i =>
    rw [runWord_of_decode hd]
    by_cases hnop : i = .nop
    · subst hnop
      exact ⟨⟨false, 0⟩, rfl, fun _ => rfl, nofun, nofun, fun h => absurd rfl (h _ rfl).1⟩
    by_cases hrdsr : ∃ bank idx, i = .rdsr bank idx
    · obtain ⟨bank, idx, rfl⟩ := hrdsr
      cases hv : s.statusEntry bank idx with
      | some v =>
        refine ⟨⟨false, v⟩, exec_rdsr_of_entry hv, nofun, ?_, ?_, fun h => absurd rfl ((h _ rfl).2 _ _)⟩
        · rintro _ _ v' ⟨⟩ hv'
          rw [Option.some.inj (hv.symm.trans hv')]
        · rintro _ _ ⟨⟩ hnone
          cases hv.symm.trans hnone
      | none =>
        refine ⟨⟨true, 31⟩, ?_, nofun, ?_, fun _ _ _ _ => rfl, fun _ => rfl⟩
        · rw [exec_rdsr_of_no_entry hv, State.unlessHalted_drop _ _ hf]
          rfl
        · rintro _ _ v' ⟨⟩ hv'
          cases hv.symm.trans hv'
    · refine ⟨⟨true, 31⟩, ?_, fun h => absurd (Except.ok.inj h) hnop, ?_, fun _ _ _ _ => rfl, fun _ => rfl⟩
      · rw [exec_of_halted hf hnop (fun bank idx h => hrdsr ⟨bank, idx, h⟩)]
        rfl
      · exact fun bank idx _ h => absurd ⟨bank, idx, Except.ok.inj h⟩ hrdsr

/-- Settles O10. -/
theorem haltedAnswersOnlyNopAndRdsr : Obligations.HaltedAnswersOnlyNopAndRdsr := by
  unfold Obligations.HaltedAnswersOnlyNopAndRdsr
  intro s w rest hf hp
  rw [step_of_command hp]
  exact runWord_of_halted (s := { s with pending := rest }) hf w

/-! ### Operand checks -/

theorem exec_setp_of_no_register {s : State} {r : BitVec 8} (hr : regOf s.hw.nOps r = none) (val : BitVec 32) :
    exec (.setp r val) s = .next (s.unlessHalted (s.raise .illegalCommand)) := by
  simp only [exec, execSetp, hr]

theorem exec_setp_of_register {s : State} {r : BitVec 8} {reg : Reg} (hr : regOf s.hw.nOps r = some reg)
    (val : BitVec 32) :
    exec (.setp r val) s = .next (s.unlessHalted (if reg.legal (q16 val)
      then { s with params := s.params.write reg (q16 val) }.respond 0 else s.raise .paramRange)) := by
  simp only [exec, execSetp, hr]

section
variable {s : State} (hf : s.fault = 0)
include hf

theorem exec_init_of_running (ch : BitVec 8) (poly : BitVec 16) (sr maxblk : BitVec 32) :
    exec (.init ch poly sr maxblk) s = .next (if initLegal s.hw ch poly sr maxblk
      then (s.initialised ch poly sr maxblk).respond 0 else s.raise .invalidConfig) := by
  rw [exec, execInit, State.unlessHalted_run _ _ hf]

section
variable (hi : s.initd = true)
include hi

theorem exec_setpoly_of_ready (n : BitVec 16) :
    exec (.setpoly n) s = .next (if polyLegal s.hw n then { s with pool := s.pool.resize n.toNat }.respond 0
      else s.raise .invalidPolyphony) := by
  rw [exec, execSetpoly, State.unlessHalted_run _ _ hf, State.ifInitialised_run _ _ hi]

theorem exec_noteOn_of_ready (vp : Bool) (note : BitVec 7) (ch : BitVec 4) (vid vel : BitVec 32) :
    exec (.noteOn vp note ch vid vel) s = .next (if velocityLegal (q16 vel)
      then s.noteOnEvent (onEvent vp note ch vid vel) else s.raise .paramRange) := by
  rw [exec, execNoteOn, State.unlessHalted_run _ _ hf, State.ifInitialised_run _ _ hi]

theorem exec_render_of_illegal {a b : BitVec 32} (hl : ¬ blockLegal s a b = true) :
    exec (.render a b) s = .next (s.raise .blockRange) := by
  rw [exec, execRender, State.unlessHalted_run _ _ hf, State.ifInitialised_run _ _ hi, if_neg hl]

end

end

theorem velocityLegal_iff (x : Num) : velocityLegal x = true ↔ 0 ≤ x ∧ x ≤ 1 := by
  rw [velocityLegal, Bool.and_eq_true, decide_eq_true_iff, decide_eq_true_iff]

/-- The legal values of a register (46_commands.md R246). -/
theorem Reg.legal_iff (reg : Reg) (x : Num) :
    reg.legal x = true ↔
      ((reg = .attackMs ∨ reg = .decayMs ∨ reg = .releaseMs ∨ ∃ k, reg = .modIndex k) → 0 ≤ x) ∧
        ((reg = .sustain ∨ ∃ k, reg = .mix k) → 0 ≤ x ∧ x ≤ 1) := by
  cases reg <;> simp [Reg.legal]

/-- The entries of the status map that do not exist (10_state.md R27). -/
theorem statusEntry_eq_none {s : State} {bank : BitVec 8} {idx : BitVec 16}
    (h : 5 ≤ bank.toNat ∨ (bank = 0 ∧ 10 ≤ idx.toNat) ∨
      (1 ≤ bank.toNat ∧ bank.toNat ≤ 3 ∧ s.hw.maxVoices ≤ idx.toNat) ∨
      (bank = 4 ∧ (256 ≤ idx.toNat ∨ regOf s.hw.nOps (idx.setWidth 8) = none))) : s.statusEntry bank idx = none := by
  rcases h with h | ⟨rfl, h⟩ | ⟨h1, h3, h⟩ | ⟨rfl, h⟩
  · simp only [State.statusEntry]
    split
    case h_6 => rfl
    all_goals omega
  · change s.statusBank0 idx.toNat = none
    simp only [State.statusBank0]
    split
    case h_11 => rfl
    all_goals omega
  · have hno : ¬ idx.toNat < s.hw.maxVoices := not_lt.mpr h
    simp only [State.statusEntry, hno, if_false]
    split
    case h_1 | h_5 => omega
    all_goals rfl
  · change (if idx.toNat < 256 then _ else none) = none
    split
    case isTrue hlt => rw [h.resolve_left (not_le.mpr hlt), Option.map_none]
    case isFalse => rfl

/-- Settles O14: each check of each command, in the order of the statement. -/
theorem operandChecksRaise : Obligations.OperandChecksRaise := by
  unfold Obligations.OperandChecksRaise
  intro s hf
  refine ⟨fun ch poly sr maxblk h => ?_, fun n hi h => ?_, fun r val hr => ?_, fun r val reg hr h => ?_,
    fun bank idx h => ?_, fun vp note ch vid vel hi h => ?_, fun a b hi h => ?_⟩
  · have hl : ¬ initLegal s.hw ch poly sr maxblk = true := fun hl => by
      obtain ⟨h1, h2, h3, h4, h5, h6, h7⟩ := (initLegal_iff _ _ _ _ _).mp hl
      rcases h with h | h | h | h | h | h | h
      · exact h1 h
      · exact h2 h
      · exact h3 h
      · omega
      · exact h5 h
      · omega
      · exact absurd h7 (not_le.mpr h)
    rw [exec_init_of_running hf, if_neg hl, State.raise_of_running hf]
    rfl
  · have hl : ¬ polyLegal s.hw n = true := fun hl => by
      obtain ⟨h1, h2⟩ := (polyLegal_iff _ _).mp hl
      exact h.elim h1 (fun h => absurd h2 (not_le.mpr h))
    rw [exec_setpoly_of_ready hf hi, if_neg hl, State.raise_of_running hf]
    rfl
  · rw [exec_setp_of_no_register hr, State.unlessHalted_run _ _ hf, State.raise_of_running hf]
    rfl
  · have hl : ¬ reg.legal (q16 val) = true := fun hl => by
      obtain ⟨h1, h2⟩ := (Reg.legal_iff _ _).mp hl
      rcases h with ⟨hreg, h⟩ | ⟨hreg, h⟩
      · exact absurd (h1 hreg) (not_le.mpr h)
      · exact h.elim (fun h => absurd (h2 hreg).1 (not_le.mpr h)) (fun h => absurd (h2 hreg).2 (not_le.mpr h))
    rw [exec_setp_of_register hr, State.unlessHalted_run _ _ hf, if_neg hl, State.raise_of_running hf]
    rfl
  · rw [exec_rdsr_of_no_entry (statusEntry_eq_none h), State.unlessHalted_run _ _ hf, State.raise_of_running hf]
    rfl
  · have hl : ¬ velocityLegal (q16 vel) = true := fun hl => by
      obtain ⟨h0, h1⟩ := (velocityLegal_iff _).mp hl
      exact h.elim (fun h => absurd h0 (not_le.mpr h)) (fun h => absurd h1 (not_le.mpr h))
    rw [exec_noteOn_of_ready hf hi, if_neg hl, State.raise_of_running hf]
    rfl
  · have hl : ¬ blockLegal s a b = true := fun hl => by
      obtain ⟨h1, h2⟩ := (blockLegal_iff s a b).mp hl
      omega
    rw [exec_render_of_illegal hf hi hl, State.raise_of_running hf]
    rfl

/-- Settles O13: the check for an INIT stands before the operand checks of all four. -/
theorem notInitializedBeforeInit : Obligations.NotInitializedBeforeInit := by
  unfold Obligations.NotInitializedBeforeInit
  intro s hf hi i h
  have hraise (body : State) :
      s.unlessHalted (s.ifInitialised body) = { s with fault := 2, response := some ⟨true, 1⟩ } := by
    rw [State.unlessHalted_run _ _ hf, State.ifInitialised_raise _ _ hi, State.raise_of_running hf]
    rfl
  rcases h with ⟨n, rfl⟩ | ⟨vp, note, ch, vid, vel, rfl⟩ | ⟨vp, note, ch, vid, rfl⟩ | ⟨a, b, rfl⟩
  · rw [exec, execSetpoly, hraise]
  · rw [exec, execNoteOn, hraise]
  · rw [exec, execNoteOff, hraise]
  · rw [exec, execRender, hraise]

/-- Settles O15. -/
theorem nopChangesNothing : Obligations.NopChangesNothing := by
  unfold Obligations.NopChangesNothing
  exact fun _ => rfl

/-- Settles O27: the pool invariant has an active voice once INIT has succeeded, and a NOTE_ON before it raises
`NotInitialized`. -/
theorem poolEmptyUnreachable : Obligations.PoolEmptyUnreachable := by
  unfold Obligations.PoolEmptyUnreachable
  refine ⟨fun s vp note ch vid vel hf hi h0 h1 ha => ?_, fun i s t hok he hresp => ?_⟩
  · rw [exec_noteOn_of_ready hf hi, if_pos ((velocityLegal_iff _).mpr ⟨h0, h1⟩), State.noteOnEvent, if_pos ha,
      State.raise_of_running hf]
    rfl
  · rcases exec_outcome he with ⟨_, rfl⟩ | ⟨_, code, rfl, hcode⟩ | hc
    · simp at hresp
    · have hpool : code = .poolEmpty := by
        cases code <;> simp [FaultCode.bit] at hresp ⊢
      obtain ⟨hi, ha⟩ := hcode hpool
      simpa [ha] using hok.2 hi
    · obtain ⟨v, hv⟩ := hc.response
      simp [hv] at hresp

/-! ### Steps that run no command -/

theorem State.illegalWord_of_running {s : State} (h : s.fault = 0) :
    s.illegalWord = { s with fault := 1, response := some ⟨true, 0⟩ } := by
  rw [State.illegalWord, State.unlessHalted_run _ _ h, State.raise_of_running h]
  rfl

/-- Settles O9. -/
theorem stepWithoutCommand : Obligations.StepWithoutCommand := by
  unfold Obligations.StepWithoutCommand
  intro s rest
  refine ⟨fun hp => ?_, fun w e hp hd hf => ?_, fun hp => ?_, fun c i v hp hc hi hw => ?_⟩
  · simp only [step, takeInput, hp]
  · rw [step_of_command hp, runWord_of_illegal hd, State.illegalWord_of_running (s := { s with pending := rest }) hf]
  · refine ⟨State.hardReset { s with pending := rest }, by simp only [step, takeInput, hp, runInput], ?_⟩
    exact ⟨rfl, rfl, rfl, rfl, Params.zero_read _, rfl, rfl, rfl, rfl, rfl, rfl, rfl, rfl, rfl, rfl⟩
  · have hx : outExists s.hw c i = true := by simp [outExists, hc, hi]
    refine ⟨s.out.write (c, i) v, ?_, Space.read_write_same _ _ hw, fun k hk => Space.read_write_other _ _ hk⟩
    simp only [step, takeInput, hp, runInput, hostWriteOut, hx, if_true]

/-! ### Who writes what -/

theorem poolRender_voices_get_other {s : State} {v : Nat} (h : v ∉ s.pool.active) (a b : Nat) :
    (s.poolRender a b).voices[v]? = s.voices[v]? := by
  by_cases hn : b - a = 0
  · rw [State.poolRender_empty s hn]
  · rw [State.poolRender_block s hn]
    exact forActive_get_other h _ _

/-- Settles O50: a dropped word and a fault write `FAULT` and the response alone, and of what each command writes when
it completes there is one equation. -/
theorem eachPieceHasItsWriters : Obligations.EachPieceHasItsWriters := by
  unfold Obligations.EachPieceHasItsWriters
  intro i s t he
  rcases exec_outcome he with ⟨_, rfl⟩ | ⟨_, code, rfl, _⟩ | hc
  · simp
  · simp
  · cases hc with
    | nop => simp
    | init => simp
    | setpoly => simp
    | setp => simp
    | rdsr => simp
    | noteOn =>
      exact ⟨rfl, rfl, fun _ => rfl, fun _ => ⟨rfl, rfl, rfl, rfl, fun v hv => modifyActive_get_other hv _ _ _,
        fun _ => ⟨rfl, rfl⟩, fun hne => absurd rfl (hne _ _ _ _ _)⟩, fun _ => rfl, by simp⟩
    | noteOff => simp +contextual [forActive_get_other]
    | render => simp +contextual [poolRender_voices_get_other]

/-! ### Runs -/

/-- A step takes the first input, if there is one, and writes no record. -/
theorem step_hw_pending {s t : State} (he : step s = .next t) : t.hw = s.hw ∧ t.pending = s.pending.tail := by
  have hword {w : Word} {s t : State} (he : runWord w s = .next t) : t.hw = s.hw ∧ t.pending = s.pending := by
    rcases runWord_cases w s with ⟨i, _, e⟩ | ⟨_, _, e⟩
    · obtain ⟨hhw, hpend, _⟩ := eachPieceHasItsWriters i s t (e.symm.trans he)
      exact ⟨hhw, hpend⟩
    · obtain rfl := Host.Outcome.next.inj (e.symm.trans he)
      rcases State.unlessHalted_cases s (s.raise .illegalCommand) with ⟨_, e'⟩ | ⟨_, e'⟩ <;>
        simp [State.illegalWord, e']
  rcases step_cases s with ⟨hp, e⟩ | ⟨w, rest, hp, e⟩ | ⟨c, i, v, rest, hp, e⟩ | ⟨rest, hp, e⟩
  · obtain rfl := Host.Outcome.next.inj (e.symm.trans he)
    simp [hp]
  · rw [hp]
    exact hword (e.symm.trans he)
  · rcases hostWriteOut_cases c i v { s with pending := rest } with ⟨_, e'⟩ | ⟨_, e'⟩
    · obtain rfl := Host.Outcome.next.inj (e'.symm.trans (e.symm.trans he))
      simp [hp]
    · rw [e, e'] at he
      cases he
  · obtain rfl := Host.Outcome.next.inj (e.symm.trans he)
    simp [hp]

/-- With nothing but proper inputs before it the machine has a next state. -/
theorem step_next_of_proper {s : State} (h : ∀ x ∈ s.pending, x.Proper s.hw) : ∃ t, step s = .next t := by
  rcases step_cases s with ⟨_, e⟩ | ⟨w, rest, _, e⟩ | ⟨c, i, v, rest, hp, e⟩ | ⟨rest, _, e⟩
  · exact ⟨_, e⟩
  · rcases runWord_cases w { s with pending := rest } with ⟨i, _, e'⟩ | ⟨_, _, e'⟩
    · obtain ⟨t, he⟩ := exec_next i { s with pending := rest }
      exact ⟨t, e.trans (e'.trans he)⟩
    · exact ⟨_, e.trans e'⟩
  · have hx : outExists s.hw c i = true := h (.writeOut c i v) (by simp [hp])
    rcases hostWriteOut_cases c i v { s with pending := rest } with ⟨_, e'⟩ | ⟨hno, _⟩
    · exact ⟨_, e.trans e'⟩
    · exact absurd (hx.symm.trans hno) (by decide)
  · exact ⟨_, e⟩

theorem reaches_proper {s t : State} (h : ∀ x ∈ s.pending, x.Proper s.hw) (hr : Reaches s t) :
    ∀ x ∈ t.pending, x.Proper t.hw := by
  induction hr with
  | here => exact h
  | further _ he ih =>
    obtain ⟨hhw, hpend⟩ := step_hw_pending he
    rw [hhw, hpend]
    exact fun x hx => ih x (List.mem_of_mem_tail hx)

/-- Settles O52: every state of the run still has nothing but proper inputs before it. -/
theorem noRunStops : Obligations.NoRunStops := by
  unfold Obligations.NoRunStops
  exact fun _ _ h hr => step_next_of_proper (reaches_proper h hr)

end Sys2Proof.Machine

/-! PROOF. The system commands (46_commands.md R243 to R248): what INIT leaves, which voices SETPOLY takes and parks
(45_voice_pool.md R211, R216), what SETP writes, and what RDSR answers (10_state.md R27). -/

namespace Sys2Proof.Machine

/-! ### INIT -/

/-- A pool that does not shrink takes voices from the front of the inactive list (45_voice_pool.md R216). -/
theorem resize_of_le {p : Pool} {n : Nat} (h : p.active.length ≤ n) (hn : n ≤ p.active.length + p.inactive.length) :
    p.resize n = ⟨p.active ++ p.inactive.take (n - p.active.length),
      p.age ++ List.replicate (n - p.active.length) 0, p.inactive.drop (n - p.active.length)⟩ := by
  simp only [Pool.resize, Nat.sub_eq_zero_of_le h, forUpTo_zero]
  exact growLoop_eq (by omega)

/-- From the parked pool the first `n` voices become active. -/
theorem resize_parked {m n : Nat} (h : n ≤ m) :
    (Pool.parked m).resize n = ⟨List.range n, List.replicate n 0, (List.range m).drop n⟩ := by
  rw [resize_of_le (Nat.zero_le _) (by simpa [Pool.parked] using h)]
  simp [Pool.parked, List.take_range, Nat.min_eq_left h]

/-- Settles O16. -/
theorem initLeavesSilentPool : Obligations.InitLeavesSilentPool := by
  unfold Obligations.InitLeavesSilentPool
  intro s ch poly sr maxblk hf hsr hch hblk hlim hpoly hmax hrate
  rw [exec_init_of_running hf, if_pos ((initLegal_iff _ _ _ _ _).mpr ⟨hsr, hch, hblk, hlim, hpoly, hmax, hrate⟩),
    State.initialised, resize_parked hmax]
  rfl

/-! ### SETPOLY -/

theorem exec_setpoly_of_legal {s : State} (hf : s.fault = 0) (hi : s.initd = true) {n : BitVec 16} (h0 : n ≠ 0)
    (hn : n.toNat ≤ s.hw.maxVoices) :
    exec (.setpoly n) s = .next { s with pool := s.pool.resize n.toNat, response := some ⟨false, 0⟩ } := by
  rw [exec_setpoly_of_ready hf hi, if_pos ((polyLegal_iff _ _).mpr ⟨h0, hn⟩), State.respond]

/-- Settles O17. -/
theorem setpolyGrows : Obligations.SetpolyGrows := by
  unfold Obligations.SetpolyGrows
  intro s n hf hi h0 hn hle hfree
  rw [exec_setpoly_of_legal hf hi h0 hn, resize_of_le hle hfree]

/-- The voices with their ages and the active indices they had: of the list `all`, `kept` stay and `gone` have been
parked one after the other, each before all that stay (45_voice_pool.md R211). -/
structure EvictionSplit (all kept gone : List ((Nat × Nat) × Nat)) : Prop where
  sublist : kept.Sublist all
  perm : (kept ++ gone).Perm all
  ordered : gone.Pairwise evictedBefore
  before : ∀ a ∈ kept, ∀ g ∈ gone, evictedBefore g a

theorem EvictionSplit.start (all : List ((Nat × Nat) × Nat)) : EvictionSplit all all [] :=
  ⟨.refl _, by simp, .nil, by simp⟩

/-- Parking one more that goes before the others that stay. -/
theorem EvictionSplit.park {all kept gone : List ((Nat × Nat) × Nat)} (h : EvictionSplit all kept gone) {t : Nat}
    (ht : t < kept.length) (hfirst : ∀ a ∈ kept.eraseIdx t, evictedBefore kept[t] a) :
    EvictionSplit all (kept.eraseIdx t) (gone ++ [kept[t]]) where
  sublist := (List.eraseIdx_sublist _ _).trans h.sublist
  perm := by
    have hone : (kept.eraseIdx t ++ [kept[t]]).Perm kept :=
      List.perm_append_comm.trans (List.getElem_cons_eraseIdx_perm ht)
    have hcomm : (kept.eraseIdx t ++ (gone ++ [kept[t]])).Perm ((kept.eraseIdx t ++ [kept[t]]) ++ gone) := by
      rw [List.append_assoc]
      exact List.perm_append_comm.append_left _
    exact hcomm.trans ((hone.append_right _).trans h.perm)
  ordered := by
    refine List.pairwise_append.mpr ⟨h.ordered, List.pairwise_singleton _ _, fun g hg a ha => ?_⟩
    obtain rfl := List.mem_singleton.mp ha
    exact h.before _ (List.getElem_mem ht) g hg
  before a ha g hg := by
    rcases List.mem_append.mp hg with hg | hg
    · exact h.before a (List.mem_of_mem_eraseIdx ha) g hg
    · obtain rfl := List.mem_singleton.mp hg
      exact hfirst a ha

/-- The active indices of a sublist rise. -/
theorem pairwise_index_of_sublist {α : Type} {l : List α} {kept : List (α × Nat)} (h : kept.Sublist l.zipIdx) :
    kept.Pairwise (fun a b => a.2 < b.2) := by
  have hindex : (l.zipIdx.map Prod.snd).Pairwise (· < ·) := by
    rw [List.zipIdx_map_snd]
    exact List.pairwise_lt_range'
  exact (List.pairwise_map.mp hindex).sublist h

/-- The oldest-voice selection finds the one that goes before all others (45_voice_pool.md R211). -/
theorem evictedBefore_oldest {kept : List ((Nat × Nat) × Nat)} (hindex : kept.Pairwise (fun a b => a.2 < b.2)) {t : Nat}
    (ht : t < kept.length) (hold : t = oldest (kept.map (fun a => a.1.2))) :
    ∀ a ∈ kept.eraseIdx t, evictedBefore kept[t] a := by
  intro a ha
  obtain ⟨j, hj, hne, rfl⟩ := List.mem_eraseIdx_iff_getElem.mp ha
  have hlast := isLastOldest_oldest (kept.map (fun a => a.1.2)) j (by rw [List.length_map]; omega)
  rw [← hold, List.getD_eq_getElem _ _ (by simpa using hj), List.getD_eq_getElem _ _ (by simpa using ht),
    List.getElem_map, List.getElem_map] at hlast
  obtain ⟨hle, hties⟩ := hlast
  rcases Nat.lt_or_eq_of_le hle with hlt | heq
  · exact .inl hlt
  · exact .inr ⟨heq, List.pairwise_iff_getElem.mp hindex j t hj ht (Nat.lt_of_le_of_ne (hties heq) hne)⟩

/-- The pool of the voices that stay, with the parked ones at the end of the inactive list. -/
def poolOfSplit (inactive : List Nat) (kept gone : List ((Nat × Nat) × Nat)) : Pool :=
  ⟨kept.map (fun a => a.1.1), kept.map (fun a => a.1.2), inactive ++ gone.map (fun g => g.1.1)⟩

/-- One turn of the shrink loop parks one more voice of the split. -/
theorem shrinkOne_poolOfSplit {l : List (Nat × Nat)} {inactive : List Nat} {kept gone : List ((Nat × Nat) × Nat)}
    (h : EvictionSplit l.zipIdx kept gone) (hne : kept ≠ []) :
    ∃ kept' gone', EvictionSplit l.zipIdx kept' gone' ∧ kept'.length + 1 = kept.length ∧
      (poolOfSplit inactive kept gone).shrinkOne = poolOfSplit inactive kept' gone' := by
  have hage : kept.map (fun a => a.1.2) ≠ [] := by simpa using hne
  generalize hold : oldest (kept.map (fun a => a.1.2)) = t
  have ht : t < kept.length := by simpa [hold] using oldest_lt hage
  refine ⟨kept.eraseIdx t, gone ++ [kept[t]],
    h.park ht (evictedBefore_oldest (pairwise_index_of_sublist h.sublist) ht hold.symm), ?_, ?_⟩
  · rw [List.length_eraseIdx_of_lt ht]
    omega
  · have hget : (poolOfSplit inactive kept gone).active[oldest (poolOfSplit inactive kept gone).age]? =
        some kept[t].1.1 := by
      simp [poolOfSplit, hold, ht]
    rw [shrinkOne_eq hget]
    simp [poolOfSplit, hold, List.eraseIdx_map]

/-- `k` turns of the shrink loop. -/
theorem shrinkLoop_poolOfSplit {l : List (Nat × Nat)} (inactive : List Nat) {k : Nat} (hk : k ≤ l.length) :
    ∃ kept gone, EvictionSplit l.zipIdx kept gone ∧ kept.length + k = l.length ∧
      forUpTo k (fun _ p => p.shrinkOne) (poolOfSplit inactive l.zipIdx []) = poolOfSplit inactive kept gone := by
  induction k with
  | zero => exact ⟨l.zipIdx, [], .start _, List.length_zipIdx, rfl⟩
  | succ k ih =>
    obtain ⟨kept, gone, hsplit, hlen, heq⟩ := ih (by omega)
    obtain ⟨kept', gone', hsplit', hlen', heq'⟩ := shrinkOne_poolOfSplit (inactive := inactive) hsplit
      (List.ne_nil_of_length_pos (by omega))
    exact ⟨kept', gone', hsplit', by omega, by rw [forUpTo_succ, heq, heq']⟩

/-- A pool is the split of its own voices before any is parked. -/
theorem poolOfSplit_start {p : Pool} (h : p.age.length = p.active.length) :
    poolOfSplit p.inactive (p.active.zip p.age).zipIdx [] = p := by
  have hfst (f : Nat × Nat → Nat) : (p.active.zip p.age).zipIdx.map (fun a => f a.1) = (p.active.zip p.age).map f := by
    have hmap := congrArg (List.map f) (List.zipIdx_map_fst 0 (p.active.zip p.age))
    rwa [List.map_map] at hmap
  simp only [poolOfSplit, List.map_nil, List.append_nil]
  rw [hfst Prod.fst, hfst Prod.snd, List.map_fst_zip h.ge, List.map_snd_zip h.le]

/-- Settles O18: the shrink loop parks one voice a turn, each time the one that goes before all others. -/
theorem setpolyShrinksByEvictingOldest : Obligations.SetpolyShrinksByEvictingOldest := by
  unfold Obligations.SetpolyShrinksByEvictingOldest
  intro s n hf hi h0 hn hle hage
  have hzip : (s.pool.active.zip s.pool.age).length = s.pool.active.length := by
    rw [List.length_zip, hage, Nat.min_self]
  obtain ⟨kept, gone, hsplit, hlen, heq⟩ := shrinkLoop_poolOfSplit (l := s.pool.active.zip s.pool.age) s.pool.inactive
    (k := s.pool.active.length - n.toNat) (by omega)
  have hresize : s.pool.resize n.toNat = poolOfSplit s.pool.inactive kept gone := by
    rw [← heq, poolOfSplit_start hage, Pool.resize, Nat.sub_eq_zero_of_le hle, forUpTo_zero]
  refine ⟨poolOfSplit s.pool.inactive kept gone, kept, gone, ?_, ?_, ?_, hsplit.sublist, hsplit.perm,
    List.zip_map', rfl, hsplit.ordered, hsplit.before⟩
  · rw [exec_setpoly_of_legal hf hi h0 hn, hresize]
  · simp only [poolOfSplit, List.length_map]
    omega
  · simp only [poolOfSplit, List.length_map]
    omega

/-! ### SETP -/

/-- The registers of a parameter file that exist (10_state.md R21). -/
def Reg.Exists (n : Nat) : Reg → Prop
  | .ratio k => k < n
  | .modIndex k => k < n
  | .mix k => k < n
  | _ => True

theorem exists_of_regOf {n : Nat} {r : BitVec 8} {reg : Reg} (h : regOf n r = some reg) : reg.Exists n := by
  rcases (regOf_eq_some_iff n r reg).mp h with ⟨_, rfl⟩ | ⟨_, rfl⟩ | ⟨_, rfl⟩ | ⟨_, rfl⟩ | ⟨_, hk, rfl⟩ | ⟨_, hk, rfl⟩ |
    ⟨_, hk, rfl⟩
  · exact trivial
  · exact trivial
  · exact trivial
  · exact trivial
  · exact hk
  · exact hk
  · exact hk

theorem Params.read_write_same {n : Nat} {p : Params} (hp : p.Shaped n) {reg : Reg} (h : reg.Exists n) (v : Num) :
    (p.write reg v).read reg = v := by
  obtain ⟨hr, hm, hx⟩ := hp
  cases reg with
  | ratio k => simp [Params.write, Params.read, hr.symm ▸ show k < n from h]
  | modIndex k => simp [Params.write, Params.read, hm.symm ▸ show k < n from h]
  | mix k => simp [Params.write, Params.read, hx.symm ▸ show k < n from h]
  | _ => rfl

theorem Params.read_write_other (p : Params) {reg reg' : Reg} (h : reg' ≠ reg) (v : Num) :
    (p.write reg v).read reg' = p.read reg' :=
  (p.read_write_cases reg reg' v).resolve_right (fun h' => h h'.1)

/-- Settles O19. -/
theorem setpWritesOneRegister : Obligations.SetpWritesOneRegister := by
  unfold Obligations.SetpWritesOneRegister
  intro s r val reg hf hp hr h0 h1
  refine ⟨s.params.write reg (q16 val), ?_, Params.read_write_same hp (exists_of_regOf hr) _,
    fun reg' hne => s.params.read_write_other hne _⟩
  rw [exec_setp_of_register hr, State.unlessHalted_run _ _ hf, if_pos ((Reg.legal_iff _ _).mpr ⟨h0, h1⟩),
    State.respond]

/-! ### RDSR -/

/-- Bank 4 answers the pattern of a register (10_state.md R27). -/
theorem statusEntry_bank4 {s : State} {r : BitVec 8} {reg : Reg} (hr : regOf s.hw.nOps r = some reg) :
    s.statusEntry 4 (r.setWidth 16) = some (patternOf (s.params.read reg)) := by
  have hlt : (r.setWidth 16).toNat < 256 := by
    rw [BitVec.toNat_setWidth]
    have := r.isLt
    omega
  have hback : (r.setWidth 16).setWidth 8 = r := by simp
  change (if (r.setWidth 16).toNat < 256 then _ else none) = _
  rw [if_pos hlt, hback, hr, Option.map_some]

theorem exec_rdsr_parameter {s : State} {r : BitVec 8} {reg : Reg} {pat : BitVec 32} (hr : regOf s.hw.nOps r = some reg)
    (h : s.params.read reg = q16 pat) :
    exec (.rdsr 4 (r.setWidth 16)) s = .next { s with response := some ⟨false, pat⟩ } := by
  rw [exec_rdsr_of_entry (statusEntry_bank4 hr), h, patternOf_q16, State.respond]

/-- Settles O20: SETP answers (0, 0) only where it wrote, and what it wrote is a pattern's value. -/
theorem setpThenRdsrReadsBack : Obligations.SetpThenRdsrReadsBack := by
  unfold Obligations.SetpThenRdsrReadsBack
  intro s t r val hp hf he hresp
  rcases exec_outcome he with ⟨hne, _⟩ | ⟨_, code, rfl, _⟩ | hc
  · exact absurd hf hne
  · simp at hresp
  · cases hc with
    | setp _ hr _ => exact exec_rdsr_parameter hr (Params.read_write_same hp (exists_of_regOf hr) _)

theorem word32_of_lt {n : Nat} (h : n < 2 ^ 32) : word32 n = BitVec.ofNat 32 n := if_pos h

section
variable {s : State} {idx : BitVec 16} (h : idx.toNat < s.hw.maxVoices)
include h

theorem statusEntry_bank1 : s.statusEntry 1 idx = some (s.vstat idx.toNat) := if_pos h

theorem statusEntry_bank2 :
    s.statusEntry 2 idx = some (if idx.toNat < s.pool.active.length
      then BitVec.ofNat 32 (min (s.pool.age.getD idx.toNat 0) (2 ^ 32 - 1)) else 0xFFFFFFFF#32) := if_pos h

theorem statusEntry_bank3 :
    s.statusEntry 3 idx = some ((s.pool.active[idx.toNat]?).elim 0xFFFFFFFF#32 word32) := by
  change (if idx.toNat < s.hw.maxVoices then _ else none) = _
  rw [if_pos h]
  cases s.pool.active[idx.toNat]? <;> rfl

end

/-- Settles O21, bank by bank. -/
theorem rdsrAnswersStatusMap : Obligations.RdsrAnswersStatusMap := by
  unfold Obligations.RdsrAnswersStatusMap
  intro s
  refine ⟨exec_rdsr_of_entry rfl, ?_, exec_rdsr_of_entry rfl, ?_, exec_rdsr_of_entry rfl, fun h => ?_,
    exec_rdsr_of_entry rfl, fun h => ?_, fun h => ?_, fun h => ?_, fun r reg pat => exec_rdsr_parameter, fun idx hidx => ?_,
    fun idx hidx => ⟨⟨_, exec_rdsr_of_entry (statusEntry_bank3 hidx)⟩, exec_rdsr_of_entry (statusEntry_bank1 hidx),
      fun a hlt ha => ?_, fun v hv h => ?_, fun hge => ⟨?_, ?_⟩⟩⟩
  · have hbit : (BitVec.ofBool s.initd).setWidth 32 = if s.initd then 1 else 0 := by cases s.initd <;> rfl
    rw [← hbit]
    exact exec_rdsr_of_entry rfl
  · rw [BitVec.ofNat_toNat]
    exact exec_rdsr_of_entry rfl
  · rw [← word32_of_lt h]
    exact exec_rdsr_of_entry rfl
  · rw [← word32_of_lt h]
    exact exec_rdsr_of_entry rfl
  · rw [← word32_of_lt h]
    exact exec_rdsr_of_entry rfl
  · rw [← word32_of_lt h]
    exact exec_rdsr_of_entry rfl
  · rcases hidx with rfl | rfl | rfl | rfl <;> exact ⟨_, exec_rdsr_of_entry rfl⟩
  · rw [exec_rdsr_of_entry (statusEntry_bank2 hidx), if_pos hlt, List.getD_eq_getElem?_getD, ha, Option.getD_some,
      State.respond]
  · rw [exec_rdsr_of_entry (statusEntry_bank3 hidx), hv, Option.elim_some, word32_of_lt h, State.respond]
  · rw [exec_rdsr_of_entry (statusEntry_bank2 hidx), if_neg (not_lt.mpr hge), State.respond]
  · rw [exec_rdsr_of_entry (statusEntry_bank3 hidx), List.getElem?_eq_none hge, Option.elim_none, State.respond]

/-! ### NOTE_ON -/

theorem onEvent_eq (vp : Bool) (note : BitVec 7) (ch : BitVec 4) (vid vel : BitVec 32) :
    onEvent vp note ch vid vel = ⟨note, ch, if vp then some vid else none, q16 vel⟩ := rfl

theorem exec_noteOn_of_legal {s : State} (hf : s.fault = 0) (hi : s.initd = true) {vel : BitVec 32}
    (h0 : 0 ≤ q16 vel) (h1 : q16 vel ≤ 1) (ha : s.pool.active ≠ []) (vp : Bool) (note : BitVec 7) (ch : BitVec 4)
    (vid : BitVec 32) :
    exec (.noteOn vp note ch vid vel) s = .next (s.poolNoteOn (onEvent vp note ch vid vel)) := by
  rw [exec_noteOn_of_ready hf hi, if_pos ((velocityLegal_iff _).mpr ⟨h0, h1⟩), State.noteOnEvent, if_neg ha]

theorem playingAt_of_voice {voices : List Voice} {v : Nat} {vc : Voice} (h : voices[v]? = some vc) :
    playingAt voices v = vc.isPlaying := by
  rw [playingAt, h, Option.any_some]

/-- The first active voice that is not playing is the target (45_voice_pool.md R212). -/
theorem noteOnTarget_of_free {voices : List Voice} {pool : Pool} {i v : Nat} (hv : pool.active[i]? = some v)
    (hfree : playingAt voices v = false)
    (hbusy : ∀ j w, j < i → pool.active[j]? = some w → playingAt voices w = true) : noteOnTarget voices pool = i := by
  obtain ⟨hi, rfl⟩ := List.getElem?_eq_some_iff.mp hv
  have hfind : pool.active.findIdx? (fun v => !playingAt voices v) = some i := by
    refine List.findIdx?_eq_some_iff_getElem.mpr ⟨hi, by simp [hfree], fun j hj => ?_⟩
    simp [hbusy j _ hj (List.getElem?_eq_getElem _)]
  simp only [noteOnTarget, hfind]

/-- With every active voice playing the oldest one is the target (45_voice_pool.md R212). -/
theorem noteOnTarget_of_busy {voices : List Voice} {pool : Pool}
    (h : ∀ w ∈ pool.active, playingAt voices w = true) : noteOnTarget voices pool = oldest pool.age := by
  have hfind : pool.active.findIdx? (fun v => !playingAt voices v) = none := by
    refine List.findIdx?_eq_none_iff.mpr fun w hw => by simp [h w hw]
  simp only [noteOnTarget, hfind]

/-- A voice at an active index, changed. -/
theorem modifyActive_eq_set {active : List Nat} {voices : List Voice} {t v : Nat} {vc : Voice} (ha : active[t]? = some v)
    (hv : voices[v]? = some vc) (f : Voice → Voice) : modifyActive active t f voices = voices.set v (f vc) := by
  simp only [modifyActive, ha]
  rw [List.modify_eq_set_getElem?, hv]
  rfl

/-- Which voices play once one has been replaced by one that plays. -/
theorem playingAt_set {voices : List Voice} {v : Nat} {vc vc' : Voice} (hv : voices[v]? = some vc)
    (hp : vc'.isPlaying = true) (w : Nat) : playingAt (voices.set v vc') w = (w == v || playingAt voices w) := by
  obtain ⟨hlt, _⟩ := List.getElem?_eq_some_iff.mp hv
  rw [playingAt, List.getElem?_set]
  by_cases hw : v = w
  · subst hw
    simp [hlt, hp]
  · simp [hw, Ne.symm hw, playingAt]

theorem ageRestarted_get (hw : CfgHW) (t : Nat) (age : List Nat) (j : Nat) :
    (ageRestarted hw t age)[j]? = (age[j]?).map (fun a => if j = t ∧ hw.ageResetOnNoteOn = true then 0 else a) := by
  rw [ageRestarted]
  by_cases hr : hw.ageResetOnNoteOn = true
  · by_cases hj : j = t
    · subst hj
      by_cases hlt : j < age.length <;> simp [hr, hlt]
    · simp [hr, hj, List.getElem?_set_ne (Ne.symm hj)]
  · simp [hr]

section
variable {s : State} {i v : Nat} {vc : Voice} (ht : noteOnTarget s.voices s.pool = i) (ha : s.pool.active[i]? = some v)
  (hv : s.voices[v]? = some vc) (ev : Event)
include ht ha hv

/-- What a note-on leaves, in terms of the voice it goes to (45_voice_pool.md R212). -/
theorem poolNoteOn_eq :
    s.poolNoteOn ev =
      { s with
        voices := s.voices.set v (vc.noteOn s.ctx ev)
        pool := { s.pool with age := (s.poolNoteOn ev).pool.age }
        lastTarget := word32 i
        response := some ⟨false, word32 i⟩ } := by
  rw [← ht, ← modifyActive_eq_set (ht ▸ ha) hv (fun v => v.noteOn s.ctx ev)]
  rfl

/-- The ages after a note-on: the target's restarted first, then one more for each voice that plays, the target's too
(45_voice_pool.md R212, R213). -/
theorem poolNoteOn_age_get (j : Nat) :
    (s.poolNoteOn ev).pool.age[j]? = (s.pool.age[j]?).map (fun a =>
      (if j = i ∧ s.hw.ageResetOnNoteOn = true then 0 else a) +
        (if (s.pool.active[j]?).any (fun w => w == v || playingAt s.voices w) then 1 else 0)) := by
  rw [State.poolNoteOn_pool, State.poolNoteOn_voices, ht, modifyActive_eq_set ha hv, agesGrown_get, ageRestarted_get,
    Option.map_map, funext (playingAt_set hv (vc.noteOn_plays s.ctx ev))]
  rfl

end

theorem poolNoteOn_age_length (s : State) (ev : Event) : (s.poolNoteOn ev).pool.age.length = s.pool.age.length := by
  rw [State.poolNoteOn_pool, agesGrown_length, ageRestarted_length]

/-- Settles O23. -/
theorem noteOnStartsFirstFreeVoice : Obligations.NoteOnStartsFirstFreeVoice := by
  unfold Obligations.NoteOnStartsFirstFreeVoice
  intro s vp note ch vid vel i v vc hf hi h0 h1 ha hv hoff hbusy
  have hfree : playingAt s.voices v = false := by
    rw [playingAt_of_voice hv]
    exact (Env.not_isPlaying_iff _).mpr hoff
  have ht := noteOnTarget_of_free ha hfree hbusy
  refine ⟨(s.poolNoteOn (onEvent vp note ch vid vel)).pool.age, ?_, poolNoteOn_age_length s _, fun j a hj => ?_⟩
  · rw [exec_noteOn_of_legal hf hi h0 h1 (List.ne_nil_of_mem (List.mem_of_getElem? ha)), ← onEvent_eq,
      ← Voice.noteOn_of_off hoff]
    exact congrArg _ (poolNoteOn_eq ht ha hv _)
  · rw [poolNoteOn_age_get ht ha hv, hj, Option.map_some]

/-- Settles O25: the target is the oldest active voice, and since it plays it is told to steal. -/
theorem noteOnStealsOldestVoice : Obligations.NoteOnStealsOldestVoice := by
  unfold Obligations.NoteOnStealsOldestVoice
  intro s vp note ch vid vel hf hi h0 h1 hne hage hbusy
  have hage0 : s.pool.age ≠ [] := List.ne_nil_of_length_pos (by rw [hage]; exact List.length_pos_of_ne_nil hne)
  obtain ⟨oldAge, hold, hmax⟩ := oldestIsLastMaximum s.pool.age hage0
  have ht := noteOnTarget_of_busy hbusy
  generalize oldest s.pool.age = i at ht hold hmax
  have hlt : i < s.pool.active.length := hage ▸ (List.getElem?_eq_some_iff.mp hold).1
  have ha : s.pool.active[i]? = some s.pool.active[i] := List.getElem?_eq_getElem hlt
  generalize s.pool.active[i] = v at ha
  have hplays := hbusy v (List.mem_of_getElem? ha)
  obtain ⟨vc, hv, hvc⟩ := (Option.any_eq_true _ _).mp hplays
  have hon : vc.masterEnv.state ≠ .off := (Env.isPlaying_iff _).mp hvc
  refine ⟨i, v, vc, (s.poolNoteOn (onEvent vp note ch vid vel)).pool.age, oldAge, ha, hv, hold, hmax, ?_,
    poolNoteOn_age_length s _, fun j a hj => ?_⟩
  · rw [exec_noteOn_of_legal hf hi h0 h1 hne]
    refine (congrArg _ (poolNoteOn_eq ht ha hv _)).trans ?_
    rw [Voice.noteOn_of_playing hon]
    rfl
  · have hj' : j < s.pool.active.length := hage ▸ (List.getElem?_eq_some_iff.mp hj).1
    have hw := hbusy _ (List.getElem_mem hj')
    rw [poolNoteOn_age_get ht ha hv, hj, Option.map_some, List.getElem?_eq_getElem hj', Option.any_some, hw,
      Bool.or_true, if_pos rfl]

end Sys2Proof.Machine

/-! PROOF. The signal path's parts by themselves: the wrap and the one-shot offset of the clock (40_clock.md R102,
R105, R107), the oscillator (41_oscillator.md R120 to R125), and the segments of the envelope (42_envelope.md R131 to
R144). -/

namespace Sys2Proof.Machine

/-! ### The clock -/

/-- A phase in a period of known number wraps by that number of periods. -/
theorem wrap1_of_period {x : Num} (k : Int) (h0 : (k : Num) ≤ x) (h1 : x < k + 1) : wrap1 x = x - k := by
  rw [wrap1, Int.floor_eq_iff.mpr ⟨h0, h1⟩]

/-- Settles O39. -/
theorem wrapIsPhaseModuloOne : Obligations.WrapIsPhaseModuloOne := by
  unfold Obligations.WrapIsPhaseModuloOne
  intro x
  refine ⟨wrap1_nonneg x, wrap1_lt_one x, ⟨⌊x⌋, by rw [wrap1]; ring⟩, wrap1_of_unit, fun h0 h1 => ?_, fun h0 h1 => ?_⟩
  · rw [wrap1_of_period 1 (by exact_mod_cast h0) (by norm_num; exact h1), Int.cast_one]
  · rw [wrap1_of_period (-1) (by exact_mod_cast h0) (by norm_num; exact h1)]
    norm_num

/-- An offset put on a phase of [0, 1), with a wrap or without, and taken off again leaves the phase modulo 1. -/
theorem wrap1_offset_cancel {m : Num} (h0 : 0 ≤ m) (h1 : m < 1) (d : Num) (w : Bool) :
    wrap1 ((if w then wrap1 (m + d) else m + d) - d) = m := by
  cases w with
  | false => rw [if_neg Bool.false_ne_true, add_sub_cancel_right, wrap1_of_unit h0 h1]
  | true => rw [if_pos rfl, sub_eq_add_neg, wrap1_wrap1_add, add_neg_cancel_right, wrap1_of_unit h0 h1]

/-- How far an offset moves the phase: with the direction the phase runs in, not at all while it stands (40_clock.md
R105). -/
def Clock.shift (c : Clock) (d : Num) : Num := if 0 < c.phaseInc then d else if c.phaseInc < 0 then -d else 0

/-- What folding an offset in and removing it does to a clock without one (40_clock.md R105, R107). -/
theorem removePhaseOffset_addPhaseOffset {c : Clock} (h : c.phaseOffset = 0) (d : Num) (w : Bool) :
    (c.addPhaseOffset d w).removePhaseOffset =
      { c with
        mcounter := wrap1 ((if w then wrap1 (c.mcounter + c.shift d) else c.mcounter + c.shift d) - c.shift d) } := by
  obtain ⟨m, inc, off, fo⟩ := c
  obtain rfl : off = 0 := h
  unfold Clock.addPhaseOffset Clock.foldOffset Clock.wrap Clock.removePhaseOffset Clock.unfolded Clock.shift
  by_cases hpos : 0 < inc
  · cases w <;> simp [hpos]
  · by_cases hneg : inc < 0 <;> cases w <;> simp [hpos, hneg, sub_eq_add_neg]

/-- Settles O40. -/
theorem offsetFoldedAndRemovedIsGone : Obligations.OffsetFoldedAndRemovedIsGone := by
  unfold Obligations.OffsetFoldedAndRemovedIsGone
  intro c d w h0 h1 hoff
  rw [removePhaseOffset_addPhaseOffset hoff, wrap1_offset_cancel h0 h1]

/-! ### The oscillator -/

theorem sine_length_pos {hw : CfgHW} (h : hw.SineOk) : (0 : Num) < (hw.sine.length : Num) := by
  have hlen : 1 ≤ hw.sine.length := h.1
  exact_mod_cast hlen

/-- Between the table points `i` and `i + 1` the oscillator runs along the line from one entry to the next. -/
theorem oscRead_between {hw : CfgHW} (h : hw.SineOk) (i : Int) {f : Num} (h0 : 0 ≤ f) (h1 : f < 1) :
    oscRead hw.sine (((i : Num) + f) / (hw.sine.length : Num)) =
      tableAt hw.sine i + f * (tableAt hw.sine (i + 1) - tableAt hw.sine i) := by
  have hidx : ((i : Num) + f) / (hw.sine.length : Num) * (hw.sine.length : Num) = i + f :=
    div_mul_cancel₀ _ (sine_length_pos h).ne'
  have hfloor : ⌊(i : Num) + f⌋ = i := Int.floor_eq_iff.mpr ⟨by linarith, by linarith⟩
  simp only [oscRead, hidx, hfloor, add_sub_cancel_left]

theorem oscRead_at {hw : CfgHW} (h : hw.SineOk) (i : Int) :
    oscRead hw.sine ((i : Num) / (hw.sine.length : Num)) = tableAt hw.sine i := by
  simpa using oscRead_between h i le_rfl zero_lt_one

/-- An index below the length is its own table index. -/
theorem tableAt_of_lt {sine : List Num} {i : Nat} (h : i < sine.length) : tableAt sine (i : Int) = sine.getD i 0 := by
  rw [tableAt, Int.emod_eq_of_lt (by omega) (by omega), Int.toNat_natCast]

theorem oscRead_at_index {hw : CfgHW} (h : hw.SineOk) {i : Nat} (hi : i < hw.sine.length) :
    oscRead hw.sine ((i : Num) / (hw.sine.length : Num)) = hw.sine.getD i 0 := by
  rw [← tableAt_of_lt hi, ← oscRead_at h, Int.cast_natCast]

/-- Settles O41: a quarter point is a table point when 4 divides the length. -/
theorem oscillatorExactAtTablePoints : Obligations.OscillatorExactAtTablePoints := by
  unfold Obligations.OscillatorExactAtTablePoints
  intro hw h
  refine ⟨oscRead_at h, fun h4 => ?_, fun hclose i hi => ?_⟩
  · obtain ⟨hlen, _, hzero, hquarters⟩ := id h
    obtain ⟨hone, htwo, hthree⟩ := hquarters h4
    rw [CfgHW.tableLen] at hlen hone htwo hthree
    have hpos := sine_length_pos h
    have point {i : Nat} {phase : Num} (hi : i < hw.sine.length) (hphase : (i : Num) = phase * (hw.sine.length : Num)) :
        oscRead hw.sine phase = hw.sine.getD i 0 := by
      rw [← oscRead_at_index h hi, hphase, mul_div_cancel_right₀ _ hpos.ne']
    obtain ⟨q, hq⟩ : ∃ q, hw.sine.length = 4 * q := ⟨hw.sine.length / 4, by omega⟩
    have hlength : (hw.sine.length : Num) = 4 * (q : Num) := by rw [hq]; push_cast; rfl
    refine ⟨(point (i := 0) (by omega) (by simp)).trans hzero, (point (i := q) (by omega) ?_).trans ?_,
      (point (i := 2 * q) (by omega) ?_).trans ?_, (point (i := 3 * q) (by omega) ?_).trans ?_⟩
    · rw [hlength]; ring
    · rw [← hone]; congr 1; omega
    · rw [hlength]; push_cast; ring
    · rw [← htwo]; congr 1; omega
    · rw [hlength]; push_cast; ring
    · rw [← hthree]; congr 1; omega
  · rw [oscRead_at_index h hi]
    exact hclose i hi

/-- Settles O42: a value on the line between two entries, and the phase modulo 1. -/
theorem oscillatorBoundedAndPeriodic : Obligations.OscillatorBoundedAndPeriodic := by
  unfold Obligations.OscillatorBoundedAndPeriodic
  intro hw phase h
  obtain ⟨hlow, hhigh⟩ := between_bound (tableAt_bound h ⌊phase * (hw.sine.length : Num)⌋)
    (tableAt_bound h (⌊phase * (hw.sine.length : Num)⌋ + 1)) (Int.fract_nonneg (phase * (hw.sine.length : Num)))
    (Int.fract_lt_one _).le
  exact ⟨hlow, hhigh, (oscRead_wrap1 hw.sine phase).symm⟩

/-- Settles O43: below the wrap lies the line from the last entry to the first. -/
theorem oscillatorContinuousAtWrap : Obligations.OscillatorContinuousAtWrap := by
  unfold Obligations.OscillatorContinuousAtWrap
  intro hw h
  refine ⟨fun i f h0 h1 => oscRead_between h i h0 h1, fun d hd hd1 => ?_⟩
  have hlen : 1 ≤ hw.sine.length := h.1
  have hpos := sine_length_pos h
  have hphase : 1 - d = (((hw.sine.length - 1 : Nat) : Int) + (1 - d * (hw.sine.length : Num))) / (hw.sine.length : Num) := by
    push_cast [hlen]
    field_simp
    ring
  have hlast : tableAt hw.sine ((hw.sine.length - 1 : Nat) : Int) = hw.sine.getD (hw.sine.length - 1) 0 :=
    tableAt_of_lt (by omega)
  have hnext : tableAt hw.sine (((hw.sine.length - 1 : Nat) : Int) + 1) = hw.sine.getD 0 0 := by
    have := tableAt_add_length hw.sine 0 1
    rw [show ((hw.sine.length - 1 : Nat) : Int) + 1 = 0 + 1 * (hw.sine.length : Int) by omega, this]
    exact tableAt_of_lt (i := 0) (by omega)
  have hzero : oscRead hw.sine 0 = hw.sine.getD 0 0 := by
    simpa using oscRead_at_index h (i := 0) (by omega)
  rw [hphase, oscRead_between h _ (by linarith) (by nlinarith), hlast, hnext, hzero]
  ring

/-! ### The envelope -/

theorem segStep_eq (t sr : Num) : segStep t sr = if t * sr = 0 then 0 else 1000 / (t * sr) := rfl

section
variable {sr T t : Num} (hT : 0 < T) (h : t * sr = 1000 * T)
include hT h

/-- A segment of `T` samples has the step `1/T` (42_envelope.md R131). -/
theorem segStep_of_samples : segStep t sr = 1 / T := by
  have hne : t * sr ≠ 0 := by rw [h]; positivity
  rw [segStep_eq, if_neg hne, h]
  field_simp

theorem time_ne_zero_of_samples : t ≠ 0 := by
  rintro rfl
  rw [zero_mul] at h
  linarith

end

theorem Env.advances_off (p : Params) (sr : Num) (n : Nat) : Env.toOff.advances p sr n = Env.toOff :=
  forUpTo_keeps (P := fun e => e = Env.toOff) rfl (fun _ _ _ he => by rw [he]; rfl)

section
variable {p : Params} {sr T : Num} (hT : 0 < T)
include hT

/-- An attack rises by `1/T` from 0 at the first advance while it is below 1 (42_envelope.md R133, R138). -/
theorem attack_advances (h : p.attackMs * sr = 1000 * T) {j : Nat} (hj : (j : Num) < T) :
    (Env.noteOn p sr).advances p sr (j + 1) = ⟨.attack, (j : Num) / T, 1 / T⟩ := by
  have ha := time_ne_zero_of_samples hT h
  induction j with
  | zero =>
    rw [Env.advances_succ, Env.advances_zero, Env.noteOn_eq, segStep_of_samples hT h,
      advance_attack_on (by rw [sub_add_cancel]; exact zero_lt_one) ha]
    simp
  | succ j ih =>
    rw [Nat.cast_succ] at hj ⊢
    have hsum : (j : Num) / T + 1 / T = ((j : Num) + 1) / T := (add_div _ _ _).symm
    rw [Env.advances_succ, ih (by linarith), advance_attack_on (by rwa [hsum, div_lt_one hT]) ha, hsum]

/-- The advance after the last one below 1 ends the attack (42_envelope.md R138). -/
theorem attack_advances_end (h : p.attackMs * sr = 1000 * T) {j : Nat} (hj : T ≤ (j : Num)) (hj1 : (j : Num) < T + 1) :
    (Env.noteOn p sr).advances p sr (j + 1) = ⟨.decay, 1, - segStep p.decayMs sr⟩ := by
  obtain ⟨k, rfl⟩ : ∃ k, j = k + 1 := Nat.exists_eq_add_one.mpr (by exact_mod_cast hT.trans_le hj)
  rw [Nat.cast_succ] at hj hj1
  have hend : 1 ≤ (k : Num) / T + 1 / T := by
    rw [← add_div, le_div_iff₀ hT, one_mul]
    exact hj
  rw [Env.advances_succ, attack_advances hT h (by linarith), advance_attack_end (.inl hend)]

end

/-- One advance of a decay that takes time (42_envelope.md R139). -/
theorem advance_decay {p : Params} (h : p.decayMs ≠ 0) (sr o i : Num) :
    (⟨.decay, o, i⟩ : Env).advance p sr = if o + i ≤ p.sustain then ⟨.sustain, p.sustain, 0⟩ else ⟨.decay, o + i, i⟩ := by
  split_ifs with hend
  · exact advance_decay_end (.inl hend) sr
  · exact advance_decay_on (not_le.mp hend) h sr

/-- One advance of a release that takes time (42_envelope.md R140). -/
theorem advance_release {p : Params} (h : p.releaseMs ≠ 0) (sr o i : Num) :
    (⟨.release, o, i⟩ : Env).advance p sr = if o + i ≤ 0 then Env.toOff else ⟨.release, o + i, i⟩ := by
  split_ifs with hend
  · exact advance_release_end (.inl hend) sr
  · exact advance_release_on (not_le.mp hend) h sr

/-- One advance of a shutdown (42_envelope.md R141). -/
theorem advance_shutdown (p : Params) (sr o i : Num) :
    (⟨.shutdown, o, i⟩ : Env).advance p sr = if o + i ≤ 0 then Env.toOff else ⟨.shutdown, o + i, i⟩ := by
  split_ifs with hend
  · exact advance_shutdown_end hend p sr
  · exact advance_shutdown_on (not_le.mp hend) p sr

/-- A falling segment: by `d` a sample from the level `o` until it has reached `low`, and at rest from then on. -/
theorem advances_falling {p : Params} {sr o d low : Num} {state : EnvState} {rest : Env} (hd : 0 ≤ d)
    (hrest : rest.advance p sr = rest)
    (hstep : ∀ o', (⟨state, o', -d⟩ : Env).advance p sr = if o' + -d ≤ low then rest else ⟨state, o' + -d, -d⟩) {j : Nat}
    (hj : 1 ≤ j) :
    (⟨state, o, -d⟩ : Env).advances p sr j =
      if o - (j : Num) * d ≤ low then rest else ⟨state, o - (j : Num) * d, -d⟩ := by
  induction j, hj using Nat.le_induction with
  | base => rw [Env.advances_succ, Env.advances_zero, hstep, Nat.cast_one, one_mul, sub_eq_add_neg]
  | succ j _ ih =>
    have hnext : o - ((j + 1 : Nat) : Num) * d = o - (j : Num) * d + -d := by push_cast; ring
    rw [Env.advances_succ, ih, hnext]
    by_cases hend : o - (j : Num) * d ≤ low
    · rw [if_pos hend, if_pos (by linarith), hrest]
    · rw [if_neg hend, hstep]

/-- Settles O44. -/
theorem attackReachesDecayAfterItsTime : Obligations.AttackReachesDecayAfterItsTime := by
  unfold Obligations.AttackReachesDecayAfterItsTime
  intro p sr T hT _ h j
  exact ⟨attack_advances hT h, attack_advances_end hT h⟩

theorem Env.noteOff_of_pos {e : Env} (hs : e.state ≠ .off) (ho : 0 < e.outputValue) (p : Params) (sr : Num) :
    e.noteOff p sr = ⟨.release, e.outputValue, - segStep p.releaseMs sr⟩ := by
  rw [Env.noteOff, if_neg hs, if_pos ho]

/-- Settles O45: two falling segments. -/
theorem decayAndReleaseRunToTheirEnds : Obligations.DecayAndReleaseRunToTheirEnds := by
  unfold Obligations.DecayAndReleaseRunToTheirEnds
  intro p sr T hT _
  have hd : 0 ≤ 1 / T := by positivity
  refine ⟨fun h j hj => ?_, fun h e hs ho => ⟨?_, fun j hj => ?_⟩⟩
  · rw [advances_falling hd rfl (fun o => advance_decay (time_ne_zero_of_samples hT h) sr o _) hj, mul_one_div]
  · rw [Env.noteOff_of_pos hs ho, segStep_of_samples hT h]
  · rw [Env.noteOff_of_pos hs ho, segStep_of_samples hT h,
      advances_falling hd rfl (fun o => advance_release (time_ne_zero_of_samples hT h) sr o _) hj, mul_one_div]
    rfl

/-- Settles O46. -/
theorem zeroTimesEndAtNextAdvance : Obligations.ZeroTimesEndAtNextAdvance := by
  unfold Obligations.ZeroTimesEndAtNextAdvance
  rintro p sr ⟨state, o, i⟩
  refine ⟨?_, ?_, ?_, ?_, ?_, ?_⟩
  · rintro h rfl
    exact advance_attack_end (.inr h) sr
  · rintro h rfl
    exact advance_decay_end (.inr h) sr
  · rintro h rfl
    exact advance_release_end (.inr h) sr
  · rintro (rfl | rfl) <;> rfl
  · rintro rfl
    rfl
  · intro hs ho
    rw [Env.noteOff, if_neg hs, if_neg (not_lt.mpr ho)]
    rfl

/-- A shutdown takes `SHUTDOWN_MS * sr / 1000` samples from any level above 0, and one sample from any other
(42_envelope.md R135, R141). -/
theorem shutdown_advances_end {hw : CfgHW} {sr : Num} (hk : 1000 ≤ hw.shutdownMs * sr) (p : Params) (e : Env) {n : Nat}
    (hn : hw.shutdownMs * sr / 1000 ≤ (n : Num)) : (e.shutdown hw sr).advances p sr n = Env.toOff := by
  set k := hw.shutdownMs * sr with hkdef
  have hk0 : 0 < k := by linarith
  have hn1 : 1 ≤ n := by
    have : (1 : Num) ≤ n := by linarith
    exact_mod_cast this
  by_cases ho : e.outputValue ≤ 0
  · obtain ⟨m, rfl⟩ := Nat.exists_eq_add_one.mpr hn1
    rw [Env.advances_succ', Env.shutdown, ← hkdef, advance_shutdown,
      if_pos (shutdown_first_step_nonpos ho hk), Env.advances_off]
  · have ho0 := not_le.mp ho
    have hd : 0 ≤ e.outputValue * 1000 / k := by positivity
    have hall : e.outputValue - (n : Num) * (e.outputValue * 1000 / k) ≤ 0 := by
      have hone : 1 ≤ (n : Num) * 1000 / k := by
        rw [le_div_iff₀ hk0]
        linarith
      have hprod : (n : Num) * (e.outputValue * 1000 / k) = e.outputValue * ((n : Num) * 1000 / k) := by ring
      rw [hprod]
      nlinarith
    rw [Env.shutdown, ← hkdef, neg_mul, neg_div, advances_falling hd (rest := Env.toOff) rfl
      (fun o => advance_shutdown p sr o _) hn1, if_pos hall]

/-- Settles O47. -/
theorem shutdownEndsInTime : Obligations.ShutdownEndsInTime := by
  unfold Obligations.ShutdownEndsInTime
  exact fun _ p _ e _ _ hk hn => shutdown_advances_end hk p e hn

end Sys2Proof.Machine

/-! PROOF. The operator and the voice: what their blocks hold (43_operator.md R165 to R171, 44_voice.md R187 to R189),
how large the samples can be (44_voice.md R189, 45_voice_pool.md R223), that blocks can be split (46_commands.md R255),
and how a steal ends (44_voice.md R190, R191). -/

namespace Sys2Proof.Machine

/-! ### The operator -/

/-- The offset of sample `i` is made of the operator's input and its own sample before (43_operator.md R165). -/
theorem renderSamples_offsetAt {o : Operator} (hw : o.out.wf = true) (x : Ctx) {n i c : Nat} (sm : Bool) (index : Num)
    (hc : c < x.ch) (hi : i ≤ n) :
    (o.renderSamples x i sm index).offsetAt sm index i =
      o.pm.read (0, i) + if sm then
        (if i = 0 then o.lastOutput else (o.renderSamples x n sm index).out.read (c, i - 1)) * index else 0 := by
  rw [Operator.offsetAt, (renderSamples_rest x i sm index o).1, renderSamples_lastOutput hw x sm index hc hi]
  cases sm with
  | false => simp
  | true => rfl

/-- Settles O32. -/
theorem operatorSamplesInClosedForm : Obligations.OperatorSamplesInClosedForm := by
  unfold Obligations.OperatorSamplesInClosedForm
  intro x n sm index o c i h hw hc hi
  obtain ⟨hclock, _, _, _, hout⟩ := render_eq x n sm index o
  refine ⟨?_, ?_⟩
  · rw [render_sample h hw x n sm index hc hi, renderSamples_offsetAt hw x sm index hc hi.le, hout]
  · rw [hclock, renderSamples_clock h]
    rfl

theorem oscRead_bound {hw : CfgHW} (h : hw.SineOk) (phase : Num) :
    -1 ≤ oscRead hw.sine phase ∧ oscRead hw.sine phase ≤ 1 :=
  ⟨(oscillatorBoundedAndPeriodic hw phase h).1, (oscillatorBoundedAndPeriodic hw phase h).2.1⟩

/-- What an element of a rendered operator's output holds: inside the block the sample its turn read, in every channel
(43_operator.md R165, R166). -/
theorem render_out_read {o : Operator} (hw : o.out.wf = true) (x : Ctx) (n : Nat) (sm : Bool) (index : Num) (c j : Nat) :
    (o.render x n sm index).out.read (c, j) =
      if c < x.ch ∧ j < n then (o.renderSamples x j sm index).sampleAt x sm index j else o.out.read (c, j) := by
  rw [(render_eq x n sm index o).2.2.2.2, renderSamples_out_read hw]

theorem render_same_channels {o : Operator} (hw : o.out.wf = true) (x : Ctx) (n : Nat) (sm : Bool) (index : Num)
    {c c' i : Nat} (hc : c < x.ch) (hc' : c' < x.ch) (hi : i < n) :
    (o.render x n sm index).out.read (c, i) = (o.render x n sm index).out.read (c', i) := by
  rw [render_out_read hw, render_out_read hw, if_pos ⟨hc, hi⟩, if_pos ⟨hc', hi⟩]

theorem render_out_bound {o : Operator} (hw : o.out.wf = true) {x : Ctx} (hs : x.hw.SineOk) (n : Nat) (sm : Bool)
    (index : Num) {c i : Nat} (hc : c < x.ch) (hi : i < n) :
    -1 ≤ (o.render x n sm index).out.read (c, i) ∧ (o.render x n sm index).out.read (c, i) ≤ 1 := by
  rw [render_out_read hw, if_pos ⟨hc, hi⟩]
  exact oscRead_bound hs _

/-- The last output of a block that is not empty is its last sample (43_operator.md R165). -/
theorem render_lastOutput {o : Operator} (hw : o.out.wf = true) (x : Ctx) {n : Nat} (hn : 0 < n) (sm : Bool)
    (index : Num) {c : Nat} (hc : c < x.ch) :
    (o.render x n sm index).lastOutput = (o.render x n sm index).out.read (c, n - 1) := by
  obtain ⟨_, _, hlast, _, hout⟩ := render_eq x n sm index o
  rw [hlast, hout, renderSamples_lastOutput hw x sm index hc le_rfl, if_neg hn.ne']

/-- Settles O34. -/
theorem operatorFansOutBoundedSamples : Obligations.OperatorFansOutBoundedSamples := by
  unfold Obligations.OperatorFansOutBoundedSamples
  intro x n sm index o hs hw
  refine ⟨fun c c' i hc hc' hi => ⟨render_same_channels hw x n sm index hc hc' hi,
    render_out_bound hw hs n sm index hc hi⟩, fun c hc hn => render_lastOutput hw x hn sm index hc, fun hn => ?_,
    fun c i hout => ?_, (render_eq x n sm index o).2.1⟩
  · obtain ⟨k, rfl⟩ := Nat.exists_eq_add_one.mpr hn
    exact oscRead_bound hs _
  · rw [render_out_read hw, if_neg (by omega)]

/-! ### Splitting a block -/

/-- Two operators that go on alike: the same clock and last output, and no input. -/
def Operator.Alike (o o' : Operator) : Prop :=
  o.clock = o'.clock ∧ o.lastOutput = o'.lastOutput ∧ o.pm = [] ∧ o'.pm = []

/-- Without an input a sample's place in the block makes no difference. -/
theorem Operator.Alike.renderSample {o o' : Operator} (h : o.Alike o') (x : Ctx) (sm : Bool) (index : Num) (i j : Nat) :
    (o.renderSample x sm index i).Alike (o'.renderSample x sm index j) := by
  obtain ⟨hclock, hlast, hpm, hpm'⟩ := h
  have hoff : o.offsetAt sm index i = o'.offsetAt sm index j := by
    simp [Operator.offsetAt, hpm, hpm', hlast, Space.read]
  have hbent : o.bentClock sm index i = o'.bentClock sm index j := by
    rw [Operator.bentClock, Operator.bentClock, hclock, hoff]
  refine ⟨?_, ?_, hpm, hpm'⟩
  · simp only [Operator.renderSample, hbent]
  · simp only [Operator.renderSample, Operator.sampleAt, hbent]

/-- A block that starts `m` samples later. -/
theorem forUpTo_renderSample_alike (x : Ctx) (sm : Bool) (index : Num) (m n : Nat) {o : Operator} (h : o.pm = []) :
    (forUpTo n (fun i o => o.renderSample x sm index (m + i)) o).Alike (o.renderSamples x n sm index) := by
  induction n with
  | zero => exact ⟨rfl, rfl, h, h⟩
  | succ n ih => exact ih.renderSample x sm index (m + n) n

/-- With no input there is none to clear. -/
theorem render_of_pm_nil {o : Operator} (h : o.pm = []) (x : Ctx) (n : Nat) (sm : Bool) (index : Num) :
    o.render x n sm index = o.renderSamples x n sm index := by
  have hpm : (o.renderSamples x n sm index).pm = [] := (renderSamples_rest x n sm index o).1.trans h
  simp only [Operator.render, hpm, clearPm_nil]
  rw [← hpm]

theorem Env.advances_add (p : Params) (sr : Num) (m n : Nat) (e : Env) :
    e.advances p sr (m + n) = (e.advances p sr m).advances p sr n :=
  forUpTo_add m n (fun _ (e : Env) => e.advance p sr) e

/-- Settles O35. -/
theorem splitBlockAdvancesAlike : Obligations.SplitBlockAdvancesAlike := by
  unfold Obligations.SplitBlockAdvancesAlike
  intro x m n sm index o e hpm
  have hpm' : (o.renderSamples x m sm index).pm = [] := (renderSamples_rest x m sm index o).1.trans hpm
  obtain ⟨hclock, hlast, _⟩ := forUpTo_renderSample_alike x sm index m n hpm'
  rw [render_of_pm_nil hpm, render_of_pm_nil hpm, render_of_pm_nil hpm', Operator.renderSamples, forUpTo_add]
  exact ⟨e.advances_add _ _ m n, hclock, hlast⟩

/-! ### The mix of a voice -/

/-- A sum over operators of what is read from their outputs, in terms of the outputs alone. -/
theorem elim_out_read (o : Option Operator) (i : Idx) :
    o.elim 0 (fun o => o.out.read i) = (o.map Operator.out).elim 0 (fun m => m.read i) := by
  cases o <;> rfl

/-- The operators of a rendered voice hold the outputs of the chain. -/
theorem render_elim_out_read (x : Ctx) (n : Nat) (v : Voice) (k : Nat) (i : Idx) :
    ((v.render x n).ops[k]?).elim 0 (fun o => o.out.read i) =
      ((renderChain x n none 0 (v.refresh x).ops)[k]?).elim 0 (fun o => o.out.read i) := by
  rw [elim_out_read, elim_out_read, Voice.render_out]

/-- Settles O31. -/
theorem voiceBlockIsScaledMix : Obligations.VoiceBlockIsScaledMix := by
  unfold Obligations.VoiceBlockIsScaledMix
  intro x n v c i hw hc hi
  have hmix := mixFrom_eq_sum x.params (c, i) 0 (renderChain x n none 0 (v.refresh x).ops)
  simp only [Nat.zero_add, renderChain_length, Voice.refresh_length] at hmix
  rw [Voice.render_vout, mixBlock_read hw, if_pos ⟨hc, hi⟩, Env.renderValue_pos _ _ (by omega), hmix]
  simp only [render_elim_out_read]

/-! ### The chain -/

/-- What an operator is as a block starts: settled, its input all zero, its output canonical. -/
def Operator.Ready (o : Operator) : Prop := o.clock.Settled ∧ o.pm = [] ∧ o.out.wf = true

/-- Operator `k` of a rendered chain: the operator given, after the rendered one before it was added to its input. -/
theorem renderChain_eq_render {x : Ctx} {n k : Nat} {ops : List Operator} {p : Operator}
    (hp : (renderChain x n none 0 ops)[k]? = some p) :
    ∃ o, ops[k]? = some o ∧ p =
      (o.fedBy x (if k = 0 then none else (renderChain x n none 0 ops)[k - 1]?)).render x n
        (x.hw.selfMod.getD k false) (x.params.read (.modIndex k)) := by
  rw [renderChain_get] at hp
  obtain ⟨o, ho, rfl⟩ := Option.map_eq_some_iff.mp hp
  exact ⟨o, ho, by rw [Nat.zero_add]⟩

theorem fedBy_out_wf {o : Operator} (h : o.out.wf = true) (x : Ctx) (prev : Option Operator) :
    (o.fedBy x prev).out.wf = true := by
  rwa [(fedBy_rest x prev o).2.2.2]

section
variable {x : Ctx} {n : Nat} {ops : List Operator} (h : ∀ o ∈ ops, o.out.wf = true)
include h

/-- An operator of a chain gives the same samples in every channel. -/
theorem chain_same_channels {k : Nat} {p : Operator} (hp : (renderChain x n none 0 ops)[k]? = some p) {c c' i : Nat}
    (hc : c < x.ch) (hc' : c' < x.ch) (hi : i < n) : p.out.read (c, i) = p.out.read (c', i) := by
  obtain ⟨o, ho, rfl⟩ := renderChain_eq_render hp
  exact render_same_channels (fedBy_out_wf (h o (List.mem_of_getElem? ho)) x _) x n _ _ hc hc' hi

theorem chain_out_bound (hs : x.hw.SineOk) {k : Nat} {p : Operator} (hp : (renderChain x n none 0 ops)[k]? = some p)
    {c i : Nat} (hc : c < x.ch) (hi : i < n) : |p.out.read (c, i)| ≤ 1 := by
  obtain ⟨o, ho, rfl⟩ := renderChain_eq_render hp
  exact abs_le.mpr (render_out_bound (fedBy_out_wf (h o (List.mem_of_getElem? ho)) x _) hs n _ _ hc hi)

end

/-- What a rendered chain holds of operator `k`: its samples, modulated by the one before it and by itself, and its
clock and last output (44_voice.md R187, R188, R189). -/
theorem chain_operator {x : Ctx} {n k : Nat} {ops : List Operator} {o p : Operator} (h : ∀ o ∈ ops, o.Ready)
    (hb : n ≤ x.blk) (ho : ops[k]? = some o) (hp : (renderChain x n none 0 ops)[k]? = some p) {c i : Nat} (hc : c < x.ch)
    (hi : i < n) :
    p.out.read (c, i) =
      sampleInClosedForm x.hw.sine o.clock.mcounter o.clock.phaseInc
        ((if k = 0 then 0 else ((renderChain x n none 0 ops)[k - 1]?).elim 0 (fun q => q.out.read (c, i))) +
          if x.hw.selfMod.getD k false then
            (if i = 0 then o.lastOutput else p.out.read (c, i - 1)) * x.params.read (.modIndex k)
          else 0) i ∧
      p.clock.mcounter = Int.fract (o.clock.mcounter + (n : Num) * o.clock.phaseInc) ∧
      p.clock.phaseInc = o.clock.phaseInc ∧ p.lastOutput = p.out.read (c, n - 1) := by
  obtain ⟨o', ho', hpeq⟩ := renderChain_eq_render hp
  obtain rfl := Option.some.inj (ho.symm.trans ho')
  obtain ⟨hsettled, hpm, hwf⟩ := h o (List.mem_of_getElem? ho)
  generalize hprev : (if k = 0 then none else (renderChain x n none 0 ops)[k - 1]?) = prev at hpeq
  have hsame : ∀ q, prev = some q → ∀ c', c' < x.ch → q.out.read (c', i) = q.out.read (c, i) := by
    rintro q rfl c' hc'
    by_cases hk : k = 0
    · simp [hk] at hprev
    · rw [if_neg hk] at hprev
      exact chain_same_channels (fun o ho => (h o ho).2.2) hprev hc' hc hi
  have hinput := fedBy_pm_read hpm hc (hi.trans_le hb) hsame
  obtain ⟨hclock, _, hlast, hout⟩ := fedBy_rest x prev o
  have hsettled' : (o.fedBy x prev).clock.Settled := hclock ▸ hsettled
  have hwf' := fedBy_out_wf hwf x prev
  obtain ⟨hsample, hphase⟩ := operatorSamplesInClosedForm x n (x.hw.selfMod.getD k false) (x.params.read (.modIndex k))
    (o.fedBy x prev) c i hsettled' hwf' hc hi
  have hinc : p.clock.phaseInc = o.clock.phaseInc := by
    rw [hpeq, (render_eq x n _ _ _).1, renderSamples_clock hsettled', hclock]
  rw [← hpeq, hclock, hlast, hinput, ← hprev] at hsample
  rw [← hpeq, hclock] at hphase
  refine ⟨?_, hphase, hinc, ?_⟩
  · rw [hsample]
    congr 2
    split_ifs <;> rfl
  · rw [hpeq]
    exact render_lastOutput hwf' x (Nat.zero_lt_of_lt hi) _ _ hc

/-- The refresh of the frequencies gives operator `k` its own, and leaves its phase alone (44_voice.md R182, R189). -/
theorem refresh_get {v : Voice} {k : Nat} {o : Operator} (h : v.ops[k]? = some o) (x : Ctx) :
    (v.refresh x).ops[k]? = some { o with clock := o.clock.setFreq (opFreq x v.note k) x.sr } := by
  rw [Voice.refresh, List.getElem?_mapIdx, h, Option.map_some]

theorem refresh_ready {v : Voice} (h : ∀ o ∈ v.ops, o.Ready) (x : Ctx) : ∀ o ∈ (v.refresh x).ops, o.Ready :=
  Voice.refresh_ops (P := Operator.Ready) x (fun o ho _ => h o ho)

/-- Settles O33: the chain's operators, for a voice with the frequencies refreshed. -/
theorem chainModulatesNextOperator : Obligations.ChainModulatesNextOperator := by
  unfold Obligations.ChainModulatesNextOperator
  refine ⟨fun x n ops k o p p' c i h hb ho hsm hp hp' hc hi => ?_, fun x n v k o c i h hb ho hc hi => ?_⟩
  · have hsample := (chain_operator h hb ho hp' hc hi).1
    rwa [if_neg k.succ_ne_zero, Nat.add_sub_cancel, hp, Option.elim_some, hsm, if_neg Bool.false_ne_true, add_zero]
      at hsample
  · have hready := refresh_ready h x
    have ho' := refresh_get ho x
    obtain ⟨p, hp, hpout⟩ : ∃ p, (v.render x n).ops[k]? = some p ∧
        some p.out = ((renderChain x n none 0 (v.refresh x).ops)[k]?).map Operator.out := by
      have hk : k < (v.render x n).ops.length := by
        rw [Voice.render_length]
        exact (List.getElem?_eq_some_iff.mp ho).1
      refine ⟨_, List.getElem?_eq_getElem hk, ?_⟩
      rw [← Voice.render_out, List.getElem?_eq_getElem hk, Option.map_some]
    obtain ⟨q, hq, hqout⟩ := Option.map_eq_some_iff.mp hpout.symm
    obtain ⟨hsample, hphase, hinc, hlast⟩ := chain_operator hready hb ho' hq hc hi
    refine ⟨p, hp, ?_, fun hno => ?_⟩
    · rw [← hqout, render_elim_out_read]
      exact hsample
    · rw [Voice.render_ops_of_no_steal hno, hq] at hp
      obtain rfl := Option.some.inj hp
      exact ⟨hphase, hinc, hlast⟩

/-! ### How large the samples are -/

/-- Settles O36: the first advance of an attack that takes time reaches 0, and that level scales the whole block. -/
theorem firstBlockOfNoteIsSilent : Obligations.FirstBlockOfNoteIsSilent := by
  unfold Obligations.FirstBlockOfNoteIsSilent
  intro x n ev v c i hoff hw ha _ hc hi
  have hzero : ((v.noteOn x ev).masterEnv.advance x.params x.sr).outputValue = 0 := by
    rw [Voice.noteOn_of_off hoff, Voice.startNote, Env.noteOn_eq,
      advance_attack_on (by rw [sub_add_cancel]; exact zero_lt_one) ha.ne', sub_add_cancel]
  have hw' : (v.noteOn x ev).vout.wf = true := by rwa [Voice.noteOn_vout]
  rw [voiceBlockIsScaledMix x n _ c i hw' hc hi, hzero, mul_zero]

/-- The sample rate scales steps; the level an advance leaves comes from the step there was. -/
theorem Env.advance_level_eq (p : Params) (sr sr' : Num) (e : Env) :
    (e.advance p sr).outputValue = (e.advance p sr').outputValue := by
  unfold Env.advance
  cases e.state with
  | attack => split_ifs <;> rfl
  | _ => rfl

/-- After an advance a bounded envelope is at a level of [0, 1] (42_envelope.md R145). -/
theorem Env.advance_level {p : Params} (hp : p.Legal) (sr : Num) {e : Env} (h : e.Bounded) :
    0 ≤ (e.advance p sr).outputValue ∧ (e.advance p sr).outputValue ≤ 1 := by
  rw [e.advance_level_eq p sr 0]
  obtain ⟨h0, hbounded⟩ := Env.advance_bounded hp le_rfl h
  exact ⟨h0, hbounded.1⟩

/-- A sum is at most as large as the sum of its terms' bounds. -/
theorem abs_sum_map_le {α : Type} {l : List α} {f g : α → Num} (h : ∀ a ∈ l, |f a| ≤ g a) :
    |(l.map f).sum| ≤ (l.map g).sum := by
  induction l with
  | nil => simp
  | cons a l ih =>
    rw [List.map_cons, List.map_cons, List.sum_cons, List.sum_cons]
    exact (abs_add_le _ _).trans (add_le_add (h a (by simp)) (ih fun b hb => h b (by simp [hb])))

theorem mix_nonneg {p : Params} (h : p.Legal) (k : Nat) : 0 ≤ p.read (.mix k) :=
  ((Reg.legal_iff _ _).mp (h (.mix k)).2).2 (.inr ⟨k, rfl⟩) |>.1

/-- Settles O37: of the scaled mix every output is at most 1 in magnitude, and so is the level. -/
theorem voiceBlockBoundedByMix : Obligations.VoiceBlockBoundedByMix := by
  unfold Obligations.VoiceBlockBoundedByMix
  intro x n v c i hs hp he hw hout hc hi
  obtain ⟨h0, h1⟩ := Env.advance_level hp x.sr he
  have hwf : ∀ o ∈ (v.refresh x).ops, o.out.wf = true :=
    Voice.refresh_ops (P := fun o => o.out.wf = true) x (fun o ho _ => hout o ho)
  have hterm (k : Nat) (_ : k ∈ List.range v.ops.length) :
      |x.params.read (.mix k) * ((v.render x n).ops[k]?.elim 0 (fun o => o.out.read (c, i)))| ≤ x.params.read (.mix k) := by
    have hone : |((v.render x n).ops[k]?).elim 0 (fun o => o.out.read (c, i))| ≤ 1 := by
      rw [render_elim_out_read]
      cases hk : (renderChain x n none 0 (v.refresh x).ops)[k]? with
      | none => simp
      | some p => exact chain_out_bound hwf hs hk hc hi
    rw [abs_mul, abs_of_nonneg (mix_nonneg hp k)]
    exact mul_le_of_le_one_right (mix_nonneg hp k) hone
  rw [voiceBlockIsScaledMix x n v c i hw hc hi, abs_mul, abs_of_nonneg h0]
  exact (mul_le_of_le_one_right (abs_nonneg _) h1).trans (abs_sum_map_le hterm)

/-- Settles O38: each active voice adds one sample of its block, at most the sum of the mix weights. -/
theorem renderGrowthBounded : Obligations.RenderGrowthBounded := by
  unfold Obligations.RenderGrowthBounded
  intro s t a b c j hwf hsh hp he hok hn hf hexec
  obtain ⟨_, _, _, hs, _⟩ := hwf
  generalize hweights : ((List.range s.hw.nOps).map (fun k => s.params.read (.mix k))).sum = weights
  have hsum : 0 ≤ weights := hweights ▸ List.sum_nonneg (by simpa using fun k _ => mix_nonneg hp k)
  have hbound := mul_nonneg (Nat.cast_nonneg (α := Num) s.pool.active.length) hsum
  rcases exec_outcome hexec with ⟨hne, _⟩ | ⟨_, code, rfl, _⟩ | hc
  · exact absurd hf hne
  · simpa using hbound
  · cases hc
    rw [State.respond_out, State.poolRender_out_read s _ _ hok.1.1, add_sub_cancel_left]
    split_ifs with hin
    case neg => simpa using hbound
    case pos =>
      obtain ⟨hch, haj, hjb⟩ := hin
      have hterm (v : Nat) (hv : v ∈ s.pool.active) :
          |((s.poolRender a.toNat b.toNat).voices[v]?).elim 0 (fun w => w.vout.read (c, j - a.toNat))| ≤ weights := by
        rw [State.poolRender_voice s _ _ hn]
        cases hvc : s.voices[v]? with
        | none => simpa using hsum
        | some vc =>
          have hmem := List.mem_of_getElem? hvc
          obtain ⟨hvout, hops⟩ := hok.2 vc hmem
          rw [Option.map_some, Option.elim_some, if_pos ⟨hv, by omega⟩, ← hweights, ← hsh.2.2 vc hmem]
          exact voiceBlockBoundedByMix s.ctx _ vc c _ hs hp (he vc hmem).1 hvout.1 (fun o ho => (hops o ho).2.1) hch
            (by omega)
      simpa using abs_sum_map_le hterm

/-! ### The end of a steal -/

/-- Settles O48: the three cases of the steal check. -/
theorem stealCheckAfterRender : Obligations.StealCheckAfterRender := by
  unfold Obligations.StealCheckAfterRender
  intro x n v
  rcases (v.renderBlock x n).stealCheck_cases x with ⟨heq, hno⟩ | ⟨heq, hs, hoff, hp⟩ | ⟨ev, heq, hs, hoff, hp⟩ <;>
    rw [Voice.render, heq]
  · refine ⟨fun _ => ⟨rfl, rfl, rfl, rfl, rfl, rfl, rfl⟩, fun hs hoff => ?_, fun ev hs hoff => ?_⟩
    · exact absurd hoff (hno.resolve_left (ne_false_of_eq_true hs))
    · exact absurd hoff (hno.resolve_left (ne_false_of_eq_true hs))
  · refine ⟨fun hno => ?_, fun _ _ _ => ⟨rfl, rfl, hp, rfl, rfl, rfl, rfl⟩, fun ev _ _ hev => ?_⟩
    · exact absurd hoff (hno.resolve_left (ne_false_of_eq_true hs))
    · cases hp.symm.trans hev
  · refine ⟨fun hno => ?_, fun _ _ hnone => ?_, fun ev' _ _ hev => ?_⟩
    · exact absurd hoff (hno.resolve_left (ne_false_of_eq_true hs))
    · cases hp.symm.trans hnone
    · obtain rfl := Option.some.inj (hp.symm.trans hev)
      refine ⟨rfl, rfl, rfl, rfl, rfl, rfl, rfl, ?_⟩
      exact Voice.startNote_ops x ev (fun o _ f => ⟨rfl, rfl, rfl, rfl⟩)

/-- A voice that sounds the note `ev` and steals no more (44_voice.md R191). -/
def Voice.Sounds (ev : Event) (v : Voice) : Prop :=
  v.isStealing = false ∧ v.currentEvent = some ev ∧ v.pendingEvent = none ∧ v.note = ev.note ∧ v.channel = ev.channel ∧
    v.voiceId = ev.voiceId

/-- A voice `m` samples into a shutdown that started from `e`, with the note `ev` waiting. -/
def Voice.StealsFor (x : Ctx) (ev : Event) (e : Env) (m : Nat) (v : Voice) : Prop :=
  v.isStealing = true ∧ v.pendingEvent = some ev ∧ v.masterEnv = (e.shutdown x.hw x.sr).advances x.params x.sr m ∧
    v.masterEnv.state ≠ .off

theorem Voice.Sounds.render {ev : Event} {v : Voice} (h : v.Sounds ev) (x : Ctx) (n : Nat) : (v.render x n).Sounds ev := by
  obtain ⟨hs, hcur, hpend, hnote, hch, hid⟩ := h
  obtain ⟨_, hs', hcur', hpend', hnote', hch', hid'⟩ := (stealCheckAfterRender x n v).1 (.inl hs)
  exact ⟨hs'.trans hs, hcur'.trans hcur, hpend'.trans hpend, hnote'.trans hnote, hch'.trans hch, hid'.trans hid⟩

/-- A block brings the shutdown on by its length, or ends it with the new note sounding. -/
theorem Voice.StealsFor.render {x : Ctx} {ev : Event} {e : Env} {m : Nat} {v : Voice} (h : v.StealsFor x ev e m) (n : Nat) :
    (v.render x n).StealsFor x ev e (m + n) ∨ (v.render x n).Sounds ev := by
  obtain ⟨hs, hpend, henv, _⟩ := h
  have hadv : v.masterEnv.advances x.params x.sr n = (e.shutdown x.hw x.sr).advances x.params x.sr (m + n) := by
    rw [henv, Env.advances_add]
  obtain ⟨hgoes, _, hends⟩ := stealCheckAfterRender x n v
  by_cases hoff : (v.masterEnv.advances x.params x.sr n).state = .off
  · obtain ⟨_, hs', hcur, hpend', hnote, hch, hid, _⟩ := hends ev hs hoff hpend
    exact .inr ⟨hs', hcur, hpend', hnote, hch, hid⟩
  · obtain ⟨henv', hs', _, hpend', _⟩ := hgoes (.inr hoff)
    exact .inl ⟨hs'.trans hs, hpend'.trans hpend, henv'.trans hadv, henv' ▸ hoff⟩

theorem steal_blocks {x : Ctx} {ev : Event} {e : Env} {v : Voice} (blocks : List Nat) (m : Nat)
    (h : v.StealsFor x ev e m ∨ v.Sounds ev) :
    (blocks.foldl (fun v n => v.render x n) v).StealsFor x ev e (m + blocks.sum) ∨
      (blocks.foldl (fun v n => v.render x n) v).Sounds ev := by
  induction blocks generalizing m v with
  | nil => exact h
  | cons n rest ih =>
    rw [List.foldl_cons, List.sum_cons, ← Nat.add_assoc]
    exact ih (m + n) (h.elim (fun h => h.render n) (fun h => .inr (h.render x n)))

/-- Settles O49: the blocks together are long enough for the shutdown to end, and it ends with the note sounding. -/
theorem stealEndsInTime : Obligations.StealEndsInTime := by
  unfold Obligations.StealEndsInTime
  intro x ev v blocks hon _ hk hn
  have hstart : (v.noteOn x ev).StealsFor x ev v.masterEnv 0 := by
    rw [Voice.noteOn_of_playing hon]
    exact ⟨rfl, rfl, rfl, by simp [Voice.steal, Env.shutdown]⟩
  refine (steal_blocks blocks 0 (.inl hstart)).resolve_left fun hsteals => ?_
  obtain ⟨_, _, henv, hne⟩ := hsteals
  rw [Nat.zero_add, shutdown_advances_end hk x.params v.masterEnv hn] at henv
  exact hne (by rw [henv]; rfl)

end Sys2Proof.Machine

/-! PROOF. Velocity reaches nothing but the stored events (10_state.md R36, 46_commands.md R250): each operation, on a
state whose stored velocities are set to 0, does what it does on the state itself, up to stored velocities. -/

namespace Sys2Proof.Machine

/-! ### Voices -/

theorem noteOf_mute (e : Option Event) : noteOf (e.map Event.mute) = noteOf e := by
  cases e <;> rfl

theorem channelOf_mute (e : Option Event) : channelOf (e.map Event.mute) = channelOf e := by
  cases e <;> rfl

theorem matchesEvent_mute (e : Event) (s : Option Event) : matchesEvent e (s.map Event.mute) = matchesEvent e s := by
  cases s <;> rfl

theorem Voice.mute_mute (v : Voice) : v.mute.mute = v.mute := by
  simp only [Voice.mute, Option.map_map]
  rfl

theorem Voice.isPlaying_mute (v : Voice) : v.mute.isPlaying = v.isPlaying := rfl

theorem Voice.status_mute (v : Voice) (active : Bool) : v.mute.status active = v.status active := by
  have hcur : v.mute.currentEvent = v.currentEvent.map Event.mute := rfl
  have hpend : v.mute.pendingEvent = v.pendingEvent.map Event.mute := rfl
  simp only [Voice.status, hcur, hpend, noteOf_mute, channelOf_mute, Option.isSome_map]
  rfl

theorem Voice.startNote_mute (x : Ctx) (ev : Event) (v : Voice) :
    (v.startNote x ev).mute = (v.mute.startNote x ev.mute).mute := by
  simp only [Voice.startNote, Voice.mute, Option.map_map]
  rfl

theorem Voice.noteOn_mute (x : Ctx) (ev : Event) (v : Voice) :
    (v.noteOn x ev).mute = (v.mute.noteOn x ev.mute).mute := by
  rw [Voice.noteOn, Voice.noteOn, Voice.isPlaying_mute]
  split_ifs
  · simp only [Voice.steal, Voice.mute, Option.map_map]
    rfl
  · exact v.startNote_mute x ev

theorem Voice.noteOff_mute (x : Ctx) (e : Event) (v : Voice) : (v.noteOff x e).mute = (v.mute.noteOff x e).mute := by
  have hsteal : v.mute.isStealing = v.isStealing := rfl
  have hcur : matchesEvent e v.mute.currentEvent = matchesEvent e v.currentEvent := matchesEvent_mute e _
  have hpend : matchesEvent e v.mute.pendingEvent = matchesEvent e v.pendingEvent := matchesEvent_mute e _
  simp only [Voice.noteOff, hsteal, hcur, hpend]
  split_ifs
  · simp only [Voice.mute, Option.map_map]
    rfl
  · exact v.mute_mute.symm
  · simp only [Voice.releaseNote, Voice.releaseOps, Voice.mute, Option.map_map]
    rfl
  · exact v.mute_mute.symm

theorem Voice.stealCheck_mute (x : Ctx) (v : Voice) : (v.stealCheck x).mute = (v.mute.stealCheck x).mute := by
  have hsteal : v.mute.isStealing = v.isStealing := rfl
  have hpend : v.mute.pendingEvent = v.pendingEvent.map Event.mute := rfl
  have hfinal : (v.finalize x).mute = (v.mute.finalize x).mute := by
    simp only [Voice.finalize, Voice.releaseOps, Voice.mute, Option.map_map]
    rfl
  simp only [Voice.stealCheck, hsteal, hpend, Voice.isPlaying_mute]
  split_ifs
  · cases v.pendingEvent with
    | none => exact hfinal
    | some ev =>
      change ((v.finalize x).noteOn x ev).mute = ((v.mute.finalize x).noteOn x ev.mute).mute
      calc ((v.finalize x).noteOn x ev).mute
        _ = ((v.finalize x).mute.noteOn x ev.mute).mute := Voice.noteOn_mute x ev _
        _ = ((v.mute.finalize x).mute.noteOn x ev.mute).mute := by rw [hfinal]
        _ = ((v.mute.finalize x).noteOn x ev.mute).mute := (Voice.noteOn_mute x ev.mute _).symm
  · exact v.mute_mute.symm

theorem Voice.render_mute (x : Ctx) (n : Nat) (v : Voice) : (v.render x n).mute = (v.mute.render x n).mute :=
  Voice.stealCheck_mute x (v.renderBlock x n)

/-! ### The pool -/

/-- Two changes of a voice that do the same up to stored velocities. -/
def SameMuted (f g : Voice → Voice) : Prop := ∀ v, (f v).mute = (g v.mute).mute

theorem map_modify_mute {f g : Voice → Voice} (h : SameMuted f g) (voices : List Voice) (a : Nat) :
    (voices.modify a f).map Voice.mute = ((voices.map Voice.mute).modify a g).map Voice.mute := by
  apply List.ext_getElem?
  intro k
  simp only [List.getElem?_map, List.getElem?_modify]
  cases voices[k]? with
  | none => rfl
  | some v =>
    simp only [Option.map_some]
    split_ifs
    · exact congrArg some (h v)
    · exact congrArg some v.mute_mute.symm

theorem map_mute_mute (voices : List Voice) : (voices.map Voice.mute).map Voice.mute = voices.map Voice.mute := by
  rw [List.map_map]
  exact List.map_congr_left fun v _ => v.mute_mute

theorem modifyActive_mute {f g : Voice → Voice} (h : SameMuted f g) (active : List Nat) (t : Nat) (voices : List Voice) :
    (modifyActive active t f voices).map Voice.mute =
      (modifyActive active t g (voices.map Voice.mute)).map Voice.mute := by
  unfold modifyActive
  split
  · exact (map_mute_mute voices).symm
  · exact map_modify_mute h voices _

/-- A change that goes by what is not velocity leaves lists that agree so when they agreed before. -/
theorem forActive_mute {f : Voice → Voice} (h : SameMuted f f) (active : List Nat) (voices : List Voice) :
    (forActive active f voices).map Voice.mute = (forActive active f (voices.map Voice.mute)).map Voice.mute := by
  induction active generalizing voices with
  | nil => exact (map_mute_mute voices).symm
  | cons a rest ih =>
    change (forActive rest f (voices.modify a f)).map _ = (forActive rest f ((voices.map _).modify a f)).map _
    rw [ih, map_modify_mute h, ← ih]

theorem playingAt_mute (voices : List Voice) : playingAt (voices.map Voice.mute) = playingAt voices := by
  funext v
  rw [playingAt, playingAt, List.getElem?_map, Option.any_map]
  rfl

theorem noteOnTarget_mute (voices : List Voice) (pool : Pool) :
    noteOnTarget (voices.map Voice.mute) pool = noteOnTarget voices pool := by
  simp only [noteOnTarget, playingAt_mute]

theorem agesGrown_mute (voices : List Voice) (active age : List Nat) :
    agesGrown (voices.map Voice.mute) active age = agesGrown voices active age := by
  simp only [agesGrown, playingAt_mute]

theorem accumulateActive_mute (ch n start : Nat) (voices : List Voice) (active : List Nat) (out : Space) :
    accumulateActive ch n start (voices.map Voice.mute) active out = accumulateActive ch n start voices active out := by
  have hvout (v : Nat) : ((voices.map Voice.mute)[v]?).elim [] Voice.vout = (voices[v]?).elim [] Voice.vout := by
    rw [List.getElem?_map]
    cases voices[v]? <;> rfl
  simp only [accumulateActive, hvout]

/-! ### States -/

theorem State.mute_mute (s : State) : s.mute.mute = s.mute := by
  rw [State.mute, State.mute, map_mute_mute]

theorem State.statusEntry_mute (s : State) (bank : BitVec 8) (idx : BitVec 16) :
    s.mute.statusEntry bank idx = s.statusEntry bank idx := by
  have hvstat (v : Nat) : s.mute.vstat v = s.vstat v := by
    simp only [State.vstat, State.mute, List.getD_eq_getElem?_getD, List.getElem?_map]
    cases s.voices[v]? with
    | none => rfl
    | some vc => exact vc.status_mute _
  unfold State.statusEntry
  simp only [hvstat]
  rfl

theorem State.initialised_mute (s : State) (ch : BitVec 8) (poly : BitVec 16) (sr maxblk : BitVec 32) :
    (s.initialised ch poly sr maxblk).mute = s.mute.initialised ch poly sr maxblk := by
  simp only [State.initialised, State.mute, List.map_replicate]
  rfl

/-- The target and the ages go by which voices play. -/
theorem State.poolNoteOn_mute (s : State) (ev : Event) : (s.poolNoteOn ev).mute = (s.mute.poolNoteOn ev.mute).mute := by
  have hvoices := modifyActive_mute (fun v => v.noteOn_mute s.ctx ev) s.pool.active (noteOnTarget s.voices s.pool) s.voices
  have hage (age : List Nat) := congrArg (fun vs => agesGrown vs s.pool.active age) hvoices
  simp only [agesGrown_mute] at hage
  simp only [State.poolNoteOn, State.respond, State.mute, noteOnTarget_mute, State.mk.injEq, Pool.mk.injEq, true_and,
    and_true]
  exact ⟨hage _, hvoices⟩

theorem State.noteOffEvent_mute (s : State) (e : Event) : (s.noteOffEvent e).mute = (s.mute.noteOffEvent e).mute := by
  have hvoices := forActive_mute (fun v => v.noteOff_mute s.ctx e) s.pool.active s.voices
  exact congrArg (fun vs => ({ s with voices := vs } : State)) hvoices

theorem State.poolRender_mute (s : State) (a b : Nat) : (s.poolRender a b).mute = (s.mute.poolRender a b).mute := by
  by_cases hn : b - a = 0
  · rw [State.poolRender_empty s hn, State.poolRender_empty s.mute hn, State.mute_mute]
  · have hvoices := forActive_mute (fun v => v.render_mute s.ctx (b - a)) s.pool.active s.voices
    have hout := congrArg (fun vs => accumulateActive s.ctx.ch (b - a) a vs s.pool.active s.out) hvoices
    simp only [accumulateActive_mute] at hout
    rw [State.poolRender_block s hn, State.poolRender_block s.mute hn]
    simp only [State.mute, State.mk.injEq, true_and, and_true]
    exact ⟨hvoices, hout⟩

theorem State.unlessHalted_mute (s : State) {body body' : State} (h : body.mute = body'.mute) :
    (s.unlessHalted body).mute = (s.mute.unlessHalted body').mute := by
  have hf : s.mute.fault = s.fault := rfl
  rw [State.unlessHalted, State.unlessHalted, hf]
  split_ifs
  · exact h
  · change s.mute.drop = s.mute.mute.drop
    rw [State.mute_mute]

theorem State.raise_mute (s : State) (code : FaultCode) : (s.raise code).mute = (s.mute.raise code).mute := by
  change s.mute.raise code = s.mute.mute.raise code
  rw [State.mute_mute]

theorem State.respond_mute {s s' : State} (h : s.mute = s'.mute) (v : Reg32) :
    (s.respond v).mute = (s'.respond v).mute := by
  change s.mute.respond v = s'.mute.respond v
  rw [h]

theorem State.ifInitialised_mute (s : State) {body body' : State} (h : body.mute = body'.mute) :
    (s.ifInitialised body).mute = (s.mute.ifInitialised body').mute := by
  have hi : s.mute.initd = s.initd := rfl
  rw [State.ifInitialised, State.ifInitialised, hi]
  split_ifs
  · exact h
  · exact s.raise_mute _

theorem State.ite_mute {c : Prop} [Decidable c] {s t s' t' : State} (hs : s.mute = s'.mute) (ht : t.mute = t'.mute) :
    (if c then s else t).mute = (if c then s' else t').mute := by
  split_ifs
  · exact hs
  · exact ht

theorem State.noteOnEvent_mute (s : State) {ev ev' : Event} (h : ev.mute = ev'.mute) :
    (s.noteOnEvent ev).mute = (s.mute.noteOnEvent ev').mute := by
  have hpool : (s.mute.poolNoteOn ev.mute).mute = (s.mute.poolNoteOn ev').mute := by
    rw [h, s.mute.poolNoteOn_mute ev', s.mute_mute]
  exact State.ite_mute (s.raise_mute _) ((s.poolNoteOn_mute ev).trans hpool)

/-- A command on a state without stored velocities ends like the command on the state itself, up to stored
velocities. -/
theorem exec_mute (i : Instr) (s : State) :
    ∃ t u, exec i s = .next t ∧ exec i s.mute = .next u ∧ t.mute = u.mute := by
  have hraise := s.raise_mute
  cases i with
  | nop => exact ⟨_, _, rfl, rfl, State.respond_mute s.mute_mute.symm 0⟩
  | init ch poly sr maxblk =>
    have heffect : (s.initialised ch poly sr maxblk).mute = (s.mute.initialised ch poly sr maxblk).mute := by
      rw [State.initialised_mute, State.initialised_mute, State.mute_mute]
    exact ⟨_, _, rfl, rfl, s.unlessHalted_mute (State.ite_mute (State.respond_mute heffect 0) (hraise _))⟩
  | setpoly n =>
    have heffect : (State.mute { s with pool := s.pool.resize n.toNat }) =
        State.mute { s.mute with pool := s.pool.resize n.toNat } :=
      congrArg (fun u => ({ u with pool := s.pool.resize n.toNat } : State)) s.mute_mute.symm
    exact ⟨_, _, rfl, rfl,
      s.unlessHalted_mute (s.ifInitialised_mute (State.ite_mute (State.respond_mute heffect 0) (hraise _)))⟩
  | setp r val =>
    cases hr : regOf s.hw.nOps r with
    | none =>
      exact ⟨_, _, exec_setp_of_no_register hr val, exec_setp_of_no_register (s := s.mute) hr val,
        s.unlessHalted_mute (hraise _)⟩
    | some reg =>
      have heffect : (State.mute { s with params := s.params.write reg (q16 val) }) =
          State.mute { s.mute with params := s.params.write reg (q16 val) } :=
        congrArg (fun u => ({ u with params := s.params.write reg (q16 val) } : State)) s.mute_mute.symm
      exact ⟨_, _, exec_setp_of_register hr val, exec_setp_of_register (s := s.mute) hr val,
        s.unlessHalted_mute (State.ite_mute (State.respond_mute heffect 0) (hraise _))⟩
  | rdsr bank idx =>
    cases hv : s.statusEntry bank idx with
    | none =>
      exact ⟨_, _, exec_rdsr_of_no_entry hv, exec_rdsr_of_no_entry ((s.statusEntry_mute bank idx).trans hv),
        s.unlessHalted_mute (hraise _)⟩
    | some v =>
      exact ⟨_, _, exec_rdsr_of_entry hv, exec_rdsr_of_entry ((s.statusEntry_mute bank idx).trans hv),
        State.respond_mute s.mute_mute.symm v⟩
  | noteOn vp note channel vid vel =>
    exact ⟨_, _, rfl, rfl, s.unlessHalted_mute (s.ifInitialised_mute
      (State.ite_mute (s.noteOnEvent_mute rfl) (hraise _)))⟩
  | noteOff vp note channel vid =>
    exact ⟨_, _, rfl, rfl,
      s.unlessHalted_mute (s.ifInitialised_mute (State.respond_mute (s.noteOffEvent_mute _) 0))⟩
  | render a b =>
    exact ⟨_, _, rfl, rfl, s.unlessHalted_mute (s.ifInitialised_mute
      (State.ite_mute (State.respond_mute (s.poolRender_mute _ _) 0) (hraise _)))⟩

/-- Settles O51: both states end like the one they have in common, and a legal velocity only goes into the event. -/
theorem velocityHasNoEffect : Obligations.VelocityHasNoEffect := by
  unfold Obligations.VelocityHasNoEffect
  refine ⟨fun i s s' t hs he => ?_, fun s t vp note ch vid vel vel' h0 h1 h0' h1' he => ?_⟩
  · obtain ⟨t₁, u, he₁, hu, hm⟩ := exec_mute i s
    obtain ⟨t', u', he', hu', hm'⟩ := exec_mute i s'
    obtain rfl := Host.Outcome.next.inj (he₁.symm.trans he)
    rw [hs] at hu
    obtain rfl := Host.Outcome.next.inj (hu.symm.trans hu')
    exact ⟨t', he', hm.trans hm'.symm⟩
  · obtain ⟨t', he'⟩ := exec_next (.noteOn vp note ch vid vel') s
    refine ⟨t', he', ?_⟩
    have hlegal := (velocityLegal_iff _).mpr ⟨h0, h1⟩
    have hlegal' := (velocityLegal_iff _).mpr ⟨h0', h1'⟩
    rw [exec, execNoteOn, if_pos hlegal] at he
    rw [exec, execNoteOn, if_pos hlegal'] at he'
    obtain rfl := Host.Outcome.next.inj he
    obtain rfl := Host.Outcome.next.inj he'
    have hevent : (onEvent vp note ch vid vel).mute = (onEvent vp note ch vid vel').mute := by
      simp only [onEvent, Event.mute]
    exact (s.unlessHalted_mute (s.ifInitialised_mute (s.noteOnEvent_mute hevent))).trans
      (s.unlessHalted_mute (s.ifInitialised_mute (s.noteOnEvent_mute rfl))).symm

end Sys2Proof.Machine
